-- ==== Sys2Proof/Word.lean ====
section
/-! DEFINITION. The byte and the bit sequence: the two units of data of the block (20_memory.md R60, 00_scope.md R8). -/

namespace Sys2Proof

/-- "A byte is 8 bits everywhere" (20_memory.md R60). A symbol is a byte value (00_scope.md R6, SYMBOL_BITS). -/
abbrev Byte := BitVec 8

/-- A bit sequence, first bit first: "an ordered sequence of bits, not a language string" (00_scope.md R8). -/
abbrev Bits := List Bool

end Sys2Proof
end

