-- ==== Sys2Proof/Syntax.lean ====
section
/-! DEFINITION. The 18 operations of the opcode map (30_encoding.md R105, opcode_table.json) and the command the host presents
at the port (10_state.md R22). -/

namespace Sys2Proof

/-- One constructor per row of the opcode map. The only operand inside the command word is the bit of BW_WBIT; every other
operand travels in ARG_LEN and ARG_IN (30_encoding.md R102, R104), which the meanings read from the state. -/
inductive Instr where
  | reset
  | bwWbit (b : Bool)
  | bwWbytes
  | bwFlush
  | bwGet
  | brLoad
  | brRbit
  | brRbytes
  | ftBuild
  | ftPack
  | ftUnpack
  | tbBuild
  | ctDerive
  | stEntropy
  | stAvglen
  | stEff
  | orCompress
  | orDecompress
  deriving DecidableEq, Repr

/-- One command as the host presents it: CMD, ARG_LEN and ARG_IN (10_state.md R22). ARG_IN is whole before the command starts
(70_reset_and_hazards.md R276). -/
structure HostCommand where
  cmd    : Byte
  argLen : BitVec 64
  argIn  : List Byte
  deriving DecidableEq, Repr

end Sys2Proof
end

