-- ==== Sys2Proof/WellFormed.lean ====
section
/-! DEFINITION. What the port can carry: well-formed instructions and commands. -/

namespace Sys2Proof

/-- Every term of `Instr` is a command of the opcode map: the one operand inside the word is a bit, and "with the bit carried in
one command bit no other value can be presented" (40_bitstream.md R121). -/
def Instr.wf (i : Instr) : Bool :=
  match i with
  | .reset => true
  | .bwWbit _ => true
  | .bwWbytes => true
  | .bwFlush => true
  | .bwGet => true
  | .brLoad => true
  | .brRbit => true
  | .brRbytes => true
  | .ftBuild => true
  | .ftPack => true
  | .ftUnpack => true
  | .tbBuild => true
  | .ctDerive => true
  | .stEntropy => true
  | .stAvglen => true
  | .stEff => true
  | .orCompress => true
  | .orDecompress => true

/-- The longest operand the port can carry: "byte sequence, any length up to 2^64−1" (10_state.md R22). -/
def maxArgIn : Nat := 2 ^ 64 - 1

/-- A command the host can present: its ARG_IN fits the port (10_state.md R22). CMD and ARG_LEN fit by their types. -/
def HostCommand.wf (c : HostCommand) : Bool :=
  decide (c.argIn.length ≤ maxArgIn)

end Sys2Proof
end

