-- ==== Sys2Proof/Decode.lean ====
section
/-! DEFINITION. Decoding and encoding of the command word CMD8 (30_encoding.md R104 to R106). -/

namespace Sys2Proof

/-- One row of the opcode map: the bits a command must match, the bits that are fixed, and the instruction read from the word. -/
structure OpcodeRow where
  pattern : Byte
  mask    : Byte
  read    : Byte → Instr

/-- Bit 0 of CMD, the bit operand of BW_WBIT (30_encoding.md R102, R104). -/
def cmdBit (w : Byte) : Bool := w.getLsbD 0

/-- The opcode map of 30_encoding.md R105, row by row; the mask is 0xFE for the one pattern that has a field. -/
def opcodeMap : List OpcodeRow :=
  [ ⟨0x00, 0xFF, fun _ => .reset⟩,
    ⟨0x10, 0xFE, fun w => .bwWbit (cmdBit w)⟩,
    ⟨0x12, 0xFF, fun _ => .bwWbytes⟩,
    ⟨0x13, 0xFF, fun _ => .bwFlush⟩,
    ⟨0x14, 0xFF, fun _ => .bwGet⟩,
    ⟨0x20, 0xFF, fun _ => .brLoad⟩,
    ⟨0x21, 0xFF, fun _ => .brRbit⟩,
    ⟨0x22, 0xFF, fun _ => .brRbytes⟩,
    ⟨0x30, 0xFF, fun _ => .ftBuild⟩,
    ⟨0x31, 0xFF, fun _ => .ftPack⟩,
    ⟨0x32, 0xFF, fun _ => .ftUnpack⟩,
    ⟨0x40, 0xFF, fun _ => .tbBuild⟩,
    ⟨0x50, 0xFF, fun _ => .ctDerive⟩,
    ⟨0x51, 0xFF, fun _ => .stEntropy⟩,
    ⟨0x52, 0xFF, fun _ => .stAvglen⟩,
    ⟨0x53, 0xFF, fun _ => .stEff⟩,
    ⟨0x60, 0xFF, fun _ => .orCompress⟩,
    ⟨0x61, 0xFF, fun _ => .orDecompress⟩ ]

/-- Why bytes are no command. -/
inductive DecodeReject where
  /-- No byte was presented. -/
  | noCommand
  /-- The byte is one of the 237 codes outside the opcode map (30_encoding.md R106). -/
  | illegalCommand (cmd : Byte)
  deriving DecidableEq, Repr

/-- Whether a command word falls in a row. -/
def OpcodeRow.covers (r : OpcodeRow) (w : Byte) : Bool := w &&& r.mask == r.pattern

/-- "A decoder written from this table alone matches CMD against the pattern column, taking b from bit 0 for the one pattern
that has a field" (30_encoding.md R105); every other value is illegal (R106). -/
def decodeByte (w : Byte) : Except DecodeReject Instr :=
  match opcodeMap.find? (fun r => r.covers w) with
  | some r => .ok (r.read w)
  | none => .error (.illegalCommand w)

/-- Decode the command at the head of the bytes: "every command is one word long; there is no prefix, no second word and no mode
that changes decoding" (30_encoding.md R104). Answers the instruction and the bytes after it. -/
def decode (bytes : List Byte) : Except DecodeReject (Instr × List Byte) :=
  match bytes with
  | [] => .error .noCommand
  | w :: rest =>
    match decodeByte w with
    | .ok i => .ok (i, rest)
    | .error e => .error e

/-- The command word of an instruction (30_encoding.md R105, code column). -/
def encodeByte (i : Instr) : Byte :=
  match i with
  | .reset => 0x00
  | .bwWbit b => if b then 0x11 else 0x10
  | .bwWbytes => 0x12
  | .bwFlush => 0x13
  | .bwGet => 0x14
  | .brLoad => 0x20
  | .brRbit => 0x21
  | .brRbytes => 0x22
  | .ftBuild => 0x30
  | .ftPack => 0x31
  | .ftUnpack => 0x32
  | .tbBuild => 0x40
  | .ctDerive => 0x50
  | .stEntropy => 0x51
  | .stAvglen => 0x52
  | .stEff => 0x53
  | .orCompress => 0x60
  | .orDecompress => 0x61

/-- "A line is encoded as its CMD byte; operands are not part of the encoding" (30_encoding.md R109). -/
def encode (i : Instr) : List Byte := [encodeByte i]

/-- The instruction read from a table word: CMD8 is one 8-bit word (30_encoding.md R104), so the byte laid out is the word itself
and nothing lies above it. -/
def decodeTableWord (nbits w : Nat) : Option Instr :=
  if nbits = 8 ∧ w < 2 ^ 8 then
    match decode [BitVec.ofNat 8 w] with
    | .ok (i, _) => some i
    | .error _ => none
  else none

end Sys2Proof
end

