-- ==== Sys2Proof/Machine/Units.lean ====
section
/-! DEFINITION. The state of each unit as plain data: the groups of 10_state.md R20, element by element. -/

namespace Sys2Proof.Machine

open Sys2Proof (Byte Bits)

/-- STATUS (10_state.md R22): IDLE 0, DONE 1, FAILED 2; the value 3 is never produced (30_encoding.md R108). -/
inductive Status where
  | idle
  | done
  | failed
  deriving DecidableEq, Repr, Inhabited

/-- RES_BIT (10_state.md R22): a bit, or EOS (encoded 2); the value 3 is never produced (30_encoding.md R108). -/
inductive ResBit where
  | bit (b : Bool)
  | eos
  deriving DecidableEq, Repr, Inhabited

/-- The exact value of a statistic, as plain data. The port presents NUM of it, NUM being an open parameter
(43_codetable_stats.md R196); its real value is `ExactNum.toReal` and NUM of it `presentNum` in Port.lean. -/
inductive ExactNum where
  /-- The rational p / q; 0 / 1 is the zero. -/
  | ratio (p q : Nat)
  /-- The entropy of the positive counts listed (43_codetable_stats.md R195). -/
  | entropy (counts : List Nat)
  /-- 100 times the entropy of the counts over p / q (43_codetable_stats.md R199). -/
  | efficiency (counts : List Nat) (p q : Nat)
  deriving DecidableEq, Repr, Inhabited

/-- The errors of 60_exceptions.md R241, each with the info it records. -/
inductive Err where
  /-- OR_COMPRESS or OR_DECOMPRESS on zero-length data (R242). -/
  | emptyInput
  /-- MalformedMetadata / HeaderShort: fewer than 2 bytes for the count field (R243). -/
  | headerShort
  /-- MalformedMetadata / EntryTruncated, with the entry index ECUR (R243). -/
  | entryTruncated (index : Nat)
  /-- FT_PACK on more than 65535 keys, with |T|; unreachable (R244, 41_freqtable.md R154). -/
  | countFieldOverflow (keys : Nat)
  /-- A CMD value outside the opcode map, with that value (R246). -/
  | illegalCommand (cmd : Byte)
  deriving DecidableEq, Repr

/-- The result elements of the host port, RES_* and STAT_* (10_state.md R22, R23). -/
structure Results where
  out : List Byte
  bit : ResBit
  consumed : BitVec 20
  present : Bool
  num : ExactNum
  statSymbolCount : BitVec 9
  statSingle : Bool
  deriving DecidableEq, Repr, Inhabited

/-- The bit writer BW (10_state.md R25). WCNT is a count 0 to 7; WACC holds its WCNT pending bits in the low places. -/
structure Writer where
  wbuf : List Byte
  wacc : Byte
  wcnt : Nat
  deriving DecidableEq, Repr, Inhabited

/-- The bit reader BR (10_state.md R27). RPOS counts 0 to len(RDATA), RCNT 0 to 8. -/
structure Reader where
  rdata : List Byte
  rpos : Nat
  rcur : Byte
  rcnt : Nat
  deriving DecidableEq, Repr, Inhabited

/-- A table indexed by symbol (00_scope.md R8: "keys are unique", "insertion order is irrelevant"): its keys with their values, in
ascending symbol order, each key once, so that equal tables are equal data. -/
abbrev SymTable (α : Type) := List (Byte × α)

/-- The frequency table FT (10_state.md R29): the listed symbols are those with FT_PRESENT = 1, each with its FT_COUNT. -/
abbrev FreqTable := SymTable Nat

/-- The code table CT (10_state.md R35): the listed symbols are those with CT_LEN > 0, each with its CT_BITS. -/
abbrev CodeTable := SymTable Bits

/-- One entry of the arena (10_state.md R31). -/
structure Node where
  leaf : Bool
  sym : Byte
  weight : Nat
  left : Nat
  right : Nat
  oid : Nat
  deriving DecidableEq, Repr, Inhabited

/-- The tree builder TB (10_state.md R31, R34). `nodes` lists the arena entries in use, NODE[0] to NODE[NCOUNT−1]. -/
structure TreeUnit where
  nodes : List Node
  present : Bool
  root : Nat
  merges : Nat
  pq : List Nat
  deriving DecidableEq, Repr, Inhabited

/-- The values of PHASE (10_state.md R38). -/
inductive Phase where
  | idle
  | c1Check
  | c2Freq
  | c3Single
  | c4Tree
  | c4Codes
  | c4Meta
  | c4Payload
  | c4Flush
  | c5Return
  | d1Check
  | d2Unpack
  | d3Single
  | d4Tree
  | d4Walk
  | d5Return
  | failed
  deriving DecidableEq, Repr, Inhabited

/-- The orchestrator's sequencing state (10_state.md R37). -/
structure Orch where
  phase : Phase
  icur : BitVec 64
  bcur : BitVec 8
  ecur : BitVec 17
  walk : Nat
  expected : Nat
  emitted : Nat
  dout : List Byte
  deriving DecidableEq, Repr, Inhabited

/-- Everything an error leaves unspecified (60_exceptions.md R248): all of the instance but STATUS and ERR. -/
structure Units where
  res : Results
  bw : Writer
  br : Reader
  ft : FreqTable
  tb : TreeUnit
  ct : CodeTable
  orch : Orch
  deriving DecidableEq, Repr, Inhabited

/-- The loop cursors of 10_state.md R37 (ICUR, BCUR, ECUR). -/
structure Cursors where
  icur : BitVec 64
  bcur : BitVec 8
  ecur : BitVec 17
  deriving DecidableEq, Repr, Inhabited

end Sys2Proof.Machine
end

