-- ==== Sys2Proof/Config.lean ====
section
/-! DEFINITION. What an implementation fixes and the values the spec leaves open (00_scope.md R6; 93_implementation_defined.md).
The free values are opaque constants with no body: no proof can see what they are. -/

namespace Sys2Proof.Config

open Sys2Proof.Machine

/-- TIE_ORDER as plain data (42_treebuilder.md R177; log 12): for a table, the rank of each node of its build by oid, which decides
between nodes of equal weight. A table not listed has the default order. Ranks are a function of the table and the merge history
(an oid is a symbol or a merge number), as R177 (c) asks, and every admissible order has them. -/
abbrev TieRanks := List (FreqTable × List Nat)

/-- The parameters of 00_scope.md R6 that stay open and act on an operation. They are constants of a machine; `State.params` carries
them. NUM acts only on what the host reads at RES_NUM: `NumFormat`. -/
structure Params where
  /-- MAX_INPUT_LEN: the longest data FT_BUILD and OR_COMPRESS accept, at most 2^64−1 (00_scope.md R6, D9). -/
  maxInputLen : Nat
  /-- OUT_LIMIT: the longest output OR_DECOMPRESS may produce; `none` is "no limit", the default (00_scope.md R6, D24). -/
  outLimit : Option Nat
  /-- TIE_ORDER: the order the priority queue pops by, one for OR_COMPRESS and OR_DECOMPRESS alike (42_treebuilder.md R177 (d)); the
  empty list is the default order of R175 (00_scope.md R6, D3). -/
  tieRanks : TieRanks
  deriving DecidableEq, Repr, Inhabited

/-- The parameters of `State.reset`. MAX_INPUT_LEN is the largest value 00_scope.md R6 admits (DESIGN CHOICE, log 10); OUT_LIMIT is
the spec's default, none (log 11), and TIE_ORDER the spec's default order (log 12). -/
def defaultParams : Params := { maxInputLen := 2 ^ 64 - 1, outLimit := none, tieRanks := [] }

/-- NUM (00_scope.md R6, 43_codetable_stats.md R196): a number format of the port and the map into it of non-negative reals. "Required
of NUM: NUM(0) is the format's zero; NUM is monotone." A format may have more than one zero (93_implementation_defined.md U9). -/
structure NumFormat (F : Type) where
  /-- The map NUM. -/
  num : ℝ → F
  /-- The format's order. -/
  le : F → F → Prop
  /-- The format's zeros, signed ones included. -/
  isZero : F → Prop
  /-- "NUM(0) is the format's zero." -/
  num_zero : isZero (num 0)
  /-- "NUM is monotone." -/
  num_mono : ∀ a b : ℝ, 0 ≤ a → a ≤ b → le (num a) (num b)

/-- MAX_CODE_LEN (00_scope.md R6): the depth of a full binary tree of at most 256 leaves. -/
def maxCodeLen : Nat := 255

/-- The greatest entry count the 16-bit field N can hold (00_scope.md R6, NFIELD_BITS). -/
def maxCountField : Nat := 65535

/-- The result elements a command does not present: any value (93_implementation_defined.md U15; log 7). For RES_NUM it is any exact value,
so not a pattern outside NUM's image (DESIGN CHOICE, unsafe; log 7). -/
opaque freeResults : Nat → Results

/-- What the loop cursors hold after the command that used them: none of them "survives an operation" (10_state.md R37; log 8). -/
opaque freeCursors : Nat → Cursors

/-- All state other than STATUS and ERR after an error: unspecified (60_exceptions.md R248, 93_implementation_defined.md U3; log 4). -/
opaque freeUnits : Nat → Units

end Sys2Proof.Config
end

