-- ==== Sys2Proof/Machine/State.lean ====
section
/-! DEFINITION. The state of one instance (10_state.md), the parameters it was built with and the commands the host will issue;
the reasons a step can stop. -/

namespace Sys2Proof.Machine

open Sys2Proof

/-- One instance of the block, with the port's inputs. All of it is plain data. -/
structure State where
  /-- MAX_INPUT_LEN and OUT_LIMIT (00_scope.md R6): constants, written by no command. -/
  params : Config.Params
  /-- The commands the host will issue, next one first. The model's own field (log 1). -/
  pending : List HostCommand
  /-- ARG_LEN of the current command (10_state.md R22); written by the host. -/
  argLen : BitVec 64
  /-- ARG_IN of the current command (10_state.md R22); written by the host. -/
  argIn : List Byte
  /-- How many times a free value was drawn. The model's own field (log 9). -/
  free : Nat
  /-- STATUS (10_state.md R22, R24). -/
  status : Status
  /-- ERR (10_state.md R22, 60_exceptions.md R241). -/
  err : BitVec 8
  /-- The "info recorded" of 60_exceptions.md R241. -/
  errInfo : Option Nat
  /-- RES_* and STAT_* (10_state.md R22, R23). -/
  res : Results
  /-- The bit writer (10_state.md R25). -/
  bw : Writer
  /-- The bit reader (10_state.md R27). -/
  br : Reader
  /-- The frequency table (10_state.md R29). -/
  ft : FreqTable
  /-- The tree and the priority queue (10_state.md R31, R34). -/
  tb : TreeUnit
  /-- The code table (10_state.md R35). -/
  ct : CodeTable
  /-- The orchestrator (10_state.md R37). -/
  orch : Orch
  deriving DecidableEq, Repr

/-- Why the machine stops with a fault. -/
inductive Fault where
  /-- Raised by the fetch of a command whose ARG_IN is longer than the 2^64−1 bytes the port can carry (10_state.md R22). No host can
  issue such a command. Safe: the model stops where the hardware has no such input (log 2). -/
  | operandTooLong
  deriving DecidableEq, Repr

/-- Why a command has no meaning in the model. -/
inductive Refusal where
  /-- The instruction has no meaning yet; raised only by `exec`'s own arms. Safe. -/
  | notModelled (mnemonic : String)
  /-- Raised by every command but RESET, OR_COMPRESS and OR_DECOMPRESS while STATUS = FAILED: "every CMD value, in the opcode map or
  not, is refused" (60_exceptions.md R248, U4). Safe: the spec gives it no effect. -/
  | failedStatus
  /-- Raised by FT_BUILD and OR_COMPRESS on more than MAX_INPUT_LEN bytes: "refused" (41_freqtable.md R151, U5). Safe. -/
  | inputTooLong
  /-- Raised by OR_DECOMPRESS when the output would be longer than OUT_LIMIT: "refused" (44_orchestrator.md R223, U7). Safe. -/
  | outputTooLong
  deriving DecidableEq, Repr

/-- The result elements at reset (70_reset_and_hazards.md R271). -/
def Results.zero : Results :=
  { out := [], bit := .bit false, consumed := 0, present := false, num := .ratio 0 1, statSymbolCount := 0, statSingle := false }

/-- The writer at reset (70_reset_and_hazards.md R271). -/
def Writer.empty : Writer := { wbuf := [], wacc := 0, wcnt := 0 }

/-- The reader at reset: a reader over the empty sequence (10_state.md R27, 70_reset_and_hazards.md R271). -/
def Reader.empty : Reader := { rdata := [], rpos := 0, rcur := 0, rcnt := 0 }

/-- The tree unit at reset: absent (70_reset_and_hazards.md R271). -/
def TreeUnit.empty : TreeUnit := { nodes := [], present := false, root := 0, merges := 0, pq := [] }

/-- The orchestrator at reset (70_reset_and_hazards.md R271). -/
def Orch.idle : Orch :=
  { phase := .idle, icur := 0, bcur := 0, ecur := 0, walk := 0, expected := 0, emitted := 0, dout := [] }

/-- The machine right after reset (70_reset_and_hazards.md R271), with no command pending. ARG_LEN, ARG_IN, the error info, the
parameters and the model's own fields have no reset value in the spec: log 1, 2, 4, 9, 10, 11. -/
def State.reset : State :=
  { params := Config.defaultParams, pending := [], argLen := 0, argIn := [], free := 0,
    status := .idle, err := 0, errInfo := none, res := Results.zero,
    bw := Writer.empty, br := Reader.empty, ft := [], tb := TreeUnit.empty, ct := [], orch := Orch.idle }

end Sys2Proof.Machine
end

