-- ==== Sys2Proof/Machine/Flags.lean ====
section
/-! DEFINITION. The codes the host sees for STATUS, ERR, RES_BIT and PHASE, and the flag-like values of 10_state.md R39. -/

namespace Sys2Proof.Machine

open Sys2Proof

/-- The 2-bit code of STATUS (10_state.md R22). -/
def statusCode (s : Status) : BitVec 2 :=
  match s with
  | .idle => 0
  | .done => 1
  | .failed => 2

/-- The 2-bit code of RES_BIT: 0, 1, or 2 for EOS (10_state.md R22). -/
def resBitCode (b : ResBit) : BitVec 2 :=
  match b with
  | .bit false => 0
  | .bit true => 1
  | .eos => 2

/-- The 5-bit code of PHASE (10_state.md R38). -/
def phaseCode (p : Phase) : BitVec 5 :=
  match p with
  | .idle => 0
  | .c1Check => 1
  | .c2Freq => 2
  | .c3Single => 3
  | .c4Tree => 4
  | .c4Codes => 5
  | .c4Meta => 6
  | .c4Payload => 7
  | .c4Flush => 8
  | .c5Return => 9
  | .d1Check => 16
  | .d2Unpack => 17
  | .d3Single => 18
  | .d4Tree => 19
  | .d4Walk => 20
  | .d5Return => 21
  | .failed => 31

/-- The code of an error in ERR (60_exceptions.md R241). -/
def errCode (e : Err) : BitVec 8 :=
  match e with
  | .emptyInput => 1
  | .headerShort => 2
  | .entryTruncated _ => 3
  | .countFieldOverflow _ => 4
  | .illegalCommand _ => 5

/-- The info recorded with an error (60_exceptions.md R241, last column). -/
def errInfoOf (e : Err) : Option Nat :=
  match e with
  | .emptyInput => none
  | .headerShort => none
  | .entryTruncated i => some i
  | .countFieldOverflow n => some n
  | .illegalCommand w => some w.toNat

/-- The single-symbol flag of the statistics record, `|T| = 1` (44_orchestrator.md R215). -/
def singleFlag (keys : Nat) : Bool := keys == 1

end Sys2Proof.Machine
end

