-- ==== Sys2Proof/Machine/Ops.lean ====
section
/-! DEFINITION. The operations every unit shares: byte sequences, big-endian fields, symbol tables, the fresh instance, and how a
command ends: with a result, in an error, or refused. -/

namespace Sys2Proof.Machine

open Sys2Proof

/-- What a meaning answers. -/
abbrev Answer := Host.Outcome State Fault Refusal

/-- `MemRead(S, a, n)`: the n bytes of S from index a (00_scope.md R9); callers keep a + n within S. -/
def memRead (S : List Byte) (a n : Nat) : List Byte := (S.drop a).take n

/-- `MemAppend(S, B)`, "the only form of memory write in this hardware" (00_scope.md R9). -/
def memAppend (S B : List Byte) : List Byte := S ++ B

/-- `be(B)`: the big-endian value of a byte sequence (20_memory.md R62). -/
def beValue (B : List Byte) : Nat := B.foldl (fun v b => v * 256 + b.toNat) 0

/-- `bytes_be(v)`: the k bytes of v, most significant first (20_memory.md R62); for v < 256^k the inverse of `beValue`. -/
def beBytes (k v : Nat) : List Byte :=
  match k with
  | 0 => []
  | k + 1 => BitVec.ofNat 8 (v / 256 ^ k) :: beBytes k v

/-- The value a table holds for a symbol, if the symbol is a key. -/
def symFind {α : Type} (t : SymTable α) (s : Byte) : Option α :=
  match t with
  | [] => none
  | (k, v) :: rest => if s = k then some v else symFind rest s

/-- Give a symbol a value: a new key goes to its place in ascending order, a key already there has its value replaced. -/
def symPut {α : Type} (t : SymTable α) (s : Byte) (v : α) : SymTable α :=
  match t with
  | [] => [(s, v)]
  | (k, x) :: rest =>
    if s.toNat < k.toNat then (s, v) :: (k, x) :: rest
    else if s = k then (s, v) :: rest
    else (k, x) :: symPut rest s v

/-- The canonical form of a table: its symbols strictly ascending, so each key once. -/
abbrev symWf {α : Type} (t : SymTable α) : Prop := (t.map fun e => e.1.toNat).Pairwise (· < ·)

/-- "For every state element E: E <- its reset value" (70_reset_and_hazards.md R270). The host's side of the port, the parameters and
the free-value counter are no state of the instance (10_state.md R40) and stay. -/
def freshInstance (s : State) : State :=
  { State.reset with
      params := s.params, pending := s.pending, argLen := s.argLen, argIn := s.argIn, free := s.free }

/-- The command ends `Ok` (10_state.md R22, STATUS = DONE and ERR = 0): `present` puts in its results, and the result elements it does
not present hold any value (93_implementation_defined.md U15; log 7). -/
def finish (s : State) (present : Results → Results) : State :=
  { s with
      status := .done, err := 0, errInfo := none,
      res := present (Config.freeResults s.free), free := s.free + 1 }

/-- TAKING AN ERROR (60_exceptions.md R248): STATUS <- FAILED, ERR <- the code, PHASE <- P_FAILED when an orchestrator command was
running, and every other element of the instance unspecified (log 4). -/
def raiseError (e : Err) (orchestrator : Bool) (s : State) : State :=
  let u := Config.freeUnits s.free
  { s with
      status := .failed, err := errCode e, errInfo := errInfoOf e, free := s.free + 1,
      res := u.res, bw := u.bw, br := u.br, ft := u.ft, tb := u.tb, ct := u.ct,
      orch := if orchestrator then { u.orch with phase := .failed } else u.orch }

/-- The error of a CMD outside the opcode map: "STATUS <- FAILED, ERR <- 5, and no other state element changes"
(60_exceptions.md R246). -/
def raiseIllegal (cmd : Byte) (s : State) : State :=
  { s with
      status := .failed, err := errCode (.illegalCommand cmd), errInfo := errInfoOf (.illegalCommand cmd) }

/-- A primitive command: refused while STATUS = FAILED (60_exceptions.md R248), else as it goes on. -/
def primitive (s : State) (goOn : Answer) : Answer :=
  if s.status = .failed then .refused .failedStatus else goOn

end Sys2Proof.Machine
end

