-- ==== Sys2Proof/Machine/Operands.lean ====
section
/-! DEFINITION. The operands of 30_encoding.md R102 that do not travel in the command word, and the fields of the blob. All unsigned,
none sign-extended, none scaled. -/

namespace Sys2Proof.Machine

open Sys2Proof

/-- A byte-sequence operand is ARG_IN (30_encoding.md R102). -/
def bytesOperand (s : State) : List Byte := s.argIn

/-- The operand n of BR_RBYTES is ARG_LEN (30_encoding.md R102). -/
def countOperand (s : State) : Nat := s.argLen.toNat

/-- Field N of the blob, two bytes (30_encoding.md R91). -/
def countField (H : List Byte) : Nat := beValue H

/-- The frequency of a metadata entry, eight bytes (30_encoding.md R92). -/
def freqField (F : List Byte) : Nat := beValue F

/-- The bytes of field N (30_encoding.md R91, 20_memory.md R62). -/
def countBytes (n : Nat) : List Byte := beBytes 2 n

/-- One metadata entry: the symbol, then the count in eight bytes (30_encoding.md R92). -/
def entryBytes (s : Byte) (c : Nat) : List Byte := s :: beBytes 8 c

end Sys2Proof.Machine
end

