-- ==== Sys2Proof/Machine/Control.lean ====
section
/-! DEFINITION. The control command RESET (70_reset_and_hazards.md R270). -/

namespace Sys2Proof.Machine

open Sys2Proof

/-- RESET: every state element takes its reset value; "accepted in every status, FAILED included" (70_reset_and_hazards.md R270). -/
def execReset (s : State) : Answer := .next (freshInstance s)

end Sys2Proof.Machine
end

