-- ==== Sys2Proof/Machine/BitStream.lean ====
section
/-! DEFINITION. Bit Stream I/O: the writer BW and the reader BR (40_bitstream.md). No operation of the family can fail (R120). -/

namespace Sys2Proof.Machine

open Sys2Proof

/-- Write one bit: shift it into WACC, and on the eighth append the byte and start again (40_bitstream.md R121). -/
def writeBit (b : Bool) (w : Writer) : Writer :=
  let acc : Byte := BitVec.ofNat 8 (2 * w.wacc.toNat + b.toNat)
  if w.wcnt = 7 then
    { wbuf := memAppend w.wbuf [acc], wacc := 0, wcnt := 0 }
  else
    { w with wacc := acc, wcnt := w.wcnt + 1 }

/-- Write a bit sequence, first bit first (30_encoding.md R111, BW_WBITS). -/
def writeBits (bits : Bits) (w : Writer) : Writer := bits.foldl (fun w b => writeBit b w) w

/-- Append raw bytes, "bypassing bit accumulation": WACC and WCNT are neither read nor changed (40_bitstream.md R123). -/
def writeBytes (raw : List Byte) (w : Writer) : Writer := { w with wbuf := memAppend w.wbuf raw }

/-- Pad the pending bits with zeros on the low end and append them; nothing when none are pending (40_bitstream.md R124). -/
def flushWriter (w : Writer) : Writer :=
  if 0 < w.wcnt then
    { wbuf := memAppend w.wbuf [BitVec.ofNat 8 (w.wacc.toNat * 2 ^ (8 - w.wcnt))], wacc := 0, wcnt := 0 }
  else w

/-- A reader over a byte sequence; the old one is discarded whole (40_bitstream.md R127). -/
def loadReader (data : List Byte) : Reader := { rdata := data, rpos := 0, rcur := 0, rcnt := 0 }

/-- Serve the next unserved bit of RCUR: "RCNT <- RCNT − 1, return RCUR[RCNT]" (40_bitstream.md R126). -/
def serveBit (r : Reader) : ResBit × Reader :=
  (.bit (r.rcur.getLsbD (r.rcnt - 1)), { r with rcnt := r.rcnt - 1 })

/-- Read one bit, or EOS with no state change when no bit and no byte remain (40_bitstream.md R126). RPOS advances when the byte is
loaded. -/
def readBit (r : Reader) : ResBit × Reader :=
  if r.rcnt = 0 then
    match r.rdata[r.rpos]? with
    | none => (.eos, r)
    | some c => serveBit { r with rcur := c, rpos := r.rpos + 1, rcnt := 8 }
  else serveBit r

/-- Read n bytes, or as many as remain; RCUR and RCNT are neither read nor changed (40_bitstream.md R128). -/
def readBytes (n : Nat) (r : Reader) : List Byte × Reader :=
  let k := min n (r.rdata.length - r.rpos)
  (memRead r.rdata r.rpos k, { r with rpos := r.rpos + k })

/-- BW_WBIT b (40_bitstream.md R121). -/
def execBwWbit (b : Bool) (s : State) : Answer :=
  primitive s (.next (finish { s with bw := writeBit b s.bw } id))

/-- BW_WBYTES (40_bitstream.md R123). -/
def execBwWbytes (s : State) : Answer :=
  primitive s (.next (finish { s with bw := writeBytes (bytesOperand s) s.bw } id))

/-- BW_FLUSH (40_bitstream.md R124). -/
def execBwFlush (s : State) : Answer :=
  primitive s (.next (finish { s with bw := flushWriter s.bw } id))

/-- BW_GET: presents WBUF at RES_OUT and changes no unit (40_bitstream.md R125). -/
def execBwGet (s : State) : Answer :=
  primitive s (.next (finish s fun r => { r with out := s.bw.wbuf }))

/-- BR_LOAD (40_bitstream.md R127). -/
def execBrLoad (s : State) : Answer :=
  primitive s (.next (finish { s with br := loadReader (bytesOperand s) } id))

/-- BR_RBIT: presents the bit or EOS at RES_BIT (40_bitstream.md R126). -/
def execBrRbit (s : State) : Answer :=
  primitive s (.next (finish { s with br := (readBit s.br).2 } fun r => { r with bit := (readBit s.br).1 }))

/-- BR_RBYTES n: presents the bytes at RES_OUT (40_bitstream.md R128). -/
def execBrRbytes (s : State) : Answer :=
  primitive s (.next (finish { s with br := (readBytes (countOperand s) s.br).2 }
    fun r => { r with out := (readBytes (countOperand s) s.br).1 }))

end Sys2Proof.Machine
end

