-- ==== Sys2Proof/Machine/FreqTable.lean ====
section
/-! DEFINITION. The Frequency Table Codec FT (41_freqtable.md). -/

namespace Sys2Proof.Machine

open Sys2Proof

/-- FT_PRESENT[s] (10_state.md R29). -/
def ftPresent (T : FreqTable) (s : Byte) : Bool := (symFind T s).isSome

/-- FT_COUNT[s], 0 when s is no key (10_state.md R29). -/
def ftCount (T : FreqTable) (s : Byte) : Nat := (symFind T s).getD 0

/-- `|T|`, the number of keys (10_state.md R30). -/
def distinct (T : FreqTable) : Nat := T.length

/-- `total(T)`, the sum of the counts, exact (10_state.md R30, D8). -/
def total (T : FreqTable) : Nat := (T.map Prod.snd).sum

/-- One turn of FT_BUILD's loop: the symbol becomes present and its count grows by one (41_freqtable.md R151). -/
def countSymbol (T : FreqTable) (s : Byte) : FreqTable := symPut T s (ftCount T s + 1)

/-- The table of the symbols of an input; "a new table replaces the old" (41_freqtable.md R151). -/
def buildTable (data : List Byte) : FreqTable := data.foldl countSymbol []

/-- The metadata of a table: the key count, then each key's entry in ascending symbol order (41_freqtable.md R153). A count above
65535 raises CountFieldOverflow and truncates nothing (R154). -/
def packTable (T : FreqTable) : Except Err (List Byte) :=
  if Config.maxCountField < distinct T then .error (.countFieldOverflow (distinct T))
  else .ok (countBytes (distinct T) ++ T.flatMap fun e => entryBytes e.1 e.2)

/-- The entries still to read, from entry index `i` on (41_freqtable.md R155): a short symbol or frequency read raises EntryTruncated
with the index, and a repeated symbol overwrites (D5). -/
def unpackEntries (n i : Nat) (r : Reader) (T : FreqTable) : Except Err (FreqTable × Reader) :=
  match n with
  | 0 => .ok (T, r)
  | n + 1 =>
    match readBytes 1 r with
    | ([], _) => .error (.entryTruncated i)
    | (s :: _, r1) =>
      match readBytes 8 r1 with
      | (F, r2) =>
        if F.length < 8 then .error (.entryTruncated i)
        else unpackEntries n (i + 1) r2 (symPut T s (freqField F))

/-- The table read from the reader's position, the number of bytes consumed, and the reader after it (41_freqtable.md R155). -/
def unpackTable (r : Reader) : Except Err (FreqTable × Nat × Reader) :=
  match readBytes 2 r with
  | (H, r1) =>
    if H.length < 2 then .error .headerShort
    else
      match unpackEntries (countField H) 0 r1 [] with
      | .ok (T, r2) => .ok (T, 2 + 9 * countField H, r2)
      | .error e => .error e

/-- ICUR after a loop over ARG_IN that used it: it survives no operation (10_state.md R37; log 8). -/
def spendIcur (s : State) : State :=
  { s with orch := { s.orch with icur := (Config.freeCursors s.free).icur } }

/-- ECUR after FT_UNPACK's loop (10_state.md R37; log 8). -/
def spendEcur (s : State) : State :=
  { s with orch := { s.orch with ecur := (Config.freeCursors s.free).ecur } }

/-- FT_BUILD (41_freqtable.md R151). Data longer than MAX_INPUT_LEN is refused (U5). -/
def execFtBuild (s : State) : Answer :=
  primitive s
    (if s.params.maxInputLen < (bytesOperand s).length then .refused .inputTooLong
     else .next (finish (spendIcur { s with ft := buildTable (bytesOperand s) }) id))

/-- FT_PACK: presents the metadata at RES_OUT (41_freqtable.md R153). -/
def execFtPack (s : State) : Answer :=
  primitive s
    (match packTable s.ft with
     | .ok M => .next (finish s fun r => { r with out := M })
     | .error e => .next (raiseError e false s))

/-- FT_UNPACK: presents the bytes consumed at RES_CONSUMED (41_freqtable.md R155). -/
def execFtUnpack (s : State) : Answer :=
  primitive s
    (match unpackTable s.br with
     | .ok (T, n, r) =>
       .next (finish (spendEcur { s with ft := T, br := r }) fun res => { res with consumed := BitVec.ofNat 20 n })
     | .error e => .next (raiseError e false s))

end Sys2Proof.Machine
end

