-- ==== Sys2Proof/Machine/TreeBuilder.lean ====
section
/-! DEFINITION. The Huffman Tree Builder TB (42_treebuilder.md). -/

namespace Sys2Proof.Machine

open Sys2Proof

/-- An arena entry with every field 0 (10_state.md R31). -/
def zeroNode : Node := { leaf := false, sym := 0, weight := 0, left := 0, right := 0, oid := 0 }

/-- NODE[i]: an entry not in use reads as all zeros (10_state.md R31; log 15). -/
def nodeAt (nodes : List Node) (i : Nat) : Node := nodes.getD i zeroNode

/-- NCOUNT, the number of entries in use (10_state.md R31). -/
def ncount (t : TreeUnit) : Nat := t.nodes.length

/-- A TIE_ORDER: whether the first node is popped before the second (42_treebuilder.md R176, R177). -/
abbrev TieOrder := Node → Node → Bool

/-- The default TIE_ORDER: lower weight first, at equal weight lower oid first (42_treebuilder.md R175). -/
def defaultOrder : TieOrder := fun x y =>
  decide (x.weight < y.weight) || (decide (x.weight = y.weight) && decide (x.oid < y.oid))

/-- An order that breaks ties of weight by rank, and then by oid: lower weight first, lower rank next (42_treebuilder.md R177). -/
def rankedOrder (ranks : List Nat) : TieOrder := fun x y =>
  let rx := ranks.getD x.oid 0
  let ry := ranks.getD y.oid 0
  decide (x.weight < y.weight) ||
    (decide (x.weight = y.weight) && (decide (rx < ry) || (decide (rx = ry) && decide (x.oid < y.oid))))

/-- The TIE_ORDER of a machine on the build of a table: the ranks given for the table, or the default (42_treebuilder.md R175, R177). -/
def tieOrderFor (c : Config.TieRanks) (T : FreqTable) : TieOrder :=
  match c.find? (fun e => e.1 == T) with
  | some e => rankedOrder e.2
  | none => defaultOrder

/-- `PopLeast(PQ)`: the least index of the queue under the order, and the queue without it; none from the empty queue
(42_treebuilder.md R176). -/
def popLeast (lt : TieOrder) (nodes : List Node) (pq : List Nat) : Option (Nat × List Nat) :=
  match pq with
  | [] => none
  | i :: rest =>
    match popLeast lt nodes rest with
    | none => some (i, [])
    | some (j, rest') =>
      if lt (nodeAt nodes j) (nodeAt nodes i) then some (j, i :: rest') else some (i, rest)

/-- A leaf of the table: "one leaf per distinct symbol", its weight the count, its oid the symbol (42_treebuilder.md R171, R172). -/
def leafNode (e : Byte × Nat) : Node :=
  { leaf := true, sym := e.1, weight := e.2, left := 0, right := 0, oid := e.1.toNat }

/-- The internal node over the first-popped a and the second-popped b, the k-th of this build (42_treebuilder.md R171, R178). -/
def mergeNode (nodes : List Node) (a b k : Nat) : Node :=
  { leaf := false, sym := 0, weight := (nodeAt nodes a).weight + (nodeAt nodes b).weight,
    left := a, right := b, oid := 256 + k }

/-- One merge step: the two popped indices have left the queue, the new node's index enters it (42_treebuilder.md R178). -/
def mergeStep (t : TreeUnit) (a b : Nat) (pq : List Nat) : TreeUnit :=
  { t with
      nodes := t.nodes ++ [mergeNode t.nodes a b t.merges],
      merges := t.merges + 1,
      pq := pq ++ [ncount t] }

/-- "while |PQ| > 1": each step lowers |PQ| by one (42_treebuilder.md R179), so |PQ| turns suffice. -/
def mergeLoop (lt : TieOrder) (turns : Nat) (t : TreeUnit) : TreeUnit :=
  match turns with
  | 0 => t
  | turns + 1 =>
    match popLeast lt t.nodes t.pq with
    | none => t
    | some (a, pq1) =>
      match popLeast lt t.nodes pq1 with
      | none => t
      | some (b, pq2) => mergeLoop lt turns (mergeStep t a b pq2)

/-- The leaves, in ascending symbol order from index 0, all of them queued (42_treebuilder.md R171, R172). -/
def plantLeaves (T : FreqTable) : TreeUnit :=
  { nodes := T.map leafNode, present := false, root := 0, merges := 0, pq := List.range T.length }

/-- The tree of a table, or absent when it has no key (42_treebuilder.md R171, R173). -/
def buildTree (lt : TieOrder) (T : FreqTable) : TreeUnit :=
  if distinct T = 0 then TreeUnit.empty
  else
    let t := mergeLoop lt (distinct T) (plantLeaves T)
    { t with root := t.pq.headD 0, pq := [], present := true }

/-- The tree a machine builds from a table, under its own TIE_ORDER: the same function in TB_BUILD, OR_COMPRESS and OR_DECOMPRESS
(42_treebuilder.md R177 (d), R180). -/
def treeOf (p : Config.Params) (T : FreqTable) : TreeUnit := buildTree (tieOrderFor p.tieRanks T) T

/-- TB_BUILD (42_treebuilder.md R171): presents whether there is a tree at RES_PRESENT. -/
def execTbBuild (s : State) : Answer :=
  let t := treeOf s.params s.ft
  primitive s (.next (finish { s with tb := t } fun r => { r with present := t.present }))

end Sys2Proof.Machine
end

