-- ==== Sys2Proof/Machine/CodeTable.lean ====
section
/-! DEFINITION. Code Table Derivation CT and the Statistics ST (43_codetable_stats.md). -/

namespace Sys2Proof.Machine

open Sys2Proof

/-- CT_BITS[s], the empty sequence when s has no code (10_state.md R35). -/
def ctBits (C : CodeTable) (s : Byte) : Bits := (symFind C s).getD []

/-- CT_LEN[s]: the length of the code, 0 when s has none (10_state.md R35). -/
def ctLen (C : CodeTable) (s : Byte) : Nat := (ctBits C s).length

/-- `Visit(i, p)`: the leaves under node i, each with its path, left before right (43_codetable_stats.md R191). `depth` bounds the
length of a path below i. -/
def visit (nodes : List Node) (depth i : Nat) (p : Bits) : List (Byte × Bits) :=
  match depth with
  | 0 => []
  | depth + 1 =>
    let n := nodeAt nodes i
    if n.leaf then [(n.sym, p)]
    else visit nodes depth n.left (p ++ [false]) ++ visit nodes depth n.right (p ++ [true])

/-- Record each visited leaf's path as its symbol's code (43_codetable_stats.md R191). -/
def recordCodes (leaves : List (Byte × Bits)) : CodeTable := leaves.foldl (fun C e => symPut C e.1 e.2) []

/-- The codes of a tree: none when absent, the one bit 0 for a single leaf, else the root-to-leaf paths (43_codetable_stats.md R191).
No path is longer than MAX_CODE_LEN (00_scope.md R6, 42_treebuilder.md R185; log 19). -/
def deriveCodes (t : TreeUnit) : CodeTable :=
  if t.present then
    if (nodeAt t.nodes t.root).leaf then recordCodes [((nodeAt t.nodes t.root).sym, [false])]
    else recordCodes (visit t.nodes (Config.maxCodeLen + 1) t.root [])
  else []

/-- CT_DERIVE (43_codetable_stats.md R191). -/
def execCtDerive (s : State) : Answer :=
  primitive s (.next (finish { s with ct := deriveCodes s.tb } id))

/-- The zero of a statistic (43_codetable_stats.md R195). -/
def zeroNum : ExactNum := .ratio 0 1

/-- The positive counts of a table: "terms with count 0 are skipped" (43_codetable_stats.md R195, D18). -/
def positiveCounts (T : FreqTable) : List Nat := (T.map Prod.snd).filter fun c => decide (0 < c)

/-- The Shannon entropy of a table, zero when the total is 0 (43_codetable_stats.md R195). -/
def tableEntropy (T : FreqTable) : ExactNum :=
  if total T = 0 then zeroNum else .entropy (positiveCounts T)

/-- `S`: the sum of FT_COUNT[s] · CT_LEN[s] over the keys that have a code; a key without one has CT_LEN[s] = 0 and adds nothing
(43_codetable_stats.md R197). -/
def codedBits (T : FreqTable) (C : CodeTable) : Nat := (T.map fun e => e.2 * ctLen C e.1).sum

/-- The average code length S / total, zero when the total is 0 (43_codetable_stats.md R197). -/
def averageLength (T : FreqTable) (C : CodeTable) : ExactNum :=
  if total T = 0 then zeroNum else .ratio (codedBits T C) (total T)

/-- The efficiency 100 · H / L, zero when L = 0 (43_codetable_stats.md R199). -/
def efficiencyOf (T : FreqTable) (C : CodeTable) : ExactNum :=
  if total T = 0 then zeroNum
  else if codedBits T C = 0 then zeroNum
  else .efficiency (positiveCounts T) (codedBits T C) (total T)

/-- ST_ENTROPY (43_codetable_stats.md R195): presents the entropy at RES_NUM. -/
def execStEntropy (s : State) : Answer :=
  primitive s (.next (finish s fun r => { r with num := tableEntropy s.ft }))

/-- ST_AVGLEN (43_codetable_stats.md R197): presents the average code length at RES_NUM. -/
def execStAvglen (s : State) : Answer :=
  primitive s (.next (finish s fun r => { r with num := averageLength s.ft s.ct }))

/-- ST_EFF (43_codetable_stats.md R199): presents the efficiency percentage at RES_NUM. -/
def execStEff (s : State) : Answer :=
  primitive s (.next (finish s fun r => { r with num := efficiencyOf s.ft s.ct }))

end Sys2Proof.Machine
end

