-- ==== Sys2Proof/Machine/Orchestrator.lean ====
section
/-! DEFINITION. The Compressor and Decompressor OR (44_orchestrator.md): two pipelines sequenced by PHASE (10_state.md R37, R38). A
command runs its phases to the end inside one step, "atomic as seen by the host" (00_scope.md R10). -/

namespace Sys2Proof.Machine

open Sys2Proof

/-- How one phase ends. -/
inductive PhaseEnd where
  /-- It goes on to the phase now in PHASE. -/
  | go (s : State)
  /-- It raises an error. -/
  | raise (e : Err) (s : State)
  /-- The command has no meaning from here (93_implementation_defined.md U7). -/
  | refuse (r : Refusal)

/-- `PHASE <- p` (00_scope.md R9). -/
def enterPhase (p : Phase) (s : State) : State := { s with orch := { s.orch with phase := p } }

/-- C1_CHECK, step 1: EmptyInput on zero-length data (44_orchestrator.md R211). -/
def compressCheck (s : State) : PhaseEnd :=
  if (bytesOperand s).length = 0 then .raise .emptyInput s else .go (enterPhase .c2Freq s)

/-- C2_FREQ, step 2: the frequency table, and the choice on `|T| = 1` (44_orchestrator.md R211, R212). -/
def compressFreq (s : State) : PhaseEnd :=
  let T := buildTable (bytesOperand s)
  .go (enterPhase (if distinct T = 1 then .c3Single else .c4Tree) (spendIcur { s with ft := T }))

/-- The metadata written to the bit writer, as C3_SINGLE and C4_META do (44_orchestrator.md R211). -/
def writeMetadata (s : State) (goOn : State → PhaseEnd) : PhaseEnd :=
  match packTable s.ft with
  | .ok M => goOn { s with bw := writeBytes M s.bw }
  | .error e => .raise e s

/-- The statistics record of step 3 or 4 (44_orchestrator.md R211, R215). -/
def recordStats (s : State) : State :=
  { s with res := { s.res with
      statSymbolCount := BitVec.ofNat 9 (distinct s.ft), statSingle := singleFlag (distinct s.ft) } }

/-- C3_SINGLE, step 3: only the packed metadata, flushed; no tree, no codes (44_orchestrator.md R213). -/
def compressSingle (s : State) : PhaseEnd :=
  writeMetadata s fun t => .go (enterPhase .c5Return (recordStats { t with bw := flushWriter t.bw }))

/-- C4_TREE, step 4: build the tree (44_orchestrator.md R214). -/
def compressTree (s : State) : PhaseEnd :=
  .go (enterPhase .c4Codes { s with tb := treeOf s.params s.ft })

/-- C4_CODES, step 4: derive the codes (44_orchestrator.md R214). -/
def compressCodes (s : State) : PhaseEnd :=
  .go (enterPhase .c4Meta { s with ct := deriveCodes s.tb })

/-- C4_META, step 4: write the packed metadata (44_orchestrator.md R214). -/
def compressMeta (s : State) : PhaseEnd :=
  writeMetadata s fun t => .go (enterPhase .c4Payload t)

/-- The payload loop: every input byte's code, "in original input order", first bit of the code first (44_orchestrator.md R211). -/
def writePayload (C : CodeTable) (data : List Byte) (w : Writer) : Writer :=
  data.foldl (fun w b => writeBits (ctBits C b) w) w

/-- C4_PAYLOAD, step 4 (44_orchestrator.md R211). Its loops use ICUR and BCUR, which survive no operation (10_state.md R37; log 8). -/
def compressPayload (s : State) : PhaseEnd :=
  let c := Config.freeCursors s.free
  .go (enterPhase .c4Flush
    { s with
        bw := writePayload s.ct (bytesOperand s) s.bw,
        orch := { s.orch with icur := c.icur, bcur := c.bcur } })

/-- C4_FLUSH, step 4: pad the last byte, record the statistics (44_orchestrator.md R211). -/
def compressFlush (s : State) : PhaseEnd :=
  .go (enterPhase .c5Return (recordStats { s with bw := flushWriter s.bw }))

/-- C5_RETURN, step 5: the blob is what BW_GET gives (44_orchestrator.md R211). -/
def compressReturn (s : State) : PhaseEnd :=
  .go (enterPhase .idle { s with res := { s.res with out := s.bw.wbuf } })

/-- D1_CHECK, step 1: EmptyInput on a zero-length blob (44_orchestrator.md R221). -/
def decompressCheck (s : State) : PhaseEnd :=
  if (bytesOperand s).length = 0 then .raise .emptyInput s else .go (enterPhase .d2Unpack s)

/-- D2_UNPACK, step 2: load the reader and unpack the table, its errors propagated; the choice on `|T| = 1`
(44_orchestrator.md R221, R222, D6). -/
def decompressUnpack (s : State) : PhaseEnd :=
  match unpackTable (loadReader (bytesOperand s)) with
  | .ok (T, _, r) =>
    .go (enterPhase (if distinct T = 1 then .d3Single else .d4Tree) (spendEcur { s with br := r, ft := T }))
  | .error e => .raise e s

/-- Whether an output of a length is longer than OUT_LIMIT (00_scope.md R6, U7). -/
def overLimit (limit : Option Nat) (len : Nat) : Bool :=
  match limit with
  | none => false
  | some m => decide (m < len)

/-- D3_SINGLE, step 3: "return count repetitions of symbol directly; no tree rebuild, no bit reading" (44_orchestrator.md R223). A
count above OUT_LIMIT is refused (U7). -/
def decompressSingle (s : State) : PhaseEnd :=
  match s.ft with
  | [] => .go (enterPhase .d5Return s)
  | (sym, count) :: _ =>
    if overLimit s.params.outLimit count then .refuse .outputTooLong
    else .go (enterPhase .d5Return { s with orch := { s.orch with dout := List.replicate count sym } })

/-- D4_TREE, step 4: rebuild the tree, compute expected_size (44_orchestrator.md R221, R225). -/
def decompressTree (s : State) : PhaseEnd :=
  .go (enterPhase .d4Walk
    { s with
        tb := treeOf s.params s.ft,
        orch := { s.orch with expected := total s.ft, emitted := 0 } })

/-- The tree walk of 44_orchestrator.md R226: test the emitted count, read a bit, exit on EOS, step left on 0 and right on 1, and at
a leaf emit its symbol and return to the root. Every turn exits or consumes a bit (R227), so `turns` above the bits left suffices. -/
def walkLoop (turns : Nat) (t : TreeUnit) (r : Reader) (o : Orch) : Reader × Orch :=
  match turns with
  | 0 => (r, o)
  | turns + 1 =>
    if o.emitted < o.expected then
      match readBit r with
      | (.eos, r') => (r', o)
      | (.bit b, r') =>
        let i := if b then (nodeAt t.nodes o.walk).right else (nodeAt t.nodes o.walk).left
        let n := nodeAt t.nodes i
        if n.leaf then
          walkLoop turns t r'
            { o with dout := memAppend o.dout [n.sym], emitted := o.emitted + 1, walk := t.root }
        else walkLoop turns t r' { o with walk := i }
    else (r, o)

/-- The bits a reader can still serve: those of RCUR and those of the bytes from RPOS on (44_orchestrator.md R227). -/
def bitsLeft (r : Reader) : Nat := r.rcnt + 8 * (r.rdata.length - r.rpos)

/-- D4_WALK, step 4 (44_orchestrator.md R221, R226). An output above OUT_LIMIT is refused (U7). -/
def decompressWalk (s : State) : PhaseEnd :=
  match walkLoop (bitsLeft s.br + 1) s.tb s.br { s.orch with walk := s.tb.root } with
  | (r, o) =>
    if overLimit s.params.outLimit o.dout.length then .refuse .outputTooLong
    else .go (enterPhase .d5Return { s with br := r, orch := o })

/-- D5_RETURN, step 5 (44_orchestrator.md R221). -/
def decompressReturn (s : State) : PhaseEnd :=
  .go (enterPhase .idle { s with res := { s.res with out := s.orch.dout } })

/-- Run the phase in PHASE (44_orchestrator.md R212, R222). P_IDLE and P_FAILED run nothing (10_state.md R38). -/
def phaseStep (s : State) : PhaseEnd :=
  match s.orch.phase with
  | .idle => .go s
  | .c1Check => compressCheck s
  | .c2Freq => compressFreq s
  | .c3Single => compressSingle s
  | .c4Tree => compressTree s
  | .c4Codes => compressCodes s
  | .c4Meta => compressMeta s
  | .c4Payload => compressPayload s
  | .c4Flush => compressFlush s
  | .c5Return => compressReturn s
  | .d1Check => decompressCheck s
  | .d2Unpack => decompressUnpack s
  | .d3Single => decompressSingle s
  | .d4Tree => decompressTree s
  | .d4Walk => decompressWalk s
  | .d5Return => decompressReturn s
  | .failed => .go s

/-- Run phases one after another. No pipeline has more than eight (44_orchestrator.md R212, R222), and P_IDLE runs nothing. -/
def runPhases (turns : Nat) (s : State) : PhaseEnd :=
  match turns with
  | 0 => .go s
  | turns + 1 =>
    match phaseStep s with
    | .go t => runPhases turns t
    | .raise e t => .raise e t
    | .refuse r => .refuse r

/-- The longest phase sequence, C1_CHECK to C5_RETURN on the multi-symbol path (44_orchestrator.md R212). -/
def phaseTurns : Nat := 8

/-- An orchestrator command: the fresh instance first, "whatever the state and STATUS were before" (44_orchestrator.md R210), then its
pipeline from the given phase; `present` takes the results the pipeline left. -/
def orchestrate (start : Phase) (present : Results → Results → Results) (s : State) : Answer :=
  match runPhases phaseTurns (enterPhase start (freshInstance s)) with
  | .go t => .next (finish t (present t.res))
  | .raise e t => .next (raiseError e true t)
  | .refuse r => .refused r

/-- OR_COMPRESS: presents the blob at RES_OUT and the statistics record at STAT_* (44_orchestrator.md R211). Data longer than
MAX_INPUT_LEN is refused (U5). -/
def execOrCompress (s : State) : Answer :=
  if s.params.maxInputLen < (bytesOperand s).length then .refused .inputTooLong
  else
    orchestrate .c1Check
      (fun got r => { r with out := got.out, statSymbolCount := got.statSymbolCount, statSingle := got.statSingle }) s

/-- OR_DECOMPRESS: presents the output at RES_OUT (44_orchestrator.md R221). -/
def execOrDecompress (s : State) : Answer :=
  orchestrate .d1Check (fun got r => { r with out := got.out }) s

end Sys2Proof.Machine
end

