-- ==== Sys2Proof/Machine/Dispatch.lean ====
section
/-! DEFINITION. One arm per operation of the opcode map. -/

namespace Sys2Proof.Machine

open Sys2Proof

def exec (i : Instr) (s : State) : Host.Outcome State Fault Refusal :=
  match i with
  | .reset => Sys2Proof.Machine.execReset s
  | .bwWbit b => Sys2Proof.Machine.execBwWbit b s
  | .bwWbytes => Sys2Proof.Machine.execBwWbytes s
  | .bwFlush => Sys2Proof.Machine.execBwFlush s
  | .bwGet => Sys2Proof.Machine.execBwGet s
  | .brLoad => Sys2Proof.Machine.execBrLoad s
  | .brRbit => Sys2Proof.Machine.execBrRbit s
  | .brRbytes => Sys2Proof.Machine.execBrRbytes s
  | .ftBuild => Sys2Proof.Machine.execFtBuild s
  | .ftPack => Sys2Proof.Machine.execFtPack s
  | .ftUnpack => Sys2Proof.Machine.execFtUnpack s
  | .tbBuild => Sys2Proof.Machine.execTbBuild s
  | .ctDerive => Sys2Proof.Machine.execCtDerive s
  | .stEntropy => Sys2Proof.Machine.execStEntropy s
  | .stAvglen => Sys2Proof.Machine.execStAvglen s
  | .stEff => Sys2Proof.Machine.execStEff s
  | .orCompress => Sys2Proof.Machine.execOrCompress s
  | .orDecompress => Sys2Proof.Machine.execOrDecompress s

end Sys2Proof.Machine
end

