-- ==== Sys2Proof/Machine/Fetch.lean ====
section
/-! DEFINITION. Taking a command from the host port (10_state.md R22; 60_exceptions.md R246 to R248). -/

namespace Sys2Proof.Machine

open Sys2Proof

/-- The port presents a command: it leaves the host's list, its operands stand at ARG_LEN and ARG_IN (10_state.md R22; log 1). -/
def latchCommand (c : HostCommand) (rest : List HostCommand) (s : State) : State :=
  { s with pending := rest, argLen := c.argLen, argIn := c.argIn }

/-- A CMD outside the opcode map: refused while FAILED, "in the opcode map or not" (60_exceptions.md R248), else IllegalCommand
(R246). -/
def rejectCommand (cmd : Byte) (s : State) : Answer := primitive s (.next (raiseIllegal cmd s))

/-- Decode the command, the first check of 60_exceptions.md R247, and run it. -/
def runCommand (cmd : Byte) (s : State) : Answer :=
  match decode [cmd] with
  | .ok (i, _) => exec i s
  | .error _ => rejectCommand cmd s

/-- One step: the next command of the host runs to completion; with none the block "waits for a command"
(70_reset_and_hazards.md R272). A command the port cannot carry faults (10_state.md R22; log 2). -/
def stepCommand (s : State) : Answer :=
  match s.pending with
  | [] => .next s
  | c :: rest =>
    if c.wf then runCommand c.cmd (latchCommand c rest s) else .fault .operandTooLong

/-- The host's next command is the word given, with operand words of zeros: ARG_LEN 0 and the empty ARG_IN. -/
def placeCommand (s : State) (w : Nat) : State :=
  { s with pending := { cmd := BitVec.ofNat 8 w, argLen := 0, argIn := [] } :: s.pending }

end Sys2Proof.Machine
end

