-- ==== Sys2Proof/Machine/Step.lean ====
section
/-! DEFINITION. One step of the machine, and where its next command is placed. -/

namespace Sys2Proof.Machine

open Sys2Proof

/-- One step: one command of the host (00_scope.md R10). -/
def step (s : State) : Host.Outcome State Fault Refusal := stepCommand s

/-- `s` with the instruction `w` as the very next command of the host. A command is one 8-bit word (30_encoding.md R104), so
`nbits` above 8 adds nothing. -/
def State.withFetchWord (s : State) (nbits w : Nat) : State := placeCommand s (w % 2 ^ nbits)

end Sys2Proof.Machine
end

