-- ==== Sys2Proof/Machine/Port.lean ====
section
/-! DEFINITION. What the host reads at RES_NUM: NUM of the exact value the state holds, NUM being an argument (00_scope.md R6,
43_codetable_stats.md R196). -/

namespace Sys2Proof.Machine

open Sys2Proof

/-- The Shannon entropy of counts: the sum of −p · log2 p over p = count / total (43_codetable_stats.md R195). -/
noncomputable def entropyReal (counts : List Nat) : ℝ :=
  (counts.map fun c : Nat => -((c : ℝ) / (counts.sum : ℝ)) * Real.logb 2 ((c : ℝ) / (counts.sum : ℝ))).sum

/-- The exact real value v of a statistic (43_codetable_stats.md R196). -/
noncomputable def ExactNum.toReal (v : ExactNum) : ℝ :=
  match v with
  | .ratio p q => (p : ℝ) / (q : ℝ)
  | .entropy counts => entropyReal counts
  | .efficiency counts p q => 100 * entropyReal counts / ((p : ℝ) / (q : ℝ))

/-- NUM(v): "this spec fixes the exact real value v of each result and presents NUM(v)" (43_codetable_stats.md R196). -/
noncomputable def presentNum {F : Type} (N : Config.NumFormat F) (v : ExactNum) : F := N.num v.toReal

/-- The patterns RES_NUM may show under a number format: NUM(v), and where v came out of a computation and is zero, any zero of the
format, "the sign of that zero, if NUM has signed zeros, is not fixed" (43_codetable_stats.md R195 (b), 93_implementation_defined.md U9);
where a rule returns NUM(0), "exactly NUM(0)" (R195 (a)).
After a command that does not present RES_NUM the port may show any value (93_implementation_defined.md U15), also a pattern that is NUM of
nothing; the free value the state then holds is an `ExactNum`, so this shows only NUM of one, or a zero. DESIGN CHOICE, unsafe (log 7,
log 13): speak of RES_NUM only after reset and after a command that presents it. -/
def resNumShows {F : Type} (N : Config.NumFormat F) (s : State) (x : F) : Prop :=
  x = presentNum N s.res.num ∨ (s.res.num ≠ zeroNum ∧ s.res.num.toReal = 0 ∧ N.isZero x)

end Sys2Proof.Machine
end

