-- ==== Sys2Proof/Safety.lean ====
section
/-! DEFINITION. The terms claims are stated in: the ranges of 10_state.md, the invariants of its rules R25 to R37, the tree and code
properties of R32 and R36, what TIE_ORDER must satisfy, and runs of several commands. None of it is used by the machine. -/

namespace Sys2Proof.Machine

open Sys2Proof

/-! ### Registers in their ranges -/

/-- WCNT is 0 to 7 and `WACC < 2^WCNT` (10_state.md R25). -/
abbrev WriterOk (w : Writer) : Prop := w.wcnt ≤ 7 ∧ w.wacc.toNat < 2 ^ w.wcnt

/-- `RPOS <= len(RDATA)`, RDATA no longer than an operand can be, RCNT 0 to 8 (10_state.md R27). -/
abbrev ReaderOk (r : Reader) : Prop :=
  r.rpos ≤ r.rdata.length ∧ r.rdata.length ≤ maxArgIn ∧ r.rcnt ≤ 8

/-- A frequency table: unique keys in the model's canonical order, 64-bit counts (10_state.md R29; log 14). -/
abbrev FreqOk (T : FreqTable) : Prop := symWf T ∧ ∀ e ∈ T, e.2 < 2 ^ 64

/-- EXPECTED and EMITTED fit 72 bits and EMITTED <= EXPECTED (10_state.md R37). -/
abbrev OrchOk (o : Orch) : Prop := o.phase = .idle ∧ o.expected < 2 ^ 72 ∧ o.emitted ≤ o.expected

/-! ### Trees and codes -/

/-- The child indices of the arena's internal nodes, in order. -/
def childIndices (nodes : List Node) : List Nat :=
  nodes.flatMap fun n => if n.leaf then [] else [n.left, n.right]

/-- The leaves of an arena, in index order. -/
def leavesOf (nodes : List Node) : List Node := nodes.filter fun n => n.leaf

/-- An internal node's children stand before it and its weight is the sum of theirs (10_state.md R32). -/
abbrev InternalOk (nodes : List Node) (i : Nat) : Prop :=
  (nodeAt nodes i).leaf = false →
    (nodeAt nodes i).left < i ∧ (nodeAt nodes i).right < i ∧
    (nodeAt nodes i).weight =
      (nodeAt nodes (nodeAt nodes i).left).weight + (nodeAt nodes (nodeAt nodes i).right).weight

/-- The arena is one full binary tree (10_state.md R32): "every index in use other than ROOT is the left or right of exactly one
internal node; ROOT is the child of none". -/
abbrev FullTree (nodes : List Node) (root : Nat) : Prop :=
  root < nodes.length ∧ List.Perm (root :: childIndices nodes) (List.range nodes.length) ∧
    ∀ i < nodes.length, InternalOk nodes i

/-- Arena fields in their widths: weights 72 bits, indices and oids 9 bits, at most 511 entries (10_state.md R31). -/
abbrev ArenaRanges (nodes : List Node) : Prop :=
  nodes.length ≤ 511 ∧ ∀ n ∈ nodes, n.weight < 2 ^ 72 ∧ n.left < 511 ∧ n.right < 511 ∧ n.oid ≤ 510

/-- The tree unit between commands: absent with nothing in it, or a full tree in range; PQ is empty, MERGES counts the internal
nodes (10_state.md R31, R32, R34). -/
abbrev TreeOk (t : TreeUnit) : Prop :=
  t.pq = [] ∧ t.merges ≤ 255 ∧ ArenaRanges t.nodes ∧
    (t.present = false → t = TreeUnit.empty) ∧
    (t.present = true → FullTree t.nodes t.root ∧ t.nodes.length = 2 * t.merges + 1)

/-- No code of the table is a prefix of another key's code (10_state.md R36). -/
abbrev PrefixFree (C : CodeTable) : Prop :=
  ∀ e ∈ C, ∀ f ∈ C, e.1 ≠ f.1 → ¬ e.2 <+: f.2

/-- A code table: unique keys in the model's canonical order, every code 1 to 255 bits, a prefix code (10_state.md R35, R36). -/
abbrev CodesOk (C : CodeTable) : Prop :=
  symWf C ∧ (∀ e ∈ C, 1 ≤ e.2.length ∧ e.2.length ≤ 255) ∧ PrefixFree C

/-- The arena index a path leads to: left on 0, right on 1 (30_encoding.md R99, R100). -/
def followPath (nodes : List Node) (i : Nat) (p : Bits) : Nat :=
  p.foldl (fun j b => if b then (nodeAt nodes j).right else (nodeAt nodes j).left) i

/-- A full binary tree whose leaves are symbols (00_scope.md, Glossary): what the built tree is compared with. -/
inductive SymTree where
  | leaf (sym : Byte)
  | node (left right : SymTree)
  deriving DecidableEq, Repr

/-- The symbols at the leaves, left to right. -/
def SymTree.leaves (u : SymTree) : List Byte :=
  match u with
  | .leaf s => [s]
  | .node l r => l.leaves ++ r.leaves

/-- `sum over keys s of T[s] · depth(s)` (42_treebuilder.md R181), for a tree whose root stands at depth d. -/
def SymTree.cost (T : FreqTable) (d : Nat) (u : SymTree) : Nat :=
  match u with
  | .leaf s => ftCount T s * d
  | .node l r => l.cost T (d + 1) + r.cost T (d + 1)

/-- "it refines weight: a node of lower weight is always less" (42_treebuilder.md R177 (b)). -/
abbrev RefinesWeight (lt : TieOrder) : Prop :=
  ∀ x y : Node, x.weight < y.weight → lt x y = true ∧ lt y x = false

/-- "on the nodes of one build it is a strict total order" (42_treebuilder.md R177 (a)). -/
abbrev StrictTotalOn (lt : TieOrder) (nodes : List Node) : Prop :=
  (∀ x ∈ nodes, lt x x = false) ∧
  (∀ x ∈ nodes, ∀ y ∈ nodes, ∀ z ∈ nodes, lt x y = true → lt y z = true → lt x z = true) ∧
  (∀ i < nodes.length, ∀ j < nodes.length, i ≠ j →
    lt (nodeAt nodes i) (nodeAt nodes j) = true ∨ lt (nodeAt nodes j) (nodeAt nodes i) = true)

/-- An order admissible for the build of a table (42_treebuilder.md R177 (a), (b)). That it depends on nothing outside the table and the
build (c) is in its type: it sees two nodes of the build, and may differ from table to table. -/
abbrev Admissible (lt : TieOrder) (T : FreqTable) : Prop :=
  RefinesWeight lt ∧ StrictTotalOn lt (buildTree lt T).nodes

/-! ### Invariants of the machine -/

/-- The fault record is consistent (10_state.md R22, R24; 60_exceptions.md R241): ERR is 0 unless FAILED, and then 1 to 5. -/
abbrev FaultRecordOk (s : State) : Prop :=
  (s.status ≠ .failed → s.err = 0 ∧ s.errInfo = none) ∧ (s.status = .failed → 1 ≤ s.err.toNat ∧ s.err.toNat ≤ 5)

/-- Every register in its range (10_state.md R22 to R37), except the tree and the codes, unless a command has failed: then all but the
fault record is unspecified (60_exceptions.md R248). -/
abbrev RangeInv (s : State) : Prop :=
  s.params.maxInputLen ≤ 2 ^ 64 - 1 ∧ s.argIn.length ≤ maxArgIn ∧ FaultRecordOk s ∧
    (s.status ≠ .failed → WriterOk s.bw ∧ ReaderOk s.br ∧ FreqOk s.ft ∧ OrchOk s.orch)

/-- `RangeInv` with the tree of 10_state.md R32, the code table of R36 and WALK within the arena. -/
abbrev TreeInv (s : State) : Prop :=
  RangeInv s ∧ (s.status ≠ .failed → TreeOk s.tb ∧ CodesOk s.ct ∧ s.orch.walk < 511)

/-! ### The writer's pure function -/

/-- Byte j of `PackBits(b)`: eight bits, the first in place 7, zeros past the end (40_bitstream.md R131). -/
def packByte (b : Bits) (j : Nat) : Byte :=
  BitVec.ofNat 8 ((List.range 8).map fun i => (b.getD (8 * j + i) false).toNat * 2 ^ (7 - i)).sum

/-- `PackBits(b)`, of ceil(k / 8) bytes for k bits (40_bitstream.md R131). -/
def packBits (b : Bits) : List Byte := (List.range ((b.length + 7) / 8)).map (packByte b)

/-- The value of a bit sequence, first bit most significant (40_bitstream.md R122). -/
def bitsValue (b : Bits) : Nat := b.foldl (fun v x => 2 * v + x.toNat) 0

/-- The payload bit stream of an input under a code table: the codes of its bytes in order (30_encoding.md R94). -/
def payloadBits (C : CodeTable) (data : List Byte) : Bits := data.flatMap (ctBits C)

/-- The eight bits of a byte, most significant first (20_memory.md R63). -/
def byteBits (b : Byte) : Bits := (List.range 8).map fun i => b.getLsbD (7 - i)

/-- The bits of a byte sequence in stream order: bit i lies in byte i div 8 at place 7 − (i mod 8) (20_memory.md R63). -/
def streamBits (bytes : List Byte) : Bits := bytes.flatMap byteBits

/-- The infinite bit sequence f begins with the bits p. -/
abbrev BeginsWith (f : Nat → Bool) (p : Bits) : Prop := ∀ k < p.length, p[k]? = some (f k)

/-! ### Reset -/

/-- Every element of the instance at its reset value (70_reset_and_hazards.md R271), written out element by element. -/
abbrev ResetValues (t : State) : Prop :=
  t.status = .idle ∧ t.err = 0 ∧ t.res.out = [] ∧ t.res.bit = .bit false ∧ t.res.consumed = 0 ∧ t.res.present = false ∧
  t.res.num = .ratio 0 1 ∧ t.res.statSymbolCount = 0 ∧ t.res.statSingle = false ∧
  t.bw.wbuf = [] ∧ t.bw.wacc = 0 ∧ t.bw.wcnt = 0 ∧
  t.br.rdata = [] ∧ t.br.rpos = 0 ∧ t.br.rcur = 0 ∧ t.br.rcnt = 0 ∧
  (∀ b, ftPresent t.ft b = false ∧ ftCount t.ft b = 0) ∧
  (∀ i, nodeAt t.tb.nodes i = { leaf := false, sym := 0, weight := 0, left := 0, right := 0, oid := 0 }) ∧
  ncount t.tb = 0 ∧ t.tb.root = 0 ∧ t.tb.present = false ∧ t.tb.merges = 0 ∧ t.tb.pq = [] ∧
  (∀ b, ctLen t.ct b = 0 ∧ ctBits t.ct b = []) ∧
  t.orch.phase = .idle ∧ t.orch.icur = 0 ∧ t.orch.bcur = 0 ∧ t.orch.ecur = 0 ∧ t.orch.walk = 0 ∧
  t.orch.expected = 0 ∧ t.orch.emitted = 0 ∧ t.orch.dout = []

/-! ### Runs of several commands -/

/-- The commands run one after another, each on the operands the state already holds; it stops at the first that gives no next
state. -/
def execAll (is : List Instr) (s : State) : Answer :=
  match is with
  | [] => .next s
  | i :: rest =>
    match exec i s with
    | .next t => execAll rest t
    | .fault f => .fault f
    | .refused r => .refused r

/-- `n` steps of the machine. -/
def runSteps (n : Nat) (s : State) : Answer := Host.Core.run Sys2Proof.core n s

/-- A command of an instruction with its byte-sequence operand, as the host writes it in a program (30_encoding.md R109). -/
def hostCommand (i : Instr) (argIn : List Byte) : HostCommand :=
  { cmd := encodeByte i, argLen := 0, argIn := argIn }

/-- The host's side of the port and the parameters are untouched. -/
abbrev HostSideKept (s t : State) : Prop :=
  t.params = s.params ∧ t.pending = s.pending ∧ t.argLen = s.argLen ∧ t.argIn = s.argIn

/-- The command ended `Ok`: STATUS = DONE, ERR = 0, no info (10_state.md R22), and the host's side is untouched. -/
abbrev EndedOk (s t : State) : Prop :=
  t.status = .done ∧ t.err = 0 ∧ t.errInfo = none ∧ HostSideKept s t

/-- The command ended in an error with this code and info (60_exceptions.md R241, R248), and the host's side is untouched. -/
abbrev EndedInError (s t : State) (code : Nat) (info : Option Nat) : Prop :=
  t.status = .failed ∧ t.err.toNat = code ∧ t.errInfo = info ∧ HostSideKept s t

end Sys2Proof.Machine
end

