-- ==== Sys2Proof/Certificates/Slice0/Obligations.lean ====
section
/-! DEFINITION. The statements for the provers. Each says which rule of spec/ it formalises; a clause that rests on a choice of the
model names its log entry. RES_* and STAT_* elements a command does not present hold any value (93_implementation_defined.md U15, log 7), so
no statement says anything of them. -/

open Sys2Proof Sys2Proof.Machine

/-! ### The command word -/

/-- 30_encoding.md R104, R105, R109: the decoder reads exactly the encodings, so no bit of a command is dropped, no two operations
share a code, and the bytes after the command are left alone. -/
def Obligations.DecodeReadsExactlyTheEncodings : Prop :=
  ∀ (bytes rest : List Byte) (i : Instr), decode bytes = .ok (i, rest) ↔ bytes = encode i ++ rest

/-- 30_encoding.md R106: the illegal values are the listed ranges, 237 of them, and the decoder rejects exactly those, by value. -/
def Obligations.IllegalCodesAreTheListedRanges : Prop :=
  (∀ w : Byte, decodeByte w = .error (.illegalCommand w) ↔
    (0x01 ≤ w.toNat ∧ w.toNat ≤ 0x0F) ∨ (0x15 ≤ w.toNat ∧ w.toNat ≤ 0x1F) ∨ (0x23 ≤ w.toNat ∧ w.toNat ≤ 0x2F) ∨
    (0x33 ≤ w.toNat ∧ w.toNat ≤ 0x3F) ∨ (0x41 ≤ w.toNat ∧ w.toNat ≤ 0x4F) ∨ (0x54 ≤ w.toNat ∧ w.toNat ≤ 0x5F) ∨
    0x62 ≤ w.toNat) ∧
  ((List.range 256).filter fun n =>
    decide (decode [BitVec.ofNat 8 n] = .error (.illegalCommand (BitVec.ofNat 8 n)))).length = 237

/-- 30_encoding.md R105: words written out from the pattern column decode to their operations, one or two of each unit. -/
def Obligations.OpcodeWordsDecode : Prop :=
  decode [0b00000000] = .ok (.reset, []) ∧ decode [0b00010000] = .ok (.bwWbit false, []) ∧
  decode [0b00010001] = .ok (.bwWbit true, []) ∧ decode [0b00010011] = .ok (.bwFlush, []) ∧
  decode [0b00100010] = .ok (.brRbytes, []) ∧ decode [0b00110010] = .ok (.ftUnpack, []) ∧
  decode [0b01000000] = .ok (.tbBuild, []) ∧ decode [0b01010000] = .ok (.ctDerive, []) ∧
  decode [0b01010011] = .ok (.stEff, []) ∧ decode [0b01100001] = .ok (.orDecompress, []) ∧
  decode [0b01110000] = .error (.illegalCommand 0x70)

/-! ### One step -/

/-- A step runs the instruction that the host's next command decodes to, with its operands at the port (10_state.md R22; that the
host's commands stand in a list is the model's choice, log 1). -/
def Obligations.StepRunsTheDecodedInstruction : Prop :=
  ∀ (s : State) (c : HostCommand) (rest : List HostCommand) (i : Instr),
    s.pending = c :: rest → c.argIn.length ≤ 2 ^ 64 - 1 → decode [c.cmd] = .ok (i, []) →
    step s = exec i { s with pending := rest, argLen := c.argLen, argIn := c.argIn }

/-- With no command the block waits (70_reset_and_hazards.md R272; log 1), and a command longer than the port faults (log 2). -/
def Obligations.StepWaitsForACommand : Prop :=
  (∀ s : State, s.pending = [] → step s = .next s) ∧
  (∀ (s : State) (c : HostCommand) (rest : List HostCommand),
    s.pending = c :: rest → 2 ^ 64 - 1 < c.argIn.length → step s = .fault .operandTooLong)

/-- The word placed by `withFetchWord` is what the next step runs, on zero operands (the model's placing of a command, log 1). -/
def Obligations.PlacedWordIsRunNext : Prop :=
  ∀ (s : State) (w : Nat) (i : Instr), decodeTableWord 8 w = some i →
    step (s.withFetchWord 8 w) = exec i { s with argLen := 0, argIn := [] }

/-- 60_exceptions.md R246, 30_encoding.md R106: an illegal command ends in IllegalCommand, STATUS <- FAILED and ERR <- 5, no other element
of the spec's state. Two clauses are the model's own: the value of CMD is kept in its info register errInfo (R241; DESIGN CHOICE, log 4),
and the command is taken off its list of the host's commands (DESIGN CHOICE, log 1). -/
def Obligations.IllegalCommandChangesOnlyTheFaultRecord : Prop :=
  ∀ (s : State) (c : HostCommand) (rest : List HostCommand),
    s.pending = c :: rest → c.argIn.length ≤ 2 ^ 64 - 1 → s.status ≠ .failed →
    decode [c.cmd] = .error (.illegalCommand c.cmd) →
    step s = .next { s with
      pending := rest, argLen := c.argLen, argIn := c.argIn,
      status := .failed, err := 5, errInfo := some c.cmd.toNat }

/-- 60_exceptions.md R248, 10_state.md R24: while FAILED every command but RESET, OR_COMPRESS and OR_DECOMPRESS is refused, in the
opcode map or not. -/
def Obligations.FailedStatusRefusesCommands : Prop :=
  ∀ s : State, s.status = .failed →
    (∀ i : Instr, i ≠ .reset → i ≠ .orCompress → i ≠ .orDecompress → exec i s = .refused .failedStatus) ∧
    (∀ (c : HostCommand) (rest : List HostCommand),
      s.pending = c :: rest → c.argIn.length ≤ 2 ^ 64 - 1 → c.cmd ≠ 0x00 → c.cmd ≠ 0x60 → c.cmd ≠ 0x61 →
      step s = .refused .failedStatus)

/-- 60_exceptions.md R250, R241: no operation faults, and an operation is refused only for the three reasons of U4, U5 and U7; in every
other case it ends in a next state. The third is an output that, without the limit, would be longer than it. -/
def Obligations.OperationsEndExceptForThreeReasons : Prop :=
  ∀ (i : Instr) (s : State),
    (∃ t, exec i s = .next t) ∨
    (exec i s = .refused .failedStatus ∧ s.status = .failed ∧ i ≠ .reset ∧ i ≠ .orCompress ∧ i ≠ .orDecompress) ∨
    (exec i s = .refused .inputTooLong ∧ s.params.maxInputLen < s.argIn.length ∧ (i = .ftBuild ∨ i = .orCompress)) ∨
    (exec i s = .refused .outputTooLong ∧ i = .orDecompress ∧
      ∃ m t, s.params.outLimit = some m ∧
        exec .orDecompress { s with params := { s.params with outLimit := none } } = .next t ∧ t.status = .done ∧
        m < t.res.out.length)

/-- 60_exceptions.md R241 ("raised by") and 10_state.md R22: an operation ends DONE with ERR 0, or IDLE for RESET, or FAILED with a code
that only the operations named can raise. -/
def Obligations.ErrorsComeOnlyFromTheirOperations : Prop :=
  ∀ (i : Instr) (s t : State), exec i s = .next t →
    (t.status = .idle ↔ i = .reset) ∧
    (t.status ≠ .failed → t.err = 0 ∧ t.errInfo = none) ∧
    (t.status = .failed →
      (t.err = 1 ∧ t.errInfo = none ∧ s.argIn = [] ∧ (i = .orCompress ∨ i = .orDecompress)) ∨
      (t.err = 2 ∧ t.errInfo = none ∧ (i = .ftUnpack ∨ i = .orDecompress)) ∨
      (t.err = 3 ∧ t.errInfo ≠ none ∧ (i = .ftUnpack ∨ i = .orDecompress)) ∨
      (t.err = 4 ∧ t.errInfo = some (distinct s.ft) ∧ 65535 < distinct s.ft ∧ i = .ftPack))

/-! ### Reset -/

/-- 70_reset_and_hazards.md R270, R271: RESET, in every status, gives every state element its reset value and leaves the host's side of
the port and the parameters (no state of the instance, 10_state.md R40) as they are; the power-on state has the same values. -/
def Obligations.ResetGivesEveryElementItsResetValue : Prop :=
  ResetValues State.reset ∧
  ∀ s : State, ∃ t, exec .reset s = .next t ∧ ResetValues t ∧ t.errInfo = none ∧ HostSideKept s t

/-! ### Bit writer -/

/-- 40_bitstream.md R121: BW_WBIT b shifts the bit into WACC and on the eighth appends the byte; no other unit changes. -/
def Obligations.WriteBitAccumulatesOrAppends : Prop :=
  ∀ (s : State) (b : Bool), s.status ≠ .failed → WriterOk s.bw →
    ∃ t, exec (.bwWbit b) s = .next t ∧ EndedOk s t ∧
      (s.bw.wcnt = 7 →
        t.bw.wbuf = s.bw.wbuf ++ [BitVec.ofNat 8 (2 * s.bw.wacc.toNat + b.toNat)] ∧
        2 * s.bw.wacc.toNat + b.toNat < 256 ∧ t.bw.wacc = 0 ∧ t.bw.wcnt = 0) ∧
      (s.bw.wcnt ≠ 7 →
        t.bw.wbuf = s.bw.wbuf ∧ t.bw.wacc.toNat = 2 * s.bw.wacc.toNat + b.toNat ∧ t.bw.wcnt = s.bw.wcnt + 1) ∧
      t.br = s.br ∧ t.ft = s.ft ∧ t.tb = s.tb ∧ t.ct = s.ct ∧ t.orch = s.orch

/-- 40_bitstream.md R122, the writer law: after k BW_WBIT from WCNT = 0, WBUF has grown by k div 8 bytes of eight bits each, and WCNT and
WACC hold the k mod 8 bits left. -/
def Obligations.WriterLawForBitSequences : Prop :=
  ∀ (s : State) (b : Bits), s.status ≠ .failed → WriterOk s.bw → s.bw.wcnt = 0 →
    ∃ t, execAll (b.map Instr.bwWbit) s = .next t ∧
      t.bw.wbuf.length = s.bw.wbuf.length + b.length / 8 ∧ s.bw.wbuf <+: t.bw.wbuf ∧
      (∀ j < b.length / 8,
        (t.bw.wbuf[s.bw.wbuf.length + j]?).map BitVec.toNat = some (bitsValue ((b.drop (8 * j)).take 8))) ∧
      t.bw.wcnt = b.length % 8 ∧ t.bw.wacc.toNat = bitsValue (b.drop (8 * (b.length / 8)))

/-- 40_bitstream.md R123: BW_WBYTES appends raw to WBUF; WACC and WCNT are neither read nor changed, pending bits or not. -/
def Obligations.WriteBytesBypassesTheAccumulator : Prop :=
  ∀ s : State, s.status ≠ .failed →
    ∃ t, exec .bwWbytes s = .next t ∧ EndedOk s t ∧
      t.bw.wbuf = s.bw.wbuf ++ s.argIn ∧ t.bw.wacc = s.bw.wacc ∧ t.bw.wcnt = s.bw.wcnt ∧
      t.br = s.br ∧ t.ft = s.ft ∧ t.tb = s.tb ∧ t.ct = s.ct ∧ t.orch = s.orch

/-- 40_bitstream.md R124, 20_memory.md R64: BW_FLUSH pads the pending bits with zeros on the low end and appends them; with none pending
nothing changes, so a second flush straight after is a no-operation. -/
def Obligations.FlushPadsAndIsIdempotent : Prop :=
  ∀ s : State, s.status ≠ .failed → WriterOk s.bw →
    ∃ t, exec .bwFlush s = .next t ∧ EndedOk s t ∧
      (0 < s.bw.wcnt →
        t.bw.wbuf = s.bw.wbuf ++ [BitVec.ofNat 8 (s.bw.wacc.toNat * 2 ^ (8 - s.bw.wcnt))] ∧
        s.bw.wacc.toNat * 2 ^ (8 - s.bw.wcnt) < 256 ∧ t.bw.wacc = 0 ∧ t.bw.wcnt = 0) ∧
      (s.bw.wcnt = 0 → t.bw = s.bw) ∧
      (∃ u, exec .bwFlush t = .next u ∧ u.bw = t.bw) ∧
      t.br = s.br ∧ t.ft = s.ft ∧ t.tb = s.tb ∧ t.ct = s.ct ∧ t.orch = s.orch

/-- 40_bitstream.md R125, 10_state.md R26: BW_GET presents WBUF, without the pending bits, and changes no unit. -/
def Obligations.GetPresentsTheWholeBytes : Prop :=
  ∀ s : State, s.status ≠ .failed →
    ∃ t, exec .bwGet s = .next t ∧ EndedOk s t ∧ t.res.out = s.bw.wbuf ∧
      t.bw = s.bw ∧ t.br = s.br ∧ t.ft = s.ft ∧ t.tb = s.tb ∧ t.ct = s.ct ∧ t.orch = s.orch

/-- 40_bitstream.md R131: a reset writer given BW_WBITS b, BW_FLUSH, BW_GET returns PackBits(b). -/
def Obligations.WrittenBitsReadOutAsPackBits : Prop :=
  ∀ (s : State) (b : Bits), s.status ≠ .failed → s.bw = Writer.empty →
    ∃ t, execAll (b.map Instr.bwWbit ++ [.bwFlush, .bwGet]) s = .next t ∧ t.res.out = packBits b

/-! ### Bit reader -/

/-- 40_bitstream.md R127: BR_LOAD makes a new reader over ARG_IN; the old one is discarded whole. -/
def Obligations.LoadMakesANewReader : Prop :=
  ∀ s : State, s.status ≠ .failed →
    ∃ t, exec .brLoad s = .next t ∧ EndedOk s t ∧
      t.br.rdata = s.argIn ∧ t.br.rpos = 0 ∧ t.br.rcur = 0 ∧ t.br.rcnt = 0 ∧
      t.bw = s.bw ∧ t.ft = s.ft ∧ t.tb = s.tb ∧ t.ct = s.ct ∧ t.orch = s.orch

/-- 40_bitstream.md R126: BR_RBIT serves the next bit of RCUR, loading the next byte when none is left; when no byte remains it presents
EOS and changes no unit. -/
def Obligations.ReadBitServesLoadsOrEnds : Prop :=
  ∀ s : State, s.status ≠ .failed →
    ∃ t, exec .brRbit s = .next t ∧ EndedOk s t ∧
      (0 < s.br.rcnt →
        t.res.bit = .bit (s.br.rcur.getLsbD (s.br.rcnt - 1)) ∧ t.br.rcnt = s.br.rcnt - 1 ∧
        t.br.rcur = s.br.rcur ∧ t.br.rpos = s.br.rpos) ∧
      (∀ c, s.br.rcnt = 0 → s.br.rdata[s.br.rpos]? = some c →
        t.res.bit = .bit (c.getLsbD 7) ∧ t.br.rcnt = 7 ∧ t.br.rcur = c ∧ t.br.rpos = s.br.rpos + 1) ∧
      (s.br.rcnt = 0 → s.br.rdata.length ≤ s.br.rpos → t.res.bit = .eos ∧ t.br = s.br) ∧
      t.br.rdata = s.br.rdata ∧
      t.bw = s.bw ∧ t.ft = s.ft ∧ t.tb = s.tb ∧ t.ct = s.ct ∧ t.orch = s.orch

/-- 40_bitstream.md R128: BR_RBYTES n takes min(n, what remains) bytes from RPOS; RCUR and RCNT are neither read nor changed, part-served
byte or not. -/
def Obligations.ReadBytesTakesWhatRemains : Prop :=
  ∀ s : State, s.status ≠ .failed → ReaderOk s.br →
    ∃ t, exec .brRbytes s = .next t ∧ EndedOk s t ∧
      t.res.out = (s.br.rdata.drop s.br.rpos).take s.argLen.toNat ∧
      t.res.out.length = min s.argLen.toNat (s.br.rdata.length - s.br.rpos) ∧
      t.br.rpos = s.br.rpos + t.res.out.length ∧
      t.br.rdata = s.br.rdata ∧ t.br.rcur = s.br.rcur ∧ t.br.rcnt = s.br.rcnt ∧
      t.bw = s.bw ∧ t.ft = s.ft ∧ t.tb = s.tb ∧ t.ct = s.ct ∧ t.orch = s.orch

/-- 40_bitstream.md R129: bytes M then bits b written, flushed and got, then loaded: BR_RBYTES gives M back, BR_RBIT number i gives bit i
of b, or the padding's 0 past its end, up to the byte boundary, and the next one EOS. -/
def Obligations.BitOrderIsSymmetric : Prop :=
  ∀ (s : State) (M : List Byte) (b : Bits), s.status ≠ .failed → s.bw = Writer.empty → s.argIn = M → M.length < 2 ^ 64 →
    ∃ t, execAll ([.bwWbytes] ++ b.map Instr.bwWbit ++ [.bwFlush, .bwGet]) s = .next t ∧
    ∃ u, execAll [.brLoad, .brRbytes] { t with argIn := t.res.out, argLen := BitVec.ofNat 64 M.length } = .next u ∧
      u.res.out = M ∧
      (∀ i < 8 * ((b.length + 7) / 8),
        ∃ v, execAll (List.replicate (i + 1) .brRbit) u = .next v ∧ v.res.bit = .bit (b.getD i false)) ∧
      (∃ v, execAll (List.replicate (8 * ((b.length + 7) / 8) + 1) .brRbit) u = .next v ∧ v.res.bit = .eos)

/-! ### Frequency table -/

/-- 41_freqtable.md R151, R152: FT_BUILD leaves the counts of ARG_IN's bytes, whatever the old table; keys are the bytes that occur. Two
clauses are the model's own: the table is listed in its canonical order, symWf (log 14), and ICUR holds no value the spec states once
the loop has ended (10_state.md R37, log 8). -/
def Obligations.BuildCountsEverySymbol : Prop :=
  ∀ s : State, s.status ≠ .failed → s.argIn.length ≤ s.params.maxInputLen →
    ∃ t, exec .ftBuild s = .next t ∧ EndedOk s t ∧
      (∀ b, ftCount t.ft b = s.argIn.count b) ∧ (∀ b, ftPresent t.ft b = true ↔ b ∈ s.argIn) ∧
      total t.ft = s.argIn.length ∧ (distinct t.ft = 0 ↔ s.argIn = []) ∧
      distinct t.ft ≤ min s.argIn.length 256 ∧ symWf t.ft ∧
      t.bw = s.bw ∧ t.br = s.br ∧ t.tb = s.tb ∧ t.ct = s.ct ∧ t.orch = { s.orch with icur := t.orch.icur }

/-- 41_freqtable.md R151, 44_orchestrator.md R216, 93_implementation_defined.md U5: data longer than MAX_INPUT_LEN is refused by FT_BUILD
(unless FAILED refuses first) and by OR_COMPRESS. -/
def Obligations.OverlongInputIsRefused : Prop :=
  ∀ s : State, s.params.maxInputLen < s.argIn.length →
    exec .orCompress s = .refused .inputTooLong ∧
    (s.status ≠ .failed → exec .ftBuild s = .refused .inputTooLong)

/-- 41_freqtable.md R153, R154: FT_PACK presents the 2-byte count and then 9 bytes for each key in ascending symbol order, and changes
no unit; with 256 slots the overflow error never occurs. -/
def Obligations.PackWritesCountAndEntries : Prop :=
  ∀ s : State, s.status ≠ .failed → FreqOk s.ft →
    ∃ t, exec .ftPack s = .next t ∧ EndedOk s t ∧
      t.res.out.length = 2 + 9 * distinct s.ft ∧ distinct s.ft ≤ 256 ∧
      beValue (t.res.out.take 2) = distinct s.ft ∧
      (∀ (i : Nat) (e : Byte × Nat), s.ft[i]? = some e →
        t.res.out[2 + 9 * i]? = some e.1 ∧ beValue ((t.res.out.drop (3 + 9 * i)).take 8) = e.2) ∧
      t.bw = s.bw ∧ t.br = s.br ∧ t.ft = s.ft ∧ t.tb = s.tb ∧ t.ct = s.ct ∧ t.orch = s.orch

/-- 41_freqtable.md R155, R156, R159, 60_exceptions.md R243, R248: FT_UNPACK's outcome is a function of the bytes available and the
count field. On success every entry's symbol is a key, the last entry of a symbol gives its count (R157), RPOS advances by 2 + 9·N, and
RCUR and RCNT are untouched. ECUR survives no operation (log 8). -/
def Obligations.UnpackReadsTheWholeTableOrFails : Prop :=
  ∀ s : State, s.status ≠ .failed → ReaderOk s.br →
    ∃ t, exec .ftUnpack s = .next t ∧
      let D := s.br.rdata.drop s.br.rpos
      let N := beValue (D.take 2)
      (D.length < 2 → EndedInError s t 2 none) ∧
      (2 ≤ D.length → D.length < 2 + 9 * N → EndedInError s t 3 (some ((D.length - 2) / 9))) ∧
      (2 ≤ D.length → 2 + 9 * N ≤ D.length →
        EndedOk s t ∧ t.res.consumed.toNat = 2 + 9 * N ∧ FreqOk t.ft ∧
        (∀ b, ftPresent t.ft b = true ↔ ∃ i < N, D[2 + 9 * i]? = some b) ∧
        (∀ i < N, ∀ b, D[2 + 9 * i]? = some b → (∀ j < N, i < j → D[2 + 9 * j]? ≠ some b) →
          ftCount t.ft b = beValue ((D.drop (3 + 9 * i)).take 8)) ∧
        t.br = { s.br with rpos := s.br.rpos + (2 + 9 * N) } ∧
        t.bw = s.bw ∧ t.tb = s.tb ∧ t.ct = s.ct ∧ t.orch = { s.orch with ecur := t.orch.ecur })

/-- 41_freqtable.md R160, the metadata round trip: FT_PACK, BR_LOAD of what it presented, FT_UNPACK gives the table back, empty or not,
zero counts included, consuming all of it; the empty table packs to exactly 2 bytes. -/
def Obligations.UnpackOfPackIsTheTable : Prop :=
  ∀ s : State, s.status ≠ .failed → FreqOk s.ft →
    ∃ t, exec .ftPack s = .next t ∧ (s.ft = [] → t.res.out = [0, 0]) ∧
    ∃ u, execAll [.brLoad, .ftUnpack] { t with argIn := t.res.out } = .next u ∧
      u.status = .done ∧ u.ft = s.ft ∧ u.res.consumed.toNat = t.res.out.length ∧ u.br.rpos = t.res.out.length

/-- 41_freqtable.md R158: metadata regions whose entries are permutations of one another, with pairwise distinct symbols, unpack to the
same table. -/
def Obligations.EntryOrderDoesNotMatter : Prop :=
  ∀ (s u : State) (E F : List (Byte × Nat)), s.status ≠ .failed → u.status ≠ .failed → E.length < 65536 →
    (E.map Prod.fst).Nodup → List.Perm E F →
    s.br = loadReader (countBytes E.length ++ E.flatMap fun e => entryBytes e.1 e.2) →
    u.br = loadReader (countBytes F.length ++ F.flatMap fun e => entryBytes e.1 e.2) →
    ∃ t v, exec .ftUnpack s = .next t ∧ exec .ftUnpack u = .next v ∧
      t.status = .done ∧ v.status = .done ∧ t.ft = v.ft ∧ distinct t.ft = E.length

/-! ### Tree builder -/

/-- 42_treebuilder.md R170 to R174, R179, 10_state.md R31, R32, R34: TB_BUILD leaves the tree of FT under the machine's TIE_ORDER: absent for
the empty table; else the keys' leaves first, in ascending symbol order, n − 1 internal nodes after them, a full binary tree rooted at
2n − 2, weights the sums of the children's, all in range, the queue empty. -/
def Obligations.TreeBuildGivesAFullBinaryTree : Prop :=
  ∀ s : State, s.status ≠ .failed → FreqOk s.ft →
    ∃ t, exec .tbBuild s = .next t ∧ EndedOk s t ∧ t.tb = treeOf s.params s.ft ∧ t.res.present = t.tb.present ∧ TreeOk t.tb ∧
      (t.tb.present = true ↔ 0 < distinct s.ft) ∧
      (0 < distinct s.ft →
        ncount t.tb = 2 * distinct s.ft - 1 ∧ t.tb.root = 2 * distinct s.ft - 2 ∧ t.tb.merges = distinct s.ft - 1 ∧
        (∀ (i : Nat) (e : Byte × Nat), s.ft[i]? = some e →
          nodeAt t.tb.nodes i =
            { leaf := true, sym := e.1, weight := e.2, left := 0, right := 0, oid := e.1.toNat }) ∧
        (∀ k < distinct s.ft - 1,
          (nodeAt t.tb.nodes (distinct s.ft + k)).leaf = false ∧ (nodeAt t.tb.nodes (distinct s.ft + k)).oid = 256 + k) ∧
        (nodeAt t.tb.nodes t.tb.root).weight = total s.ft) ∧
      t.bw = s.bw ∧ t.br = s.br ∧ t.ft = s.ft ∧ t.ct = s.ct ∧ t.orch = s.orch

/-- 42_treebuilder.md R175 to R177: under every TIE_ORDER PopLeast removes one index and returns it, and the order puts no index left
before it; under the default, none left has a lower weight, or an equal weight and a lower oid. It is none only for the empty queue. -/
def Obligations.PopLeastReturnsTheLeast : Prop :=
  ∀ (c : Config.TieRanks) (T : FreqTable) (nodes : List Node) (pq : List Nat),
    (popLeast (tieOrderFor c T) nodes pq = none ↔ pq = []) ∧
    (∀ (a : Nat) (rest : List Nat), popLeast (tieOrderFor c T) nodes pq = some (a, rest) →
      List.Perm (a :: rest) pq ∧
      (∀ j ∈ rest, tieOrderFor c T (nodeAt nodes j) (nodeAt nodes a) = false) ∧
      (c = [] → ∀ j ∈ rest, (nodeAt nodes a).weight < (nodeAt nodes j).weight ∨
        ((nodeAt nodes a).weight = (nodeAt nodes j).weight ∧ (nodeAt nodes a).oid ≤ (nodeAt nodes j).oid)))

/-- 43_codetable_stats.md R194, 42_treebuilder.md R178: at every internal node the left child, which R191 reaches by bit 0, is the lesser
under the TIE_ORDER of the build, so it is no heavier; under the default it is the one of lower weight, or of equal weight and lower
oid. -/
def Obligations.LeftChildIsTheLesser : Prop :=
  ∀ (c : Config.TieRanks) (T : FreqTable), FreqOk T →
    let t := buildTree (tieOrderFor c T) T
    ∀ i < ncount t, (nodeAt t.nodes i).leaf = false →
      let l := nodeAt t.nodes (nodeAt t.nodes i).left
      let r := nodeAt t.nodes (nodeAt t.nodes i).right
      tieOrderFor c T l r = true ∧ l.weight ≤ r.weight ∧
      (c = [] → l.weight < r.weight ∨ (l.weight = r.weight ∧ l.oid < r.oid))

/-- 42_treebuilder.md R183: under the default TIE_ORDER, with two keys s1 < s2, the one of the lesser count, s1 when they are equal, gets
code 0 and the other 1; under any TIE_ORDER unequal counts decide the same way. -/
def Obligations.TwoKeysGetCodesByCount : Prop :=
  ∀ (s : State) (s1 s2 : Byte) (c1 c2 : Nat), s.status ≠ .failed → s1.toNat < s2.toNat → s.ft = [(s1, c1), (s2, c2)] →
    ∃ t, execAll [.tbBuild, .ctDerive] s = .next t ∧
      (c1 < c2 ∨ (c1 = c2 ∧ s.params.tieRanks = []) → ctBits t.ct s1 = [false] ∧ ctBits t.ct s2 = [true]) ∧
      (c2 < c1 → ctBits t.ct s1 = [true] ∧ ctBits t.ct s2 = [false])

/-! ### Codes and statistics -/

/-- 43_codetable_stats.md R191, R192, 30_encoding.md R99: CT_DERIVE leaves the empty table for absent, the one code 0 for a single leaf,
and otherwise, for exactly the leaves' symbols, the path from the root to a leaf of the symbol, no leaf on the way. -/
def Obligations.DerivedCodesAreTheLeafPaths : Prop :=
  ∀ s : State, s.status ≠ .failed → TreeOk s.tb →
    ∃ t, exec .ctDerive s = .next t ∧ EndedOk s t ∧ CodesOk t.ct ∧
      (s.tb.present = false → t.ct = []) ∧
      (s.tb.present = true → (nodeAt s.tb.nodes s.tb.root).leaf = true →
        t.ct = [((nodeAt s.tb.nodes s.tb.root).sym, [false])]) ∧
      (s.tb.present = true → (nodeAt s.tb.nodes s.tb.root).leaf = false →
        (∀ b, (∃ p, (b, p) ∈ t.ct) ↔ ∃ n ∈ s.tb.nodes, n.leaf = true ∧ n.sym = b) ∧
        (∀ e ∈ t.ct,
          (nodeAt s.tb.nodes (followPath s.tb.nodes s.tb.root e.2)).leaf = true ∧
          (nodeAt s.tb.nodes (followPath s.tb.nodes s.tb.root e.2)).sym = e.1 ∧
          ∀ k < e.2.length, (nodeAt s.tb.nodes (followPath s.tb.nodes s.tb.root (e.2.take k))).leaf = false)) ∧
      t.bw = s.bw ∧ t.br = s.br ∧ t.ft = s.ft ∧ t.tb = s.tb ∧ t.orch = s.orch

/-- 43_codetable_stats.md R193, 10_state.md R36, for EVERY order the queue may pop by (42_treebuilder.md R177): the codes of a table of
n >= 2 keys are one for each key, 1 to n − 1 bits long, a prefix code, and complete: every infinite bit sequence begins with exactly one
of them, and the sum of 2^(−len) is 1. For n = 1 the one code is the bit 0, so a sequence that begins with 1 begins with none. -/
def Obligations.TreeCodesAreACompletePrefixCode : Prop :=
  ∀ (lt : TieOrder) (T : FreqTable), FreqOk T →
    let C := deriveCodes (buildTree lt T)
    (2 ≤ distinct T →
      C.map Prod.fst = T.map Prod.fst ∧
      (∀ e ∈ C, 1 ≤ e.2.length ∧ e.2.length ≤ distinct T - 1) ∧ PrefixFree C ∧
      (∀ f : Nat → Bool, ∃ e ∈ C, BeginsWith f e.2 ∧ ∀ e' ∈ C, BeginsWith f e'.2 → e' = e) ∧
      (C.map fun e => 2 ^ (255 - e.2.length)).sum = 2 ^ 255) ∧
    (∀ e, T = [e] → C = [(e.1, [false])] ∧ ∀ f : Nat → Bool, f 0 = true → ¬ BeginsWith f [false])

/-- 42_treebuilder.md R181, 30_encoding.md R101: whichever way the queue breaks ties, as long as it refines weight, the tree is full with
the keys as its leaves, and the sum of count · depth, which the code lengths give, is attained by a full binary tree with those
leaves and is the least that any attains; so the sum is the same under every such order. -/
def Obligations.BuiltTreeHasLeastCost : Prop :=
  ∀ (lt : TieOrder) (T : FreqTable), RefinesWeight lt → FreqOk T → 2 ≤ distinct T →
    let t := buildTree lt T
    TreeOk t ∧ (leavesOf t.nodes).map Node.sym = T.map Prod.fst ∧
    (∃ u : SymTree, List.Perm u.leaves (T.map Prod.fst) ∧ u.cost T 0 = codedBits T (deriveCodes t)) ∧
    (∀ u : SymTree, List.Perm u.leaves (T.map Prod.fst) → codedBits T (deriveCodes t) ≤ u.cost T 0)

/-- 43_codetable_stats.md R195: ST_ENTROPY presents the sum of −p · log2 p over the keys of positive count, p = count / total, and zero
when the total is 0; it changes no unit. The port shows NUM of the value (R196, log 13). -/
def Obligations.EntropyIsTheSumOverPositiveCounts : Prop :=
  ∀ s : State, s.status ≠ .failed →
    ∃ t, exec .stEntropy s = .next t ∧ EndedOk s t ∧
      (total s.ft = 0 → t.res.num = .ratio 0 1 ∧ t.res.num.toReal = 0) ∧
      (0 < total s.ft →
        t.res.num.toReal =
          ((s.ft.filter fun e => decide (0 < e.2)).map fun e =>
            -((e.2 : ℝ) / (total s.ft : ℝ)) * Real.logb 2 ((e.2 : ℝ) / (total s.ft : ℝ))).sum) ∧
      t.bw = s.bw ∧ t.br = s.br ∧ t.ft = s.ft ∧ t.tb = s.tb ∧ t.ct = s.ct ∧ t.orch = s.orch

/-- 43_codetable_stats.md R197: ST_AVGLEN presents the sum over the symbols in both tables of count · length, divided by the total of
the whole frequency table, and zero when the total is 0; it changes no unit. -/
def Obligations.AverageLengthIsWeightedByCounts : Prop :=
  ∀ s : State, s.status ≠ .failed →
    ∃ t, exec .stAvglen s = .next t ∧ EndedOk s t ∧
      (total s.ft = 0 → t.res.num = .ratio 0 1 ∧ t.res.num.toReal = 0) ∧
      (0 < total s.ft →
        t.res.num.toReal =
          (((s.ft.filter fun e => decide (0 < ctLen s.ct e.1)).map fun e => e.2 * ctLen s.ct e.1).sum : ℝ) /
            (total s.ft : ℝ)) ∧
      t.bw = s.bw ∧ t.br = s.br ∧ t.ft = s.ft ∧ t.tb = s.tb ∧ t.ct = s.ct ∧ t.orch = s.orch

/-- 43_codetable_stats.md R199: ST_EFF presents 100 · H / L of the values of ST_ENTROPY and ST_AVGLEN in the same state, and zero when L
is 0; it changes no unit. -/
def Obligations.EfficiencyIsEntropyOverAverageLength : Prop :=
  ∀ s : State, s.status ≠ .failed →
    ∃ h l t, exec .stEntropy s = .next h ∧ exec .stAvglen s = .next l ∧ exec .stEff s = .next t ∧ EndedOk s t ∧
      (l.res.num.toReal = 0 → t.res.num = .ratio 0 1 ∧ t.res.num.toReal = 0) ∧
      (l.res.num.toReal ≠ 0 → t.res.num.toReal = 100 * h.res.num.toReal / l.res.num.toReal) ∧
      t.bw = s.bw ∧ t.br = s.br ∧ t.ft = s.ft ∧ t.tb = s.tb ∧ t.ct = s.ct ∧ t.orch = s.orch

/-- 43_codetable_stats.md R198: for a table of two or more keys, every count positive, with the codes of its own tree, under whatever
order the queue popped by, the entropy is at most the average code length. -/
def Obligations.EntropyIsAtMostAverageLength : Prop :=
  ∀ (lt : TieOrder) (s : State), s.status ≠ .failed → FreqOk s.ft → 2 ≤ distinct s.ft → (∀ e ∈ s.ft, 0 < e.2) →
    s.ct = deriveCodes (buildTree lt s.ft) →
    ∃ h l, exec .stEntropy s = .next h ∧ exec .stAvglen s = .next l ∧ h.res.num.toReal ≤ l.res.num.toReal

/-! ### Compressor and decompressor -/

/-- 60_exceptions.md R242, R248, 44_orchestrator.md R211, R221: zero-length data ends both orchestrator commands in EmptyInput, in every
status, with PHASE at P_FAILED. -/
def Obligations.EmptyInputFails : Prop :=
  ∀ s : State, s.argIn = [] →
    (∃ t, exec .orCompress s = .next t ∧ EndedInError s t 1 none ∧ t.orch.phase = .failed) ∧
    (∃ t, exec .orDecompress s = .next t ∧ EndedInError s t 1 none ∧ t.orch.phase = .failed)

/-- 44_orchestrator.md R213, R215, R234, 30_encoding.md R95: data of one distinct symbol, from any state, gives the blob 00 01 s and the
count in 8 bytes, the record of 1 and true, no tree and no codes. -/
def Obligations.CompressOfOneSymbol : Prop :=
  ∀ (s : State) (b : Byte) (n : Nat), s.argIn = List.replicate (n + 1) b → n + 1 ≤ s.params.maxInputLen → n + 1 < 2 ^ 64 →
    ∃ t, exec .orCompress s = .next t ∧ EndedOk s t ∧
      t.res.out.length = 11 ∧ t.res.out.take 3 = [0, 1, b] ∧ beValue (t.res.out.drop 3) = n + 1 ∧
      t.res.statSymbolCount = 1 ∧ t.res.statSingle = true ∧
      t.ft = [(b, n + 1)] ∧ t.tb = TreeUnit.empty ∧ t.ct = [] ∧ t.br = Reader.empty ∧
      t.bw = { wbuf := t.res.out, wacc := 0, wcnt := 0 } ∧ t.orch.phase = .idle ∧ t.orch.dout = []

/-- 44_orchestrator.md R214, R215, R234, 30_encoding.md R94: data of two or more distinct symbols, from any state, gives the packed table
followed by PackBits of the bytes' codes in input order, the record of |T| and false, and leaves table, tree and codes. -/
def Obligations.CompressOfSeveralSymbols : Prop :=
  ∀ s : State, 2 ≤ distinct (buildTable s.argIn) → s.argIn.length ≤ s.params.maxInputLen →
    ∃ t M, exec .orCompress s = .next t ∧ EndedOk s t ∧
      t.ft = buildTable s.argIn ∧ t.tb = treeOf s.params t.ft ∧ t.ct = deriveCodes t.tb ∧
      packTable t.ft = .ok M ∧ t.res.out = M ++ packBits (payloadBits t.ct s.argIn) ∧
      t.res.statSymbolCount.toNat = distinct t.ft ∧ t.res.statSingle = false ∧
      (∀ b ∈ s.argIn, 1 ≤ ctLen t.ct b) ∧
      t.bw = { wbuf := t.res.out, wacc := 0, wcnt := 0 } ∧ t.br = Reader.empty ∧
      t.orch.phase = .idle ∧ t.orch.dout = []

/-- 44_orchestrator.md R230, the compress half: OR_COMPRESS gives the blob that the host-issued sequence RESET, FT_BUILD, then with two or
more keys TB_BUILD and CT_DERIVE, FT_PACK, BW_WBYTES, then with two or more keys the bits of every byte's code, BW_FLUSH, BW_GET gives. -/
def Obligations.CompressEqualsTheCommandSequence : Prop :=
  ∀ (s : State) (data : List Byte), data ≠ [] → data.length ≤ s.params.maxInputLen → data.length ≤ maxArgIn →
    let several : Bool := decide (2 ≤ distinct (buildTable data))
    let head := [hostCommand .reset [], hostCommand .ftBuild data] ++
      (if several then [hostCommand .tbBuild [], hostCommand .ctDerive []] else []) ++ [hostCommand .ftPack []]
    ∃ t, runSteps head.length { s with pending := head } = .next t ∧
      let tail := [hostCommand .bwWbytes t.res.out] ++
        (if several then (payloadBits t.ct data).map fun x => hostCommand (.bwWbit x) [] else []) ++
        [hostCommand .bwFlush [], hostCommand .bwGet []]
      ∃ u v, runSteps tail.length { t with pending := tail } = .next u ∧
        exec .orCompress { s with argIn := data } = .next v ∧ v.status = .done ∧ u.status = .done ∧ v.res.out = u.res.out

/-- 44_orchestrator.md R221, 60_exceptions.md R243, R248, R249: a blob whose metadata cannot be read in full ends OR_DECOMPRESS, in every
status, in the error of FT_UNPACK, with PHASE at P_FAILED. -/
def Obligations.UnreadableMetadataFails : Prop :=
  ∀ s : State, s.argIn ≠ [] →
    let N := beValue (s.argIn.take 2)
    (s.argIn.length < 2 →
      ∃ t, exec .orDecompress s = .next t ∧ EndedInError s t 2 none ∧ t.orch.phase = .failed) ∧
    (2 ≤ s.argIn.length → s.argIn.length < 2 + 9 * N →
      ∃ t, exec .orDecompress s = .next t ∧ EndedInError s t 3 (some ((s.argIn.length - 2) / 9)) ∧ t.orch.phase = .failed)

/-- 44_orchestrator.md R223, R234: when the unpacked table has one key, the output is count repetitions of it, no tree is built and no
bit is read; a count above OUT_LIMIT is refused (93_implementation_defined.md U7). -/
def Obligations.DecompressOfOneKeyRepeatsIt : Prop :=
  ∀ (s : State) (b : Byte) (c n : Nat) (r : Reader),
    s.argIn ≠ [] → unpackTable (loadReader s.argIn) = .ok ([(b, c)], n, r) →
    ((∀ m, s.params.outLimit = some m → c ≤ m) →
      ∃ t, exec .orDecompress s = .next t ∧ EndedOk s t ∧
        t.res.out = List.replicate c b ∧ t.orch.dout = t.res.out ∧ t.orch.phase = .idle ∧
        t.br = r ∧ r.rdata = s.argIn ∧ r.rpos = n ∧ r.rcnt = 0 ∧
        t.ft = [(b, c)] ∧ t.tb = TreeUnit.empty ∧ t.ct = [] ∧ t.bw = Writer.empty) ∧
    (∀ m, s.params.outLimit = some m → m < c → exec .orDecompress s = .refused .outputTooLong)

/-- 44_orchestrator.md R224: a blob whose N is 0 decompresses to the empty sequence, no error, whatever follows. -/
def Obligations.DecompressOfNoEntriesIsEmpty : Prop :=
  ∀ s : State, s.argIn.take 2 = [0, 0] →
    ∃ t, exec .orDecompress s = .next t ∧ EndedOk s t ∧ t.res.out = [] ∧ t.ft = [] ∧ t.tb = TreeUnit.empty ∧
      t.ct = [] ∧ t.bw = Writer.empty ∧ t.orch.phase = .idle ∧ t.orch.walk = 0 ∧ t.orch.expected = 0 ∧ t.orch.emitted = 0

/-- 44_orchestrator.md R225 to R228, R234: with two or more keys the output is the longest sequence of at most EXPECTED = total(T)
symbols whose codes, one after another, begin the payload's bits: the walk stops at EXPECTED or where the bits run out, with no error, and
reads no bit past the last symbol. -/
def Obligations.DecompressDecodesThePayload : Prop :=
  ∀ (s : State) (T : FreqTable) (n : Nat) (r : Reader),
    s.argIn ≠ [] → unpackTable (loadReader s.argIn) = .ok (T, n, r) → 2 ≤ distinct T →
    (∀ m, s.params.outLimit = some m → total T ≤ m ∨ 8 * (s.argIn.length - n) ≤ m) →
    let payload := streamBits (s.argIn.drop n)
    let C := deriveCodes (treeOf s.params T)
    ∃ t, exec .orDecompress s = .next t ∧ EndedOk s t ∧
      payloadBits C t.res.out <+: payload ∧ (∀ b ∈ t.res.out, ftPresent T b = true) ∧
      t.res.out.length ≤ total T ∧ t.res.out.length ≤ 8 * (s.argIn.length - n) ∧
      (t.res.out.length < total T → ∀ b, ftPresent T b = true → ¬ payloadBits C (t.res.out ++ [b]) <+: payload) ∧
      (t.res.out.length = total T → 8 * (t.br.rpos - n) - t.br.rcnt = (payloadBits C t.res.out).length) ∧
      t.orch.expected = total T ∧ t.orch.emitted = t.res.out.length ∧ t.orch.dout = t.res.out ∧ t.orch.phase = .idle ∧
      t.br.rdata = s.argIn ∧ t.ft = T ∧ t.tb = treeOf s.params T ∧ t.ct = [] ∧ t.bw = Writer.empty

/-- 00_scope.md R6, 93_implementation_defined.md U7, 44_orchestrator.md R223: with OUT_LIMIT set, OR_DECOMPRESS is refused exactly when the
output it would have without the limit is longer, and otherwise presents that same output. -/
def Obligations.OutputLimitRefusesLongerOutputs : Prop :=
  ∀ (s t : State) (m : Nat), s.params.outLimit = some m →
    exec .orDecompress { s with params := { s.params with outLimit := none } } = .next t → t.status = .done →
    (m < t.res.out.length → exec .orDecompress s = .refused .outputTooLong) ∧
    (t.res.out.length ≤ m → ∃ v, exec .orDecompress s = .next v ∧ v.status = .done ∧ v.res.out = t.res.out)

/-- 44_orchestrator.md R231, the round trip: what OR_COMPRESS presents, OR_DECOMPRESS of any instance, in any state, turns back into the
data, for every non-empty data the compressor accepts (OUT_LIMIT permitting), under every TIE_ORDER, the same for both commands
(42_treebuilder.md R177 (d), 70_reset_and_hazards.md R284). -/
def Obligations.DecompressOfCompressIsTheData : Prop :=
  ∀ s : State, s.argIn ≠ [] → s.argIn.length ≤ s.params.maxInputLen → s.argIn.length ≤ maxArgIn →
    ∃ t, exec .orCompress s = .next t ∧ t.status = .done ∧
      ∀ u : State, u.argIn = t.res.out → u.params.tieRanks = s.params.tieRanks →
        (∀ m, u.params.outLimit = some m → s.argIn.length ≤ m) →
        ∃ v, exec .orDecompress u = .next v ∧ v.status = .done ∧ v.res.out = s.argIn

/-- 44_orchestrator.md R228, R229: with bytes after the blob the output is still the data, and with the payload cut short anywhere
it is the beginning of the data, in both cases with no error, under every TIE_ORDER, the same for both commands (42_treebuilder.md
R177 (d)). -/
def Obligations.ExtraBytesIgnoredMissingBytesTruncate : Prop :=
  ∀ s : State, 2 ≤ distinct (buildTable s.argIn) → s.argIn.length ≤ s.params.maxInputLen → s.argIn.length ≤ maxArgIn →
    ∃ t, exec .orCompress s = .next t ∧ t.status = .done ∧
      (∀ (u : State) (extra : List Byte), u.argIn = t.res.out ++ extra →
        u.params.tieRanks = s.params.tieRanks → (∀ m, u.params.outLimit = some m → s.argIn.length ≤ m) →
        ∃ v, exec .orDecompress u = .next v ∧ v.status = .done ∧ v.res.out = s.argIn) ∧
      (∀ (u : State) (k : Nat), u.argIn = t.res.out.take k → 2 + 9 * distinct t.ft ≤ k →
        u.params.tieRanks = s.params.tieRanks → (∀ m, u.params.outLimit = some m → s.argIn.length ≤ m) →
        ∃ v, exec .orDecompress u = .next v ∧ v.status = .done ∧ v.res.out <+: s.argIn)

/-- 44_orchestrator.md R210: the outcome of an orchestrator command depends on ARG_IN and the parameters only, whatever the state and
STATUS were before. -/
def Obligations.OrchestratorStartsFromAFreshInstance : Prop :=
  ∀ (i : Instr) (s u : State), i = .orCompress ∨ i = .orDecompress → u.argIn = s.argIn → u.params = s.params →
    (∀ r, exec i s = .refused r → exec i u = .refused r) ∧
    (∀ t, exec i s = .next t →
      ∃ v, exec i u = .next v ∧ v.status = t.status ∧ v.err = t.err ∧ v.errInfo = t.errInfo ∧
        (t.status = .done →
          v.res.out = t.res.out ∧
          (i = .orCompress → v.res.statSymbolCount = t.res.statSymbolCount ∧ v.res.statSingle = t.res.statSingle) ∧
          v.bw = t.bw ∧ v.br = t.br ∧ v.ft = t.ft ∧ v.tb = t.tb ∧ v.ct = t.ct ∧
          v.orch.phase = t.orch.phase ∧ v.orch.walk = t.orch.walk ∧ v.orch.expected = t.orch.expected ∧
          v.orch.emitted = t.orch.emitted ∧ v.orch.dout = t.orch.dout))

/-! ### Whole-machine rules and invariants -/

/-- 20_memory.md R61: no operation that keeps the instance (every one but RESET, OR_COMPRESS and OR_DECOMPRESS, which begin with a reset)
and ends without error overwrites a byte of WBUF or DOUT, writes ARG_IN, or, BR_LOAD apart, writes RDATA. -/
def Obligations.BuffersOnlyGrow : Prop :=
  ∀ (i : Instr) (s t : State), exec i s = .next t → t.status ≠ .failed →
    i ≠ .reset → i ≠ .orCompress → i ≠ .orDecompress →
    s.bw.wbuf <+: t.bw.wbuf ∧ t.orch.dout = s.orch.dout ∧ t.argIn = s.argIn ∧ (i ≠ .brLoad → t.br.rdata = s.br.rdata)

/-- The registers of 10_state.md R22 to R29 and R37 are in their ranges at reset. -/
def Obligations.ResetRegistersInRange : Prop := RangeInv State.reset

/-- 10_state.md R22, R25, R27, R29, R37: every step keeps every register in its range (fault record consistent, WACC < 2^WCNT,
RPOS <= len(RDATA), canonical table of 64-bit counts, EMITTED <= EXPECTED < 2^72). -/
def Obligations.StepKeepsRegistersInRange : Prop :=
  ∀ s t : State, RangeInv s → step s = .next t → RangeInv t

/-- The tree and code invariants of 10_state.md R32 and R36 hold at reset. -/
def Obligations.ResetTreeAndCodesWellFormed : Prop := TreeInv State.reset

/-- 10_state.md R31, R32, R34 to R36: every step keeps the arena a full binary tree in range or absent, the queue empty, the code table a
prefix code with codes of 1 to 255 bits, and WALK an arena index. -/
def Obligations.StepKeepsTreeAndCodesWellFormed : Prop :=
  ∀ s t : State, TreeInv s → step s = .next t → TreeInv t

/-! ### The open parameters -/

/-- 42_treebuilder.md R177 (a), (b), R175: whatever TIE_ORDER a machine is given, it is admissible for the build of every table: it refines
weight and is a strict total order on the nodes of the build. The default is weight, then oid. -/
def Obligations.EveryTieOrderIsAdmissible : Prop :=
  (∀ (c : Config.TieRanks) (T : FreqTable), FreqOk T → Admissible (tieOrderFor c T) T) ∧
  (∀ (T : FreqTable) (x y : Node),
    tieOrderFor [] T x y = true ↔ x.weight < y.weight ∨ (x.weight = y.weight ∧ x.oid < y.oid))

/-- 42_treebuilder.md R177, 00_scope.md R6: TIE_ORDER is open. Whatever admissible order is chosen for each of some tables, there is a
value of the machine's parameter under which it builds those tables' trees (that the parameter is a list of ranks is the model's
choice, log 12). -/
def Obligations.EveryAdmissibleOrderIsATieOrder : Prop :=
  ∀ (lt : FreqTable → TieOrder) (Ts : List FreqTable), (∀ T ∈ Ts, FreqOk T ∧ Admissible (lt T) T) →
    ∃ c : Config.TieRanks, ∀ T ∈ Ts, ∀ p : Config.Params, p.tieRanks = c → treeOf p T = buildTree (lt T) T

/-- 43_codetable_stats.md R196, R195, R197, R199, 00_scope.md R6, for every number format NUM: RES_NUM shows NUM(0) at reset and where a
rule returns NUM(0); it shows NUM(v) and nothing else for a statistic of value v > 0, and a zero of the format for a value of 0, whose
sign is not fixed (93_implementation_defined.md U9); no value is below 0; and of two statistics of one state the lesser is not shown as
the greater. The exact values v are O35 to O37's. -/
def Obligations.PortShowsNumOfTheStatistic : Prop :=
  ∀ (F : Type) (N : Config.NumFormat F),
    (∀ x, resNumShows N State.reset x ↔ x = N.num 0) ∧
    ∀ s : State, s.status ≠ .failed →
      ∃ h l t, exec .stEntropy s = .next h ∧ exec .stAvglen s = .next l ∧ exec .stEff s = .next t ∧
        (total s.ft = 0 → ∀ u ∈ [h, l, t], ∀ x, resNumShows N u x ↔ x = N.num 0) ∧
        (l.res.num.toReal = 0 → ∀ x, resNumShows N t x ↔ x = N.num 0) ∧
        (∀ u ∈ [h, l, t],
          0 ≤ u.res.num.toReal ∧ resNumShows N u (N.num u.res.num.toReal) ∧
          (0 < u.res.num.toReal → ∀ x, resNumShows N u x → x = N.num u.res.num.toReal) ∧
          (u.res.num.toReal = 0 → ∀ x, resNumShows N u x → N.isZero x) ∧
          ∀ v ∈ [h, l, t], u.res.num.toReal ≤ v.res.num.toReal → N.le (N.num u.res.num.toReal) (N.num v.res.num.toReal))

/-- 10_state.md R40, 00_scope.md R6, 42_treebuilder.md R177 (d): the parameters are no state of an instance: no step changes one, so one
TIE_ORDER serves every command of a run. -/
def Obligations.NoStepChangesTheParameters : Prop :=
  ∀ s t : State, step s = .next t → t.params = s.params
end

