-- ==== Sys2Proof/Laws/State.lean ====
section
/-! SUPPORT. What each update of the state leaves in each field: one lemma per field and update, so that no proof unfolds a record. -/

namespace Sys2Proof.Machine

open Sys2Proof

/-! ### finish -/

@[simp] theorem finish_params (s : State) (p : Results → Results) : (finish s p).params = s.params := rfl
@[simp] theorem finish_pending (s : State) (p : Results → Results) : (finish s p).pending = s.pending := rfl
@[simp] theorem finish_argLen (s : State) (p : Results → Results) : (finish s p).argLen = s.argLen := rfl
@[simp] theorem finish_argIn (s : State) (p : Results → Results) : (finish s p).argIn = s.argIn := rfl
@[simp] theorem finish_free (s : State) (p : Results → Results) : (finish s p).free = s.free + 1 := rfl
@[simp] theorem finish_status (s : State) (p : Results → Results) : (finish s p).status = .done := rfl
@[simp] theorem finish_err (s : State) (p : Results → Results) : (finish s p).err = 0 := rfl
@[simp] theorem finish_errInfo (s : State) (p : Results → Results) : (finish s p).errInfo = none := rfl
@[simp] theorem finish_res (s : State) (p : Results → Results) : (finish s p).res = p (Config.freeResults s.free) := rfl
@[simp] theorem finish_bw (s : State) (p : Results → Results) : (finish s p).bw = s.bw := rfl
@[simp] theorem finish_br (s : State) (p : Results → Results) : (finish s p).br = s.br := rfl
@[simp] theorem finish_ft (s : State) (p : Results → Results) : (finish s p).ft = s.ft := rfl
@[simp] theorem finish_tb (s : State) (p : Results → Results) : (finish s p).tb = s.tb := rfl
@[simp] theorem finish_ct (s : State) (p : Results → Results) : (finish s p).ct = s.ct := rfl
@[simp] theorem finish_orch (s : State) (p : Results → Results) : (finish s p).orch = s.orch := rfl

/-! ### raiseError -/

@[simp] theorem raiseError_params (e : Err) (o : Bool) (s : State) : (raiseError e o s).params = s.params := rfl
@[simp] theorem raiseError_pending (e : Err) (o : Bool) (s : State) : (raiseError e o s).pending = s.pending := rfl
@[simp] theorem raiseError_argLen (e : Err) (o : Bool) (s : State) : (raiseError e o s).argLen = s.argLen := rfl
@[simp] theorem raiseError_argIn (e : Err) (o : Bool) (s : State) : (raiseError e o s).argIn = s.argIn := rfl
@[simp] theorem raiseError_free (e : Err) (o : Bool) (s : State) : (raiseError e o s).free = s.free + 1 := rfl
@[simp] theorem raiseError_status (e : Err) (o : Bool) (s : State) : (raiseError e o s).status = .failed := rfl
@[simp] theorem raiseError_err (e : Err) (o : Bool) (s : State) : (raiseError e o s).err = errCode e := rfl
@[simp] theorem raiseError_errInfo (e : Err) (o : Bool) (s : State) : (raiseError e o s).errInfo = errInfoOf e := rfl
@[simp] theorem raiseError_res (e : Err) (o : Bool) (s : State) : (raiseError e o s).res = (Config.freeUnits s.free).res := rfl
@[simp] theorem raiseError_bw (e : Err) (o : Bool) (s : State) : (raiseError e o s).bw = (Config.freeUnits s.free).bw := rfl
@[simp] theorem raiseError_br (e : Err) (o : Bool) (s : State) : (raiseError e o s).br = (Config.freeUnits s.free).br := rfl
@[simp] theorem raiseError_ft (e : Err) (o : Bool) (s : State) : (raiseError e o s).ft = (Config.freeUnits s.free).ft := rfl
@[simp] theorem raiseError_tb (e : Err) (o : Bool) (s : State) : (raiseError e o s).tb = (Config.freeUnits s.free).tb := rfl
@[simp] theorem raiseError_ct (e : Err) (o : Bool) (s : State) : (raiseError e o s).ct = (Config.freeUnits s.free).ct := rfl
@[simp] theorem raiseError_orch_primitive (e : Err) (s : State) :
    (raiseError e false s).orch = (Config.freeUnits s.free).orch := rfl
@[simp] theorem raiseError_orch_orchestrator (e : Err) (s : State) :
    (raiseError e true s).orch = { (Config.freeUnits s.free).orch with phase := .failed } := rfl

/-! ### raiseIllegal -/

@[simp] theorem raiseIllegal_params (w : Byte) (s : State) : (raiseIllegal w s).params = s.params := rfl
@[simp] theorem raiseIllegal_pending (w : Byte) (s : State) : (raiseIllegal w s).pending = s.pending := rfl
@[simp] theorem raiseIllegal_argLen (w : Byte) (s : State) : (raiseIllegal w s).argLen = s.argLen := rfl
@[simp] theorem raiseIllegal_argIn (w : Byte) (s : State) : (raiseIllegal w s).argIn = s.argIn := rfl
@[simp] theorem raiseIllegal_free (w : Byte) (s : State) : (raiseIllegal w s).free = s.free := rfl
@[simp] theorem raiseIllegal_status (w : Byte) (s : State) : (raiseIllegal w s).status = .failed := rfl
@[simp] theorem raiseIllegal_err (w : Byte) (s : State) : (raiseIllegal w s).err = 5 := rfl
@[simp] theorem raiseIllegal_errInfo (w : Byte) (s : State) : (raiseIllegal w s).errInfo = some w.toNat := rfl
@[simp] theorem raiseIllegal_res (w : Byte) (s : State) : (raiseIllegal w s).res = s.res := rfl
@[simp] theorem raiseIllegal_bw (w : Byte) (s : State) : (raiseIllegal w s).bw = s.bw := rfl
@[simp] theorem raiseIllegal_br (w : Byte) (s : State) : (raiseIllegal w s).br = s.br := rfl
@[simp] theorem raiseIllegal_ft (w : Byte) (s : State) : (raiseIllegal w s).ft = s.ft := rfl
@[simp] theorem raiseIllegal_tb (w : Byte) (s : State) : (raiseIllegal w s).tb = s.tb := rfl
@[simp] theorem raiseIllegal_ct (w : Byte) (s : State) : (raiseIllegal w s).ct = s.ct := rfl
@[simp] theorem raiseIllegal_orch (w : Byte) (s : State) : (raiseIllegal w s).orch = s.orch := rfl

/-! ### freshInstance -/

@[simp] theorem freshInstance_params (s : State) : (freshInstance s).params = s.params := rfl
@[simp] theorem freshInstance_pending (s : State) : (freshInstance s).pending = s.pending := rfl
@[simp] theorem freshInstance_argLen (s : State) : (freshInstance s).argLen = s.argLen := rfl
@[simp] theorem freshInstance_argIn (s : State) : (freshInstance s).argIn = s.argIn := rfl
@[simp] theorem freshInstance_free (s : State) : (freshInstance s).free = s.free := rfl
@[simp] theorem freshInstance_status (s : State) : (freshInstance s).status = .idle := rfl
@[simp] theorem freshInstance_err (s : State) : (freshInstance s).err = 0 := rfl
@[simp] theorem freshInstance_errInfo (s : State) : (freshInstance s).errInfo = none := rfl
@[simp] theorem freshInstance_res (s : State) : (freshInstance s).res = Results.zero := rfl
@[simp] theorem freshInstance_bw (s : State) : (freshInstance s).bw = Writer.empty := rfl
@[simp] theorem freshInstance_br (s : State) : (freshInstance s).br = Reader.empty := rfl
@[simp] theorem freshInstance_ft (s : State) : (freshInstance s).ft = [] := rfl
@[simp] theorem freshInstance_tb (s : State) : (freshInstance s).tb = TreeUnit.empty := rfl
@[simp] theorem freshInstance_ct (s : State) : (freshInstance s).ct = [] := rfl
@[simp] theorem freshInstance_orch (s : State) : (freshInstance s).orch = Orch.idle := rfl

/-! ### enterPhase -/

@[simp] theorem enterPhase_params (p : Phase) (s : State) : (enterPhase p s).params = s.params := rfl
@[simp] theorem enterPhase_pending (p : Phase) (s : State) : (enterPhase p s).pending = s.pending := rfl
@[simp] theorem enterPhase_argLen (p : Phase) (s : State) : (enterPhase p s).argLen = s.argLen := rfl
@[simp] theorem enterPhase_argIn (p : Phase) (s : State) : (enterPhase p s).argIn = s.argIn := rfl
@[simp] theorem enterPhase_free (p : Phase) (s : State) : (enterPhase p s).free = s.free := rfl
@[simp] theorem enterPhase_status (p : Phase) (s : State) : (enterPhase p s).status = s.status := rfl
@[simp] theorem enterPhase_err (p : Phase) (s : State) : (enterPhase p s).err = s.err := rfl
@[simp] theorem enterPhase_errInfo (p : Phase) (s : State) : (enterPhase p s).errInfo = s.errInfo := rfl
@[simp] theorem enterPhase_res (p : Phase) (s : State) : (enterPhase p s).res = s.res := rfl
@[simp] theorem enterPhase_bw (p : Phase) (s : State) : (enterPhase p s).bw = s.bw := rfl
@[simp] theorem enterPhase_br (p : Phase) (s : State) : (enterPhase p s).br = s.br := rfl
@[simp] theorem enterPhase_ft (p : Phase) (s : State) : (enterPhase p s).ft = s.ft := rfl
@[simp] theorem enterPhase_tb (p : Phase) (s : State) : (enterPhase p s).tb = s.tb := rfl
@[simp] theorem enterPhase_ct (p : Phase) (s : State) : (enterPhase p s).ct = s.ct := rfl
@[simp] theorem enterPhase_orch (p : Phase) (s : State) : (enterPhase p s).orch = { s.orch with phase := p } := rfl

/-! ### spendIcur -/

@[simp] theorem spendIcur_params (s : State) : (spendIcur s).params = s.params := rfl
@[simp] theorem spendIcur_pending (s : State) : (spendIcur s).pending = s.pending := rfl
@[simp] theorem spendIcur_argLen (s : State) : (spendIcur s).argLen = s.argLen := rfl
@[simp] theorem spendIcur_argIn (s : State) : (spendIcur s).argIn = s.argIn := rfl
@[simp] theorem spendIcur_free (s : State) : (spendIcur s).free = s.free := rfl
@[simp] theorem spendIcur_status (s : State) : (spendIcur s).status = s.status := rfl
@[simp] theorem spendIcur_err (s : State) : (spendIcur s).err = s.err := rfl
@[simp] theorem spendIcur_errInfo (s : State) : (spendIcur s).errInfo = s.errInfo := rfl
@[simp] theorem spendIcur_res (s : State) : (spendIcur s).res = s.res := rfl
@[simp] theorem spendIcur_bw (s : State) : (spendIcur s).bw = s.bw := rfl
@[simp] theorem spendIcur_br (s : State) : (spendIcur s).br = s.br := rfl
@[simp] theorem spendIcur_ft (s : State) : (spendIcur s).ft = s.ft := rfl
@[simp] theorem spendIcur_tb (s : State) : (spendIcur s).tb = s.tb := rfl
@[simp] theorem spendIcur_ct (s : State) : (spendIcur s).ct = s.ct := rfl
@[simp] theorem spendIcur_orch (s : State) : (spendIcur s).orch = { s.orch with icur := (Config.freeCursors s.free).icur } := rfl

/-! ### spendEcur -/

@[simp] theorem spendEcur_params (s : State) : (spendEcur s).params = s.params := rfl
@[simp] theorem spendEcur_pending (s : State) : (spendEcur s).pending = s.pending := rfl
@[simp] theorem spendEcur_argLen (s : State) : (spendEcur s).argLen = s.argLen := rfl
@[simp] theorem spendEcur_argIn (s : State) : (spendEcur s).argIn = s.argIn := rfl
@[simp] theorem spendEcur_free (s : State) : (spendEcur s).free = s.free := rfl
@[simp] theorem spendEcur_status (s : State) : (spendEcur s).status = s.status := rfl
@[simp] theorem spendEcur_err (s : State) : (spendEcur s).err = s.err := rfl
@[simp] theorem spendEcur_errInfo (s : State) : (spendEcur s).errInfo = s.errInfo := rfl
@[simp] theorem spendEcur_res (s : State) : (spendEcur s).res = s.res := rfl
@[simp] theorem spendEcur_bw (s : State) : (spendEcur s).bw = s.bw := rfl
@[simp] theorem spendEcur_br (s : State) : (spendEcur s).br = s.br := rfl
@[simp] theorem spendEcur_ft (s : State) : (spendEcur s).ft = s.ft := rfl
@[simp] theorem spendEcur_tb (s : State) : (spendEcur s).tb = s.tb := rfl
@[simp] theorem spendEcur_ct (s : State) : (spendEcur s).ct = s.ct := rfl
@[simp] theorem spendEcur_orch (s : State) : (spendEcur s).orch = { s.orch with ecur := (Config.freeCursors s.free).ecur } := rfl

/-! ### recordStats -/

@[simp] theorem recordStats_params (s : State) : (recordStats s).params = s.params := rfl
@[simp] theorem recordStats_pending (s : State) : (recordStats s).pending = s.pending := rfl
@[simp] theorem recordStats_argLen (s : State) : (recordStats s).argLen = s.argLen := rfl
@[simp] theorem recordStats_argIn (s : State) : (recordStats s).argIn = s.argIn := rfl
@[simp] theorem recordStats_free (s : State) : (recordStats s).free = s.free := rfl
@[simp] theorem recordStats_status (s : State) : (recordStats s).status = s.status := rfl
@[simp] theorem recordStats_err (s : State) : (recordStats s).err = s.err := rfl
@[simp] theorem recordStats_errInfo (s : State) : (recordStats s).errInfo = s.errInfo := rfl
@[simp] theorem recordStats_res (s : State) :
    (recordStats s).res = { s.res with statSymbolCount := BitVec.ofNat 9 (distinct s.ft), statSingle := singleFlag (distinct s.ft) } := rfl
@[simp] theorem recordStats_bw (s : State) : (recordStats s).bw = s.bw := rfl
@[simp] theorem recordStats_br (s : State) : (recordStats s).br = s.br := rfl
@[simp] theorem recordStats_ft (s : State) : (recordStats s).ft = s.ft := rfl
@[simp] theorem recordStats_tb (s : State) : (recordStats s).tb = s.tb := rfl
@[simp] theorem recordStats_ct (s : State) : (recordStats s).ct = s.ct := rfl
@[simp] theorem recordStats_orch (s : State) : (recordStats s).orch = s.orch := rfl

/-! ### latchCommand -/

@[simp] theorem latchCommand_params (c : HostCommand) (rest : List HostCommand) (s : State) :
    (latchCommand c rest s).params = s.params := rfl
@[simp] theorem latchCommand_pending (c : HostCommand) (rest : List HostCommand) (s : State) :
    (latchCommand c rest s).pending = rest := rfl
@[simp] theorem latchCommand_argLen (c : HostCommand) (rest : List HostCommand) (s : State) :
    (latchCommand c rest s).argLen = c.argLen := rfl
@[simp] theorem latchCommand_argIn (c : HostCommand) (rest : List HostCommand) (s : State) :
    (latchCommand c rest s).argIn = c.argIn := rfl
@[simp] theorem latchCommand_free (c : HostCommand) (rest : List HostCommand) (s : State) :
    (latchCommand c rest s).free = s.free := rfl
@[simp] theorem latchCommand_status (c : HostCommand) (rest : List HostCommand) (s : State) :
    (latchCommand c rest s).status = s.status := rfl
@[simp] theorem latchCommand_err (c : HostCommand) (rest : List HostCommand) (s : State) :
    (latchCommand c rest s).err = s.err := rfl
@[simp] theorem latchCommand_errInfo (c : HostCommand) (rest : List HostCommand) (s : State) :
    (latchCommand c rest s).errInfo = s.errInfo := rfl
@[simp] theorem latchCommand_res (c : HostCommand) (rest : List HostCommand) (s : State) :
    (latchCommand c rest s).res = s.res := rfl
@[simp] theorem latchCommand_bw (c : HostCommand) (rest : List HostCommand) (s : State) : (latchCommand c rest s).bw = s.bw := rfl
@[simp] theorem latchCommand_br (c : HostCommand) (rest : List HostCommand) (s : State) : (latchCommand c rest s).br = s.br := rfl
@[simp] theorem latchCommand_ft (c : HostCommand) (rest : List HostCommand) (s : State) : (latchCommand c rest s).ft = s.ft := rfl
@[simp] theorem latchCommand_tb (c : HostCommand) (rest : List HostCommand) (s : State) : (latchCommand c rest s).tb = s.tb := rfl
@[simp] theorem latchCommand_ct (c : HostCommand) (rest : List HostCommand) (s : State) : (latchCommand c rest s).ct = s.ct := rfl
@[simp] theorem latchCommand_orch (c : HostCommand) (rest : List HostCommand) (s : State) :
    (latchCommand c rest s).orch = s.orch := rfl

/-! ### The fetch -/

@[simp] theorem withFetchWord_pending (s : State) (w : Nat) :
    (s.withFetchWord 8 w).pending = { cmd := BitVec.ofNat 8 (w % 2 ^ 8), argLen := 0, argIn := [] } :: s.pending := rfl

/-! ### The reset values of the units -/

@[simp] theorem Writer.empty_wbuf : Writer.empty.wbuf = [] := rfl
@[simp] theorem Writer.empty_wacc : Writer.empty.wacc = 0 := rfl
@[simp] theorem Writer.empty_wcnt : Writer.empty.wcnt = 0 := rfl
@[simp] theorem TreeUnit.empty_nodes : TreeUnit.empty.nodes = [] := rfl
@[simp] theorem TreeUnit.empty_present : TreeUnit.empty.present = false := rfl
@[simp] theorem TreeUnit.empty_root : TreeUnit.empty.root = 0 := rfl
@[simp] theorem TreeUnit.empty_merges : TreeUnit.empty.merges = 0 := rfl
@[simp] theorem TreeUnit.empty_pq : TreeUnit.empty.pq = [] := rfl
@[simp] theorem Orch.idle_phase : Orch.idle.phase = .idle := rfl
@[simp] theorem loadReader_empty : loadReader [] = Reader.empty := rfl

end Sys2Proof.Machine
end

