-- ==== Sys2Proof/Laws/SymTable.lean ====
section
/-! SUPPORT. Symbol tables: what finding and putting do, that putting keeps the canonical form, and that equal contents are equal
tables. -/

namespace Sys2Proof.Machine

open Sys2Proof

variable {α : Type}

@[simp] theorem symFind_nil (s : Byte) : symFind ([] : SymTable α) s = none := rfl

@[simp] theorem symPut_nil (s : Byte) (v : α) : symPut [] s v = [(s, v)] := rfl

theorem symFind_cons (e : Byte × α) (t : SymTable α) (s : Byte) :
    symFind (e :: t) s = if s = e.1 then some e.2 else symFind t s := rfl

theorem symWf_nil : symWf ([] : SymTable α) := List.Pairwise.nil

theorem symWf_cons (e : Byte × α) (t : SymTable α) :
    symWf (e :: t) ↔ (∀ f ∈ t, e.1.toNat < f.1.toNat) ∧ symWf t := by
  rw [symWf, List.map_cons, List.pairwise_cons, List.forall_mem_map]

theorem symWf_tail {e : Byte × α} {t : SymTable α} (h : symWf (e :: t)) : symWf t := ((symWf_cons e t).1 h).2

/-- A key below every listed key is not found. -/
theorem symFind_eq_none_of_lt (s : Byte) (t : SymTable α) (h : ∀ f ∈ t, s.toNat < f.1.toNat) : symFind t s = none := by
  induction t with
  | nil => rfl
  | cons e t ih =>
    have hne : s ≠ e.1 := fun he => by have := h e (by simp); rw [he] at this; omega
    rw [symFind_cons, if_neg hne]
    exact ih fun f hf => h f (List.mem_cons_of_mem _ hf)

theorem mem_of_symFind {t : SymTable α} {s : Byte} {v : α} (h : symFind t s = some v) : (s, v) ∈ t := by
  induction t with
  | nil => cases h
  | cons e t ih =>
    rw [symFind_cons] at h
    split at h
    · next hs => cases h; subst hs; simp
    · exact List.mem_cons_of_mem _ (ih h)

/-- In a canonical table an entry is listed exactly when finding its key gives its value. -/
theorem symFind_eq_some_iff {t : SymTable α} (hw : symWf t) (s : Byte) (v : α) : symFind t s = some v ↔ (s, v) ∈ t := by
  refine ⟨mem_of_symFind, fun h => ?_⟩
  induction t with
  | nil => cases h
  | cons e t ih =>
    obtain ⟨hlt, hw'⟩ := (symWf_cons e t).1 hw
    rw [symFind_cons]
    rcases List.mem_cons.1 h with rfl | h
    · simp
    · have hne : s ≠ e.1 := fun he => by have := hlt _ h; simp only [he] at this; omega
      rw [if_neg hne]
      exact ih hw' h

theorem symFind_isSome_iff {t : SymTable α} (s : Byte) : (symFind t s).isSome = true ↔ s ∈ t.map Prod.fst := by
  induction t with
  | nil => simp
  | cons e t ih =>
    rw [symFind_cons]
    split
    · next hs => simp [hs]
    · next hs => simp only [ih, List.map_cons, List.mem_cons, hs, false_or]

/-- Putting a key gives it the value and leaves every other key as it was. -/
theorem symFind_symPut (t : SymTable α) (s k : Byte) (v : α) :
    symFind (symPut t s v) k = if k = s then some v else symFind t k := by
  induction t with
  | nil => simp [symFind_cons]
  | cons e t ih =>
    obtain ⟨x, w⟩ := e
    simp only [symPut]
    split
    · rw [symFind_cons]
    · split
      · next hs =>
        subst hs
        simp only [symFind_cons]
        split <;> rfl
      · next hs =>
        simp only [symFind_cons, ih]
        by_cases hk : k = x
        · subst hk
          rw [if_pos rfl, if_neg fun h => hs h.symm, if_pos rfl]
        · simp [hk]

@[simp] theorem symFind_symPut_same (t : SymTable α) (s : Byte) (v : α) : symFind (symPut t s v) s = some v := by
  rw [symFind_symPut, if_pos rfl]

theorem symFind_symPut_other (t : SymTable α) {s k : Byte} (v : α) (h : k ≠ s) :
    symFind (symPut t s v) k = symFind t k := by
  rw [symFind_symPut, if_neg h]

theorem mem_symPut {t : SymTable α} {s : Byte} {v : α} {e : Byte × α} (h : e ∈ symPut t s v) : e = (s, v) ∨ e ∈ t := by
  induction t with
  | nil => simpa using h
  | cons f t ih =>
    obtain ⟨x, w⟩ := f
    simp only [symPut] at h
    split at h
    · simpa using h
    · split at h
      · rcases List.mem_cons.1 h with h | h
        · exact .inl h
        · exact .inr (List.mem_cons_of_mem _ h)
      · rcases List.mem_cons.1 h with h | h
        · exact .inr (h ▸ List.mem_cons_self)
        · rcases ih h with h | h
          · exact .inl h
          · exact .inr (List.mem_cons_of_mem _ h)

theorem byte_eq_of_toNat {a b : Byte} (h : a.toNat = b.toNat) : a = b := BitVec.eq_of_toNat_eq h

/-- Putting a key keeps the canonical form. -/
theorem symWf_symPut {t : SymTable α} (s : Byte) (v : α) (hw : symWf t) : symWf (symPut t s v) := by
  induction t with
  | nil => simp [symWf]
  | cons e t ih =>
    obtain ⟨x, w⟩ := e
    obtain ⟨hlt, hw'⟩ := (symWf_cons _ t).1 hw
    simp only [symPut]
    split
    · next hs =>
      refine (symWf_cons _ _).2 ⟨fun f hf => ?_, hw⟩
      rcases List.mem_cons.1 hf with rfl | hf
      · exact hs
      · have := hlt f hf; simp only at this ⊢; omega
    · next hs =>
      split
      · next he => subst he; exact (symWf_cons _ _).2 ⟨hlt, hw'⟩
      · next he =>
        have hxs : x.toNat < s.toNat := by
          rcases Nat.lt_trichotomy s.toNat x.toNat with h | h | h
          · exact absurd h hs
          · exact absurd (byte_eq_of_toNat h) he
          · exact h
        refine (symWf_cons _ _).2 ⟨fun f hf => ?_, ih hw'⟩
        rcases mem_symPut hf with rfl | hf
        · exact hxs
        · exact hlt f hf

/-- Two canonical tables in which every key is found alike are equal. -/
theorem symTable_ext {t u : SymTable α} (ht : symWf t) (hu : symWf u) (h : ∀ k, symFind t k = symFind u k) : t = u := by
  induction t generalizing u with
  | nil =>
    cases u with
    | nil => rfl
    | cons f u => have := h f.1; simp [symFind_cons] at this
  | cons e t ih =>
    cases u with
    | nil => have := h e.1; simp [symFind_cons] at this
    | cons f u =>
      obtain ⟨hlt, ht'⟩ := (symWf_cons _ _).1 ht
      obtain ⟨hlu, hu'⟩ := (symWf_cons _ _).1 hu
      have hkey : e.1 = f.1 := by
        rcases Nat.lt_trichotomy e.1.toNat f.1.toNat with hl | hl | hl
        · have h1 := h e.1
          rw [symFind_cons, if_pos rfl, symFind_eq_none_of_lt e.1 (f :: u)] at h1
          · cases h1
          · intro g hg
            rcases List.mem_cons.1 hg with rfl | hg
            · exact hl
            · have := hlu g hg; omega
        · exact byte_eq_of_toNat hl
        · have h1 := h f.1
          rw [symFind_cons f, if_pos rfl, symFind_eq_none_of_lt f.1 (e :: t)] at h1
          · cases h1
          · intro g hg
            rcases List.mem_cons.1 hg with rfl | hg
            · exact hl
            · have := hlt g hg; omega
      have hval : e = f := by
        have h1 := h e.1
        rw [symFind_cons, if_pos rfl, symFind_cons, if_pos hkey] at h1
        exact Prod.ext hkey (Option.some.inj h1)
      subst hval
      refine congrArg _ (ih ht' hu' fun k => ?_)
      by_cases hk : k = e.1
      · subst hk
        rw [symFind_eq_none_of_lt _ t hlt, symFind_eq_none_of_lt _ u hlu]
      · have h1 := h k
        rwa [symFind_cons, if_neg hk, symFind_cons, if_neg hk] at h1

/-- The keys of a canonical table are pairwise distinct. -/
theorem symWf_keys_nodup {t : SymTable α} (hw : symWf t) : (t.map Prod.fst).Nodup := by
  have h : (t.map Prod.fst).Pairwise fun a b => a.toNat < b.toNat := by
    rw [List.pairwise_map]
    rw [symWf, List.pairwise_map] at hw
    exact hw
  exact h.imp fun hab he => by rw [he] at hab; omega

/-- A canonical table has at most 256 keys. -/
theorem symWf_length {t : SymTable α} (hw : symWf t) : t.length ≤ 256 := by
  have hn : (t.map fun e => e.1.toNat).Nodup := hw.imp fun h => Nat.ne_of_lt h
  have hs : (t.map fun e => e.1.toNat) ⊆ List.range 256 := by
    intro n hn
    obtain ⟨e, _, rfl⟩ := List.mem_map.1 hn
    exact List.mem_range.2 (by simpa using e.1.isLt)
  have := (hn.subperm hs).length_le
  simpa using this

/-- Putting a key above every listed key appends it. -/
theorem symPut_append_of_lt (t : SymTable α) (s : Byte) (v : α) (h : ∀ f ∈ t, f.1.toNat < s.toNat) :
    symPut t s v = t ++ [(s, v)] := by
  induction t with
  | nil => rfl
  | cons e t ih =>
    obtain ⟨x, w⟩ := e
    have hx := h (x, w) (by simp)
    simp only [symPut]
    rw [if_neg (by simp only at hx; omega), if_neg (fun he => by subst he; simp only at hx; omega),
      ih fun f hf => h f (List.mem_cons_of_mem _ hf)]
    rfl

/-- Putting the entries of a canonical table one after another rebuilds it. -/
theorem foldl_symPut_of_wf (t u : SymTable α) (hw : symWf (u ++ t)) :
    t.foldl (fun C e => symPut C e.1 e.2) u = u ++ t := by
  induction t generalizing u with
  | nil => simp
  | cons e t ih =>
    have hlt : ∀ f ∈ u, f.1.toNat < e.1.toNat := by
      intro f hf
      rw [symWf, List.map_append, List.pairwise_append] at hw
      exact hw.2.2 _ (List.mem_map_of_mem hf) _ (by simp)
    rw [List.foldl_cons, symPut_append_of_lt u e.1 e.2 hlt, ih]
    · simp
    · simpa using hw

end Sys2Proof.Machine
end

