-- ==== Sys2Proof/Laws/Ops.lean ====
section
/-! SUPPORT. The shared operations: how a primitive command starts and ends, what an error leaves, big-endian fields. -/

namespace Sys2Proof.Machine

open Sys2Proof

/-! ### How a command starts and ends -/

theorem primitive_of_not_failed {s : State} (h : s.status ≠ .failed) (a : Answer) : primitive s a = a := if_neg h

theorem primitive_of_failed {s : State} (h : s.status = .failed) (a : Answer) : primitive s a = .refused .failedStatus := if_pos h

/-- A primitive command answers a next state only out of a status other than FAILED, and then what it goes on to. -/
theorem primitive_eq_next {s t : State} {a : Answer} : primitive s a = .next t ↔ s.status ≠ .failed ∧ a = .next t := by
  unfold primitive
  split
  · next h => simp [h]
  · next h => simp [h]

theorem primitive_eq_refused {s : State} {a : Answer} {r : Refusal} :
    primitive s a = .refused r ↔ s.status = .failed ∧ r = .failedStatus ∨ s.status ≠ .failed ∧ a = .refused r := by
  unfold primitive
  split
  · next h => simp [h, eq_comm]
  · next h => simp [h]

/-- A primitive command that ends `Ok`: everything its next state holds. -/
theorem primitive_finish_next {s u t : State} {p : Results → Results}
    (h : primitive s (.next (finish u p)) = .next t) : s.status ≠ .failed ∧ t = finish u p := by
  obtain ⟨hs, h⟩ := primitive_eq_next.1 h
  exact ⟨hs, (Host.Outcome.next.inj h).symm⟩

/-- `finish` of a state with the port's inputs of `s` ends `Ok` as seen from `s`. -/
theorem finish_endedOk {s u : State} (p : Results → Results) (h : HostSideKept s u) : EndedOk s (finish u p) :=
  ⟨rfl, rfl, rfl, h⟩

/-- An error taken in a state with the port's inputs of `s` ends with its code and info as seen from `s`. -/
theorem raiseError_endedInError {s u : State} (e : Err) (o : Bool) (h : HostSideKept s u) :
    EndedInError s (raiseError e o u) (errCode e).toNat (errInfoOf e) :=
  ⟨rfl, rfl, rfl, h⟩

theorem freshInstance_hostSideKept (s : State) : HostSideKept s (freshInstance s) := ⟨rfl, rfl, rfl, rfl⟩

/-- The fresh instance depends on the host's side, the parameters and the counter only. -/
theorem freshInstance_eq {s u : State} (hp : u.params = s.params) (hq : u.pending = s.pending) (hl : u.argLen = s.argLen)
    (ha : u.argIn = s.argIn) (hf : u.free = s.free) : freshInstance u = freshInstance s := by
  simp only [freshInstance, hp, hq, hl, ha, hf]

/-! ### Bytes of a sequence -/

theorem memRead_length {S : List Byte} {a n : Nat} (h : a + n ≤ S.length) : (memRead S a n).length = n := by
  simp only [memRead, List.length_take, List.length_drop]
  omega

@[simp] theorem memAppend_eq (S B : List Byte) : memAppend S B = S ++ B := rfl

/-! ### Big-endian fields -/

@[simp] theorem beBytes_length (k v : Nat) : (beBytes k v).length = k := by
  induction k with
  | zero => rfl
  | succ k ih => simp [beBytes, ih]

@[simp] theorem beValue_nil : beValue [] = 0 := rfl

theorem beValue_foldl (B : List Byte) (a : Nat) :
    B.foldl (fun v b => v * 256 + b.toNat) a = a * 256 ^ B.length + beValue B := by
  unfold beValue
  induction B generalizing a with
  | nil => simp
  | cons b B ih =>
    rw [List.foldl_cons, ih, List.foldl_cons, ih (0 * 256 + b.toNat), List.length_cons, Nat.pow_succ]
    ring

/-- The byte at the lowest offset is the most significant (20_memory.md R62). -/
theorem beValue_cons (b : Byte) (B : List Byte) : beValue (b :: B) = b.toNat * 256 ^ B.length + beValue B := by
  rw [beValue, List.foldl_cons, beValue_foldl]
  simp

theorem beValue_lt (B : List Byte) : beValue B < 256 ^ B.length := by
  induction B with
  | nil => simp
  | cons b B ih =>
    have hb : b.toNat < 256 := b.isLt
    rw [beValue_cons, List.length_cons, Nat.pow_succ]
    nlinarith [Nat.mul_le_mul_right (256 ^ B.length) (Nat.succ_le_of_lt hb)]

theorem beValue_beBytes_mod (k v : Nat) : beValue (beBytes k v) = v % 256 ^ k := by
  induction k with
  | zero => simp [beBytes, Nat.mod_one]
  | succ k ih =>
    rw [beBytes, beValue_cons, ih, beBytes_length, BitVec.toNat_ofNat, Nat.pow_succ 256 k, Nat.mod_mul, Nat.add_comm, Nat.mul_comm]

/-- `bytes_be` is the inverse of `be` on the values that fit (20_memory.md R62). -/
theorem beValue_beBytes {k v : Nat} (h : v < 256 ^ k) : beValue (beBytes k v) = v := by
  rw [beValue_beBytes_mod, Nat.mod_eq_of_lt h]

theorem countField_countBytes {n : Nat} (h : n < 65536) : countField (countBytes n) = n :=
  beValue_beBytes (by simpa using h)

theorem freqField_beBytes {c : Nat} (h : c < 2 ^ 64) : freqField (beBytes 8 c) = c :=
  beValue_beBytes (by norm_num at h ⊢; exact h)

@[simp] theorem countBytes_length (n : Nat) : (countBytes n).length = 2 := beBytes_length 2 n

@[simp] theorem entryBytes_length (s : Byte) (c : Nat) : (entryBytes s c).length = 9 := by simp [entryBytes]

theorem countField_lt {H : List Byte} (h : H.length = 2) : countField H < 65536 := by
  have := beValue_lt H
  rw [h] at this
  simpa [countField] using this

theorem freqField_lt {F : List Byte} (h : F.length = 8) : freqField F < 2 ^ 64 := by
  have := beValue_lt F
  rw [h] at this
  simpa [freqField] using this

end Sys2Proof.Machine
end

