-- ==== Sys2Proof/Laws/BitStream.lean ====
section
/-! SUPPORT. The bit streams as sequences of bits: what the writer has been given (`writtenBits`), what the reader will still serve
(`remainingBits`), and what each operation of 40_bitstream.md does to them. -/

namespace Sys2Proof.Machine

open Sys2Proof

/-! ### Bits of a byte -/

/-- The low n bits of a byte, the highest of them first. -/
def lowBits (n : Nat) (a : Byte) : Bits := (List.range n).map fun i => a.getLsbD (n - 1 - i)

@[simp] theorem lowBits_zero (a : Byte) : lowBits 0 a = [] := rfl

@[simp] theorem lowBits_length (n : Nat) (a : Byte) : (lowBits n a).length = n := by simp [lowBits]

theorem byteBits_eq_lowBits (a : Byte) : byteBits a = lowBits 8 a := rfl

@[simp] theorem byteBits_length (a : Byte) : (byteBits a).length = 8 := by simp [byteBits]

theorem lowBits_succ (n : Nat) (a : Byte) : lowBits (n + 1) a = a.getLsbD n :: lowBits n a := by
  simp only [lowBits, List.range_succ_eq_map, List.map_cons, List.map_map]
  refine congrArg₂ _ (by simp) (List.map_congr_left fun i _ => ?_)
  simp only [Function.comp_apply]
  congr 1
  omega

theorem getLsbD_shiftIn (a n : Nat) (b : Bool) (i : Nat) (hn : n + 1 ≤ 8) (hi : i ≤ n) :
    (BitVec.ofNat 8 (2 * a + b.toNat)).getLsbD i = if i = 0 then b else a.testBit (i - 1) := by
  have h8 : i < 8 := by omega
  rw [BitVec.getLsbD_ofNat]
  simp only [h8, decide_true, Bool.true_and]
  cases i with
  | zero => cases b <;> simp [Nat.testBit_zero, Nat.add_mod]
  | succ i =>
    rw [if_neg (Nat.succ_ne_zero i), Nat.testBit_succ, Nat.add_sub_cancel]
    congr 1
    cases b <;> (simp; try omega)

/-- Shifting a bit in at the low end puts it last (40_bitstream.md R121). -/
theorem lowBits_shiftIn (a : Byte) (n : Nat) (b : Bool) (hn : n + 1 ≤ 8) :
    lowBits (n + 1) (BitVec.ofNat 8 (2 * a.toNat + b.toNat)) = lowBits n a ++ [b] := by
  simp only [lowBits, List.range_succ, List.map_append, List.map_cons, List.map_nil]
  refine congrArg₂ _ (List.map_congr_left fun i hi => ?_) ?_
  · have hi := List.mem_range.1 hi
    rw [getLsbD_shiftIn _ n _ _ hn (by omega), if_neg (by omega)]
    show _ = a.toNat.testBit _
    congr 1
    omega
  · rw [getLsbD_shiftIn _ n _ _ hn (by omega), if_pos (by omega)]

/-- Padding at the low end puts zeros last (40_bitstream.md R124). -/
theorem byteBits_pad (a : Byte) (n : Nat) (hn : n ≤ 8) :
    byteBits (BitVec.ofNat 8 (a.toNat * 2 ^ (8 - n))) = lowBits n a ++ List.replicate (8 - n) false := by
  refine List.ext_getElem (by simp; omega) fun i h1 h2 => ?_
  have hi : i < 8 := by simpa using h1
  simp only [byteBits, List.getElem_map, List.getElem_range, BitVec.getLsbD_ofNat, Nat.testBit_mul_two_pow]
  rw [List.getElem_append]
  split
  · next h =>
    have h : i < n := by simpa using h
    have h7 : 7 - i < 8 := by omega
    have hge : 8 - n ≤ 7 - i := by omega
    simp only [h7, hge, decide_true, Bool.true_and, lowBits, List.getElem_map, List.getElem_range]
    show _ = a.toNat.testBit _
    congr 1
    omega
  · next h =>
    have h : n ≤ i := by simpa using h
    have hge : ¬ 8 - n ≤ 7 - i := by omega
    simp [hge]

theorem byteBits_injective {a b : Byte} (h : byteBits a = byteBits b) : a = b := by
  refine BitVec.eq_of_getLsbD_eq fun i hi => ?_
  have h1 := congrArg (fun l => l[7 - i]?) h
  have h7 : 7 - i < 8 := by omega
  have hii : 7 - (7 - i) = i := by omega
  simpa [byteBits, h7, hii] using h1

/-! ### Bits of a byte sequence -/

@[simp] theorem streamBits_nil : streamBits [] = [] := rfl

@[simp] theorem streamBits_cons (b : Byte) (B : List Byte) : streamBits (b :: B) = byteBits b ++ streamBits B := rfl

@[simp] theorem streamBits_append (A B : List Byte) : streamBits (A ++ B) = streamBits A ++ streamBits B := by
  simp [streamBits, List.flatMap_append]

@[simp] theorem streamBits_length (B : List Byte) : (streamBits B).length = 8 * B.length := by
  induction B with
  | nil => rfl
  | cons b B ih => simp [ih]; omega

theorem streamBits_injective {A B : List Byte} (h : streamBits A = streamBits B) : A = B := by
  induction A generalizing B with
  | nil =>
    cases B with
    | nil => rfl
    | cons b B => have := congrArg List.length h; simp at this; omega
  | cons a A ih =>
    cases B with
    | nil => have := congrArg List.length h; simp at this
    | cons b B =>
      obtain ⟨h1, h2⟩ := List.append_inj h (by simp)
      rw [byteBits_injective h1, ih h2]

theorem streamBits_drop (B : List Byte) (k : Nat) : streamBits (B.drop k) = (streamBits B).drop (8 * k) := by
  induction B generalizing k with
  | nil => simp
  | cons b B ih =>
    cases k with
    | zero => simp
    | succ k =>
      rw [List.drop_succ_cons, ih, streamBits_cons, List.drop_append]
      simp only [byteBits_length]
      rw [List.drop_eq_nil_of_le (as := byteBits b) (by rw [byteBits_length]; omega), List.nil_append]
      congr 1

/-- Bit i lies in byte i div 8 at place 7 − (i mod 8) (20_memory.md R63). -/
theorem streamBits_getElem? (B : List Byte) (i : Nat) :
    (streamBits B)[i]? = (B[i / 8]?).map fun b => b.getLsbD (7 - i % 8) := by
  induction B generalizing i with
  | nil => simp
  | cons b B ih =>
    rw [streamBits_cons]
    by_cases hi : i < 8
    · rw [List.getElem?_append_left (by simpa using hi), show i / 8 = 0 by omega, show i % 8 = i by omega]
      simp [byteBits, hi]
    · rw [List.getElem?_append_right (by simpa using Nat.le_of_not_lt hi), byteBits_length, ih,
        show i / 8 = (i - 8) / 8 + 1 by omega, show (i - 8) % 8 = i % 8 by omega]
      simp

/-! ### The writer -/

/-- All the bits the writer was given, those still pending last. -/
def writtenBits (w : Writer) : Bits := streamBits w.wbuf ++ lowBits w.wcnt w.wacc

/-- How many zero bits fill the last byte of k bits. -/
abbrev padCount (k : Nat) : Nat := (8 - k % 8) % 8

theorem writerOk_empty : WriterOk Writer.empty := by decide

@[simp] theorem writtenBits_empty : writtenBits Writer.empty = [] := rfl

theorem writeBit_ok {w : Writer} (b : Bool) (h : WriterOk w) : WriterOk (writeBit b w) := by
  obtain ⟨hc, ha⟩ := h
  unfold writeBit
  split
  · exact ⟨by simp, by simp⟩
  · next h7 =>
    refine ⟨by show w.wcnt + 1 ≤ 7; omega, ?_⟩
    show (BitVec.ofNat 8 (2 * w.wacc.toNat + b.toNat)).toNat < 2 ^ (w.wcnt + 1)
    have hb : b.toNat ≤ 1 := Bool.toNat_le b
    have h2 : 2 ^ (w.wcnt + 1) = 2 * 2 ^ w.wcnt := Nat.pow_succ'
    rw [BitVec.toNat_ofNat]
    exact Nat.lt_of_le_of_lt (Nat.mod_le _ _) (by omega)

/-- Writing a bit adds it to the written bits, last (40_bitstream.md R121). -/
theorem writtenBits_writeBit {w : Writer} (b : Bool) (h : WriterOk w) :
    writtenBits (writeBit b w) = writtenBits w ++ [b] := by
  obtain ⟨hc, ha⟩ := h
  unfold writeBit
  split
  · next h7 =>
    have hs := lowBits_shiftIn w.wacc 7 b (by omega)
    simp only [writtenBits, memAppend_eq, streamBits_append, streamBits_cons, streamBits_nil, List.append_nil, byteBits_eq_lowBits,
      hs, h7, lowBits_zero, List.append_assoc]
  · simp only [writtenBits, List.append_assoc, lowBits_shiftIn w.wacc w.wcnt b (by omega)]

theorem writeBit_wcnt {w : Writer} (b : Bool) (h : WriterOk w) : (writeBit b w).wcnt = (w.wcnt + 1) % 8 := by
  have := h.1
  unfold writeBit
  split
  · next h7 => simp [h7]
  · show w.wcnt + 1 = _; omega

@[simp] theorem writeBits_nil (w : Writer) : writeBits [] w = w := rfl

@[simp] theorem writeBits_cons (b : Bool) (bits : Bits) (w : Writer) :
    writeBits (b :: bits) w = writeBits bits (writeBit b w) := rfl

theorem writeBits_append (a b : Bits) (w : Writer) : writeBits (a ++ b) w = writeBits b (writeBits a w) := by
  simp [writeBits, List.foldl_append]

/-- Everything writing a bit sequence does: the bits are added, last; the writer stays in range (40_bitstream.md R122). -/
theorem writeBits_spec (bits : Bits) {w : Writer} (h : WriterOk w) :
    WriterOk (writeBits bits w) ∧ writtenBits (writeBits bits w) = writtenBits w ++ bits ∧
      (writeBits bits w).wcnt = (w.wcnt + bits.length) % 8 := by
  induction bits generalizing w with
  | nil =>
    have := h.1
    exact ⟨h, by simp, by simp only [writeBits_nil, List.length_nil]; omega⟩
  | cons b bits ih =>
    obtain ⟨h1, h2, h3⟩ := ih (writeBit_ok b h)
    rw [writeBits_cons]
    refine ⟨h1, by rw [h2, writtenBits_writeBit b h, List.append_assoc]; rfl, ?_⟩
    rw [h3, writeBit_wcnt b h, List.length_cons]
    omega

theorem writeBytes_ok {w : Writer} (raw : List Byte) (h : WriterOk w) : WriterOk (writeBytes raw w) := h

/-- Everything a flush does: the pending bits and zeros fill a byte, none are left, and nothing happens when none were
(40_bitstream.md R124). -/
theorem flushWriter_spec {w : Writer} (h : WriterOk w) :
    (flushWriter w).wacc = (if 0 < w.wcnt then 0 else w.wacc) ∧ (flushWriter w).wcnt = 0 ∧
      streamBits (flushWriter w).wbuf = writtenBits w ++ List.replicate ((8 - w.wcnt) % 8) false := by
  obtain ⟨hc, ha⟩ := h
  unfold flushWriter
  split
  · next h0 =>
    refine ⟨rfl, rfl, ?_⟩
    simp only [writtenBits, memAppend_eq, streamBits_append, streamBits_cons, streamBits_nil, List.append_nil,
      byteBits_pad w.wacc w.wcnt (by omega), List.append_assoc]
    rw [Nat.mod_eq_of_lt (by omega : 8 - w.wcnt < 8)]
  · next h0 =>
    have h0 : w.wcnt = 0 := by omega
    refine ⟨rfl, h0, ?_⟩
    simp [writtenBits, h0]

theorem flushWriter_ok {w : Writer} (h : WriterOk w) : WriterOk (flushWriter w) := by
  unfold flushWriter
  split
  · exact ⟨by simp, by simp⟩
  · exact h

/-- In range with no bit pending, the accumulator is 0. -/
theorem wacc_eq_zero {w : Writer} (h : WriterOk w) (h0 : w.wcnt = 0) : w.wacc = 0 := by
  have := h.2
  rw [h0] at this
  exact byte_eq_of_toNat (by simpa using this)

theorem flushWriter_idem (w : Writer) : flushWriter (flushWriter w) = flushWriter w := by
  by_cases h : 0 < w.wcnt
  · simp [flushWriter, h]
  · simp [flushWriter, h]

@[simp] theorem packBits_length (b : Bits) : (packBits b).length = (b.length + 7) / 8 := by simp [packBits]

theorem sum_bits_testBit (f : Nat → Bool) (n i : Nat) (hi : i < n) :
    ((List.range n).map fun j => (f j).toNat * 2 ^ (n - 1 - j)).sum.testBit i = f (n - 1 - i) ∧
      ((List.range n).map fun j => (f j).toNat * 2 ^ (n - 1 - j)).sum < 2 ^ n := by
  induction n generalizing i with
  | zero => omega
  | succ n ih =>
    have hsplit : ((List.range (n + 1)).map fun j => (f j).toNat * 2 ^ (n + 1 - 1 - j)).sum =
        2 * ((List.range n).map fun j => (f j).toNat * 2 ^ (n - 1 - j)).sum + (f n).toNat := by
      rw [List.range_succ, List.map_append, List.sum_append, ← List.sum_map_mul_left]
      congr 1
      · refine congrArg List.sum (List.map_congr_left fun j hj => ?_)
        have hj := List.mem_range.1 hj
        rw [show n + 1 - 1 - j = (n - 1 - j) + 1 by omega, Nat.pow_succ]
        ring
      · simp
    have hlt : ((List.range n).map fun j => (f j).toNat * 2 ^ (n - 1 - j)).sum < 2 ^ n := by
      cases n with
      | zero => simp
      | succ m => exact (ih 0 (by omega)).2
    have hb : (f n).toNat ≤ 1 := Bool.toNat_le _
    rw [hsplit]
    refine ⟨?_, by rw [Nat.pow_succ]; omega⟩
    cases i with
    | zero => rw [Nat.testBit_zero]; cases h : f n <;> simp [h, Nat.add_mod]
    | succ i =>
      rw [Nat.testBit_succ, show (2 * ((List.range n).map fun j => (f j).toNat * 2 ^ (n - 1 - j)).sum + (f n).toNat) / 2 =
        ((List.range n).map fun j => (f j).toNat * 2 ^ (n - 1 - j)).sum by omega, (ih i (by omega)).1]
      congr 1
      omega

theorem byteBits_packByte (b : Bits) (j : Nat) :
    byteBits (packByte b j) = (List.range 8).map fun i => b.getD (8 * j + i) false := by
  refine List.map_congr_left fun i hi => ?_
  have hi := List.mem_range.1 hi
  rw [packByte, BitVec.getLsbD_ofNat]
  have h := (sum_bits_testBit (fun i => b.getD (8 * j + i) false) 8 (7 - i) (by omega)).1
  have h7 : 7 - i < 8 := by omega
  simp only [show 8 - 1 = 7 from rfl] at h
  rw [h]
  simp only [h7, decide_true, Bool.true_and]
  congr 2
  omega

/-- `PackBits(b)` holds b in stream order, then zeros to the byte boundary (40_bitstream.md R131). -/
theorem streamBits_packBits (b : Bits) : streamBits (packBits b) = b ++ List.replicate (padCount b.length) false := by
  refine List.ext_getElem? fun i => ?_
  rw [streamBits_getElem?]
  by_cases hi : i / 8 < (b.length + 7) / 8
  · rw [packBits, List.getElem?_map, List.getElem?_range hi]
    have hb := congrArg (fun l => l[i % 8]?) (byteBits_packByte b (i / 8))
    have h8 : i % 8 < 8 := by omega
    simp only [byteBits, List.getElem?_map, List.getElem?_range h8, Option.map_some, Option.some.injEq] at hb
    simp only [Option.map_some]
    rw [hb, show 8 * (i / 8) + i % 8 = i by omega]
    by_cases hl : i < b.length
    · rw [List.getElem?_append_left hl, List.getD_eq_getElem _ _ hl, List.getElem?_eq_getElem hl]
    · rw [List.getElem?_append_right (by omega), List.getD_eq_default _ _ (by omega), List.getElem?_replicate,
        if_pos (by simp only [padCount]; omega)]
  · rw [packBits, List.getElem?_map, List.getElem?_eq_none (by simp; omega),
      List.getElem?_eq_none (by simp [padCount]; omega)]
    rfl

/-- Bits written to an aligned writer and flushed are its bytes followed by PackBits of them (40_bitstream.md R129, R131). -/
theorem flush_writeBits_wbuf {w : Writer} (b : Bits) (h : WriterOk w) (h0 : w.wcnt = 0) :
    (flushWriter (writeBits b w)).wbuf = w.wbuf ++ packBits b := by
  obtain ⟨h1, h2, h3⟩ := writeBits_spec b h
  refine streamBits_injective ?_
  rw [(flushWriter_spec h1).2.2, h2, h3, streamBits_append, streamBits_packBits, h0]
  simp [writtenBits, h0, padCount]

/-! ### The reader -/

/-- The bits the reader will still serve, in order: those of the byte being served, then those of the bytes from RPOS on. -/
def remainingBits (r : Reader) : Bits := lowBits r.rcnt r.rcur ++ streamBits (r.rdata.drop r.rpos)

theorem remainingBits_length (r : Reader) : (remainingBits r).length = bitsLeft r := by
  simp [remainingBits, bitsLeft]

@[simp] theorem remainingBits_loadReader (data : List Byte) : remainingBits (loadReader data) = streamBits data := by
  simp [remainingBits, loadReader]

theorem remainingBits_aligned {r : Reader} (h : r.rcnt = 0) : remainingBits r = streamBits (r.rdata.drop r.rpos) := by
  simp [remainingBits, h]

/-- Everything a bit read does: EOS and nothing else when no bit remains, else the first remaining bit is served, and the rest
remain (40_bitstream.md R126). -/
theorem readBit_spec (r : Reader) :
    (remainingBits r = [] ∧ readBit r = (.eos, r)) ∨
      ∃ b r', readBit r = (.bit b, r') ∧ remainingBits r = b :: remainingBits r' ∧ r'.rdata = r.rdata := by
  unfold readBit
  split
  · next h0 =>
    cases hc : r.rdata[r.rpos]? with
    | none =>
      have : r.rdata.length ≤ r.rpos := by simpa using hc
      exact .inl ⟨by simp [remainingBits, h0, List.drop_eq_nil_of_le this], rfl⟩
    | some c =>
      refine .inr ⟨_, _, rfl, ?_, rfl⟩
      obtain ⟨hlt, hget⟩ := List.getElem?_eq_some_iff.1 hc
      rw [remainingBits_aligned h0, List.drop_eq_getElem_cons hlt, hget, streamBits_cons, byteBits_eq_lowBits, lowBits_succ 7]
      rfl
  · next h0 =>
    refine .inr ⟨_, _, rfl, ?_, rfl⟩
    obtain ⟨n, hn⟩ := Nat.exists_eq_succ_of_ne_zero h0
    simp only [remainingBits, hn, Nat.succ_eq_add_one, lowBits_succ, List.cons_append, Nat.add_sub_cancel]

theorem readBit_of_nil {r : Reader} (h : remainingBits r = []) : readBit r = (.eos, r) := by
  rcases readBit_spec r with ⟨_, h'⟩ | ⟨b, r', _, hb, _⟩
  · exact h'
  · rw [h] at hb; cases hb

theorem readBit_of_cons {r : Reader} {b : Bool} {rest : Bits} (h : remainingBits r = b :: rest) :
    ∃ r', readBit r = (.bit b, r') ∧ remainingBits r' = rest ∧ r'.rdata = r.rdata := by
  rcases readBit_spec r with ⟨h', _⟩ | ⟨b', r', h1, hb, hd⟩
  · rw [h] at h'; cases h'
  · rw [h] at hb
    obtain ⟨rfl, rfl⟩ := List.cons.inj hb
    exact ⟨r', h1, rfl, hd⟩

theorem readBit_ok {r : Reader} (h : ReaderOk r) : ReaderOk (readBit r).2 := by
  obtain ⟨hp, hl, hc⟩ := h
  unfold readBit
  split
  · cases hr : r.rdata[r.rpos]? with
    | none => exact ⟨hp, hl, hc⟩
    | some c =>
      obtain ⟨hlt, _⟩ := List.getElem?_eq_some_iff.1 hr
      exact ⟨hlt, hl, by simp [serveBit]⟩
  · refine ⟨hp, hl, ?_⟩
    show r.rcnt - 1 ≤ 8
    omega

theorem loadReader_ok {data : List Byte} (h : data.length ≤ maxArgIn) : ReaderOk (loadReader data) :=
  ⟨Nat.zero_le _, h, Nat.zero_le _⟩

/-- Everything a byte read does (40_bitstream.md R128). -/
theorem readBytes_spec (n : Nat) (r : Reader) :
    (readBytes n r).1 = (r.rdata.drop r.rpos).take n ∧
      (readBytes n r).1.length = min n (r.rdata.length - r.rpos) ∧
      (readBytes n r).2 = { r with rpos := r.rpos + (readBytes n r).1.length } := by
  have h1 : (readBytes n r).1 = (r.rdata.drop r.rpos).take n := by
    simp only [readBytes, memRead]
    rw [← List.length_drop, ← List.take_eq_take_min]
  have h2 : (readBytes n r).1.length = min n (r.rdata.length - r.rpos) := by rw [h1]; simp
  exact ⟨h1, h2, by rw [h2]; rfl⟩

/-- A byte read of no more than remains (40_bitstream.md R128). -/
theorem readBytes_of_le {n : Nat} {r : Reader} (h : n ≤ (r.rdata.drop r.rpos).length) :
    readBytes n r = ((r.rdata.drop r.rpos).take n, { r with rpos := r.rpos + n }) := by
  obtain ⟨h1, h2, h3⟩ := readBytes_spec n r
  rw [List.length_drop] at h
  refine Prod.ext h1 ?_
  rw [h3, h2, Nat.min_eq_left h]

theorem readBytes_ok {r : Reader} (n : Nat) (h : ReaderOk r) : ReaderOk (readBytes n r).2 := by
  obtain ⟨hp, hl, hc⟩ := h
  obtain ⟨_, h2, h3⟩ := readBytes_spec n r
  rw [h3, h2]
  refine ⟨?_, hl, hc⟩
  show r.rpos + min n (r.rdata.length - r.rpos) ≤ r.rdata.length
  omega

end Sys2Proof.Machine
end

