-- ==== Sys2Proof/Laws/FreqTable.lean ====
section
/-! SUPPORT. The frequency table codec: what counting, packing and unpacking do to a table (41_freqtable.md). -/

namespace Sys2Proof.Machine

open Sys2Proof

/-! ### The views of a table -/

@[simp] theorem ftCount_nil (b : Byte) : ftCount [] b = 0 := rfl

@[simp] theorem ftPresent_nil (b : Byte) : ftPresent [] b = false := rfl

@[simp] theorem distinct_nil : distinct [] = 0 := rfl

@[simp] theorem total_nil : total [] = 0 := rfl

@[simp] theorem total_cons (e : Byte × Nat) (T : FreqTable) : total (e :: T) = e.2 + total T := by simp [total]

@[simp] theorem distinct_cons (e : Byte × Nat) (T : FreqTable) : distinct (e :: T) = distinct T + 1 := rfl

theorem ftPresent_iff (T : FreqTable) (b : Byte) : ftPresent T b = true ↔ b ∈ T.map Prod.fst := symFind_isSome_iff b

theorem ftCount_of_mem {T : FreqTable} (hw : symWf T) {e : Byte × Nat} (h : e ∈ T) : ftCount T e.1 = e.2 := by
  rw [ftCount, (symFind_eq_some_iff hw e.1 e.2).2 h]
  rfl

theorem ftCount_symPut (T : FreqTable) (s k : Byte) (v : Nat) :
    ftCount (symPut T s v) k = if k = s then v else ftCount T k := by
  rw [ftCount, symFind_symPut]
  split <;> rfl

theorem ftPresent_symPut (T : FreqTable) (s k : Byte) (v : Nat) :
    ftPresent (symPut T s v) k = true ↔ k = s ∨ ftPresent T k = true := by
  rw [ftPresent, symFind_symPut]
  split
  · next h => simp [h]
  · next h => simp [h, ftPresent]

/-- A new key adds one to `|T|`, a key already there nothing. -/
theorem distinct_symPut {T : FreqTable} (hw : symWf T) (s : Byte) (v : Nat) :
    distinct (symPut T s v) = distinct T + if ftPresent T s = true then 0 else 1 := by
  induction T with
  | nil => rfl
  | cons e T ih =>
    obtain ⟨x, w⟩ := e
    obtain ⟨hlt, hw'⟩ := (symWf_cons _ T).1 hw
    simp only [symPut, ftPresent, symFind_cons]
    split
    · next h =>
      have hx : s ≠ x := fun he => by rw [he] at h; omega
      rw [if_neg hx, symFind_eq_none_of_lt s T fun f hf => by have := hlt f hf; simp only at this; omega]
      rfl
    · split
      · next h => simp
      · next h =>
        have hd := ih hw'
        rw [distinct_cons, hd, distinct_cons]
        cases hp : (symFind T s).isSome <;> simp [ftPresent, hp]

/-- Putting a key moves the total by the difference of its counts. -/
theorem total_symPut {T : FreqTable} (hw : symWf T) (s : Byte) (v : Nat) :
    total (symPut T s v) + ftCount T s = total T + v := by
  induction T with
  | nil => simp
  | cons e T ih =>
    obtain ⟨x, w⟩ := e
    obtain ⟨hlt, hw'⟩ := (symWf_cons _ T).1 hw
    simp only [symPut, ftCount, symFind_cons]
    split
    · next h =>
      have hx : s ≠ x := fun he => by rw [he] at h; omega
      rw [if_neg hx, symFind_eq_none_of_lt s T fun f hf => by have := hlt f hf; simp only at this; omega]
      simp
      omega
    · split
      · next h => simp; omega
      · next h =>
        have hd := ih hw'
        simp only [total_cons, ftCount] at hd ⊢
        omega

theorem le_total_of_mem {T : FreqTable} {e : Byte × Nat} (h : e ∈ T) : e.2 ≤ total T :=
  List.single_le_sum (fun _ _ => Nat.zero_le _) _ (List.mem_map_of_mem h)

/-- With 64-bit counts and at most 256 keys no sum of counts reaches 72 bits (42_treebuilder.md R182). -/
theorem total_lt {T : FreqTable} (h : FreqOk T) : total T < 2 ^ 72 := by
  have h1 : total T ≤ T.length * (2 ^ 64 - 1) := by
    have := List.sum_le_card_nsmul (T.map Prod.snd) (2 ^ 64 - 1) fun c hc => by
      obtain ⟨e, he, rfl⟩ := List.mem_map.1 hc
      have := h.2 e he
      omega
    simpa [total] using this
  have h2 := symWf_length h.1
  have h3 : T.length * (2 ^ 64 - 1) ≤ 256 * (2 ^ 64 - 1) := Nat.mul_le_mul_right _ h2
  omega

/-! ### Counting -/

theorem symWf_countSymbol {T : FreqTable} (s : Byte) (hw : symWf T) : symWf (countSymbol T s) := symWf_symPut s _ hw

/-- Everything counting an input over a table does (41_freqtable.md R151). -/
theorem countSymbols_spec (data : List Byte) (T : FreqTable) (hw : symWf T) :
    symWf (data.foldl countSymbol T) ∧ (∀ b, ftCount (data.foldl countSymbol T) b = ftCount T b + data.count b) ∧
      (∀ b, ftPresent (data.foldl countSymbol T) b = true ↔ ftPresent T b = true ∨ b ∈ data) ∧
      total (data.foldl countSymbol T) = total T + data.length := by
  induction data generalizing T with
  | nil => simp [hw]
  | cons d data ih =>
    obtain ⟨h1, h2, h3, h4⟩ := ih (countSymbol T d) (symWf_countSymbol d hw)
    rw [List.foldl_cons]
    refine ⟨h1, fun b => ?_, fun b => ?_, ?_⟩
    · rw [h2, countSymbol, ftCount_symPut, List.count_cons]
      by_cases hb : b = d
      · subst hb; simp; omega
      · have hdb : (d == b) = false := by simpa using fun h => hb h.symm
        simp [hb, hdb]
    · rw [h3, countSymbol, ftPresent_symPut, List.mem_cons]
      tauto
    · have := total_symPut hw d (ftCount T d + 1)
      rw [h4, List.length_cons]
      simp only [countSymbol]
      omega

theorem symWf_buildTable (data : List Byte) : symWf (buildTable data) := (countSymbols_spec data [] symWf_nil).1

theorem ftCount_buildTable (data : List Byte) (b : Byte) : ftCount (buildTable data) b = data.count b := by
  simpa [buildTable] using (countSymbols_spec data [] symWf_nil).2.1 b

theorem ftPresent_buildTable (data : List Byte) (b : Byte) : ftPresent (buildTable data) b = true ↔ b ∈ data := by
  simpa [buildTable] using (countSymbols_spec data [] symWf_nil).2.2.1 b

theorem total_buildTable (data : List Byte) : total (buildTable data) = data.length := by
  simpa [buildTable] using (countSymbols_spec data [] symWf_nil).2.2.2

/-- Every key of a built table occurs, as often as its count (41_freqtable.md R152). -/
theorem mem_buildTable {data : List Byte} {e : Byte × Nat} (h : e ∈ buildTable data) :
    e.1 ∈ data ∧ e.2 = data.count e.1 := by
  refine ⟨(ftPresent_buildTable data e.1).1 ((ftPresent_iff _ _).2 (List.mem_map_of_mem h)), ?_⟩
  rw [← ftCount_buildTable, ftCount_of_mem (symWf_buildTable data) h]

theorem buildTable_counts_pos {data : List Byte} {e : Byte × Nat} (h : e ∈ buildTable data) : 0 < e.2 := by
  rw [(mem_buildTable h).2]
  exact List.count_pos_iff.2 (mem_buildTable h).1

theorem freqOk_buildTable {data : List Byte} (h : data.length ≤ maxArgIn) : FreqOk (buildTable data) := by
  refine ⟨symWf_buildTable data, fun e he => ?_⟩
  rw [(mem_buildTable he).2]
  have := List.count_le_length (a := e.1) (l := data)
  simp only [maxArgIn] at h
  omega

/-! ### Packing -/

/-- A canonical table always packs: `|T| <= 256` (41_freqtable.md R154). -/
theorem packTable_of_wf {T : FreqTable} (hw : symWf T) :
    packTable T = .ok (countBytes (distinct T) ++ T.flatMap fun e => entryBytes e.1 e.2) := by
  refine if_neg ?_
  have := symWf_length hw
  simp only [Config.maxCountField, distinct]
  omega

/-- Packing a table answers its bytes, or the overflow error above 65535 keys, and nothing else. -/
theorem packTable_cases (T : FreqTable) :
    (distinct T ≤ 65535 ∧ packTable T = .ok (countBytes (distinct T) ++ T.flatMap fun e => entryBytes e.1 e.2)) ∨
      (65535 < distinct T ∧ packTable T = .error (.countFieldOverflow (distinct T))) := by
  unfold packTable
  split
  · next h => exact .inr ⟨h, rfl⟩
  · next h => exact .inl ⟨Nat.le_of_not_lt h, rfl⟩

theorem entries_length (E : List (Byte × Nat)) : (E.flatMap fun e => entryBytes e.1 e.2).length = 9 * E.length := by
  induction E with
  | nil => rfl
  | cons e E ih => simp only [List.flatMap_cons, List.length_append, entryBytes_length, ih, List.length_cons]; omega

/-! ### Unpacking -/

/-- The table that n entries at the start of D put over T, later entries over earlier ones (41_freqtable.md R155, R157). -/
def putEntries (n : Nat) (D : List Byte) (T : FreqTable) : FreqTable :=
  match n with
  | 0 => T
  | n + 1 => putEntries n (D.drop 9) (symPut T (D.headD 0) (freqField ((D.drop 1).take 8)))

/-- Everything the entry loop does, as a function of the bytes available (41_freqtable.md R155, R156). -/
theorem unpackEntries_spec (n i : Nat) (r : Reader) (T : FreqTable) :
    unpackEntries n i r T =
      if 9 * n ≤ (r.rdata.drop r.rpos).length then
        .ok (putEntries n (r.rdata.drop r.rpos) T, { r with rpos := r.rpos + 9 * n })
      else .error (.entryTruncated (i + (r.rdata.drop r.rpos).length / 9)) := by
  induction n generalizing i r T with
  | zero => simp [unpackEntries, putEntries]
  | succ n ih =>
    simp only [unpackEntries]
    cases hD : r.rdata.drop r.rpos with
    | nil =>
      obtain ⟨h1, -, -⟩ := readBytes_spec 1 r
      rw [hD] at h1
      have : readBytes 1 r = ([], (readBytes 1 r).2) := Prod.ext (by simpa using h1) rfl
      rw [this]
      simp
    | cons s D =>
      have h1 : readBytes 1 r = ([s], { r with rpos := r.rpos + 1 }) := by
        rw [readBytes_of_le (by rw [hD]; simp), hD]; rfl
      have hD1 : r.rdata.drop (r.rpos + 1) = D := by rw [← List.drop_drop, hD]; rfl
      rw [h1]
      simp only
      by_cases h8 : 8 ≤ D.length
      · rw [readBytes_of_le (by simpa [hD1] using h8)]
        simp only [hD1]
        rw [if_neg (by simp; omega), ih]
        have hD9 : r.rdata.drop (r.rpos + 1 + 8) = D.drop 8 := by rw [← List.drop_drop, hD1]
        simp only [hD9, List.length_drop, List.length_cons]
        by_cases hn : 9 * n ≤ D.length - 8
        · rw [if_pos hn, if_pos (by omega)]
          simp only [putEntries, List.drop_succ_cons, List.headD_cons, List.drop_zero]
          congr 3
          omega
        · rw [if_neg hn, if_neg (by omega)]
          congr 2
          omega
      · obtain ⟨-, h2, -⟩ := readBytes_spec 8 { r with rpos := r.rpos + 1 }
        have hl : r.rdata.length - (r.rpos + 1) = D.length := by rw [← hD1, List.length_drop]
        simp only [hl] at h2
        rw [if_pos (by rw [h2]; omega), if_neg (by simp only [List.length_cons]; omega)]
        congr 2
        simp only [List.length_cons]
        omega

/-- Everything unpacking does, as a function of the bytes available and the count field (41_freqtable.md R156, R159). -/
theorem unpackTable_spec (r : Reader) :
    unpackTable r =
      let D := r.rdata.drop r.rpos
      let N := beValue (D.take 2)
      if D.length < 2 then .error .headerShort
      else if D.length < 2 + 9 * N then .error (.entryTruncated ((D.length - 2) / 9))
      else .ok (putEntries N (D.drop 2) [], 2 + 9 * N, { r with rpos := r.rpos + (2 + 9 * N) }) := by
  simp only [unpackTable]
  by_cases h2 : (r.rdata.drop r.rpos).length < 2
  · obtain ⟨-, hl, -⟩ := readBytes_spec 2 r
    rw [List.length_drop] at h2
    rw [if_pos (by rw [hl]; omega), if_pos (by rw [List.length_drop]; exact h2)]
  · rw [if_neg h2, readBytes_of_le (by omega)]
    simp only
    rw [if_neg (by rw [List.length_take]; omega), unpackEntries_spec]
    simp only [countField, ← List.drop_drop]
    by_cases hN : (r.rdata.drop r.rpos).length < 2 + 9 * beValue ((r.rdata.drop r.rpos).take 2)
    · rw [if_pos hN, if_neg (by rw [List.length_drop]; omega)]
      simp only [List.length_drop, Nat.zero_add]
    · rw [if_neg hN, if_pos (by rw [List.length_drop]; omega)]
      simp [Nat.add_assoc]

theorem freqOk_putEntries {n : Nat} {D : List Byte} {T : FreqTable} (hT : FreqOk T) (hD : 9 * n ≤ D.length) :
    FreqOk (putEntries n D T) := by
  induction n generalizing D T with
  | zero => exact hT
  | succ n ih =>
    refine ih ⟨symWf_symPut _ _ hT.1, fun e he => ?_⟩ (by rw [List.length_drop]; omega)
    rcases mem_symPut he with rfl | he
    · exact freqField_lt (by rw [List.length_take, List.length_drop]; omega)
    · exact hT.2 e he

/-- A table that unpacking gives is in range, its reader stands past the metadata, and nothing else of the reader changes
(41_freqtable.md R159). -/
theorem unpackTable_ok {r r' : Reader} {T : FreqTable} {n : Nat} (h : unpackTable r = .ok (T, n, r')) :
    FreqOk T ∧ n = 2 + 9 * beValue ((r.rdata.drop r.rpos).take 2) ∧ n ≤ (r.rdata.drop r.rpos).length ∧
      r' = { r with rpos := r.rpos + n } := by
  rw [unpackTable_spec] at h
  simp only at h
  split at h
  · cases h
  · split at h
    · cases h
    · next h2 hN =>
      obtain ⟨rfl, rfl, rfl⟩ : _ ∧ _ ∧ _ := by simpa using h
      refine ⟨freqOk_putEntries ⟨symWf_nil, by simp⟩ (by simp only [List.length_drop] at *; omega), rfl, by omega, rfl⟩

/-- The keys the entries put are their symbols, beside those that were there (41_freqtable.md R157). -/
theorem ftPresent_putEntries {n : Nat} {D : List Byte} (T : FreqTable) (hD : 9 * n ≤ D.length) (b : Byte) :
    ftPresent (putEntries n D T) b = true ↔ ftPresent T b = true ∨ ∃ i < n, D[9 * i]? = some b := by
  induction n generalizing D T with
  | zero => simp [putEntries]
  | succ n ih =>
    cases D with
    | nil => simp at hD
    | cons s D =>
      rw [putEntries, ih _ (by simp only [List.length_drop]; omega), ftPresent_symPut]
      simp only [List.headD_cons, List.getElem?_drop]
      constructor
      · rintro ((rfl | h) | ⟨i, hi, h⟩)
        · exact .inr ⟨0, by omega, rfl⟩
        · exact .inl h
        · exact .inr ⟨i + 1, by omega, by rw [← h]; congr 1; omega⟩
      · rintro (h | ⟨i, hi, h⟩)
        · exact .inl (.inr h)
        · cases i with
          | zero => exact .inl (.inl (by simpa using h.symm))
          | succ i => exact .inr ⟨i, by omega, by rw [← h]; congr 1; omega⟩

theorem ftCount_putEntries_absent {n : Nat} {D : List Byte} (T : FreqTable) (b : Byte) (hD : 9 * n ≤ D.length)
    (h : ∀ j < n, D[9 * j]? ≠ some b) : ftCount (putEntries n D T) b = ftCount T b := by
  induction n generalizing D T with
  | zero => rfl
  | succ n ih =>
    cases D with
    | nil => simp at hD
    | cons s D =>
      rw [putEntries, ih _ (by simp only [List.length_drop]; omega)]
      · rw [ftCount_symPut, if_neg]
        have := h 0 (by omega)
        simpa [eq_comm] using this
      · intro j hj
        have := h (j + 1) (by omega)
        rw [List.getElem?_drop]
        rwa [show 9 + 9 * j = 9 * (j + 1) by omega]

/-- The last entry of a symbol gives its count (41_freqtable.md R157, D5). -/
theorem ftCount_putEntries_last {n : Nat} {D : List Byte} (T : FreqTable) (hD : 9 * n ≤ D.length) {i : Nat} (hi : i < n)
    {b : Byte} (hb : D[9 * i]? = some b) (hlast : ∀ j < n, i < j → D[9 * j]? ≠ some b) :
    ftCount (putEntries n D T) b = beValue ((D.drop (9 * i + 1)).take 8) := by
  induction n generalizing D T i with
  | zero => omega
  | succ n ih =>
    cases D with
    | nil => simp at hD
    | cons s D =>
      have hD' : 9 * n ≤ ((s :: D).drop 9).length := by rw [List.length_drop]; omega
      rw [putEntries]
      cases i with
      | zero =>
        have hs : s = b := by simpa using hb
        rw [ftCount_putEntries_absent _ b hD', ftCount_symPut, if_pos (by simp [hs])]
        · rfl
        · intro j hj
          have := hlast (j + 1) (by omega) (by omega)
          rw [List.getElem?_drop]
          rwa [show 9 + 9 * j = 9 * (j + 1) by omega]
      | succ i =>
        rw [ih _ hD' (by omega : i < n)]
        · rw [List.drop_drop]
          congr 3
          omega
        · rw [List.getElem?_drop, show 9 + 9 * i = 9 * (i + 1) by omega]; exact hb
        · intro j hj hij
          have := hlast (j + 1) (by omega) (by omega)
          rw [List.getElem?_drop]
          rwa [show 9 + 9 * j = 9 * (j + 1) by omega]

/-- Entries written out and read back put their symbols and counts one after another (41_freqtable.md R160). -/
theorem putEntries_entryBytes (E : List (Byte × Nat)) (rest : List Byte) (T : FreqTable) (hE : ∀ e ∈ E, e.2 < 2 ^ 64) :
    putEntries E.length ((E.flatMap fun e => entryBytes e.1 e.2) ++ rest) T = E.foldl (fun C e => symPut C e.1 e.2) T := by
  induction E generalizing T with
  | nil => rfl
  | cons e E ih =>
    rw [List.length_cons, putEntries, List.foldl_cons, ← ih _ fun f hf => hE f (List.mem_cons_of_mem _ hf)]
    have h9 : (entryBytes e.1 e.2).length = 9 := entryBytes_length e.1 e.2
    rw [List.flatMap_cons, List.append_assoc, List.drop_left' h9]
    congr 2
    simp only [entryBytes, List.cons_append, List.drop_succ_cons, List.drop_zero]
    rw [List.take_left' (beBytes_length 8 e.2), freqField_beBytes (hE e (by simp))]

/-- A packed table with anything after it unpacks to the table (41_freqtable.md R160). -/
theorem unpackTable_pack {T : FreqTable} (h : FreqOk T) (rest : List Byte) (r : Reader)
    (hr : r.rdata.drop r.rpos = countBytes (distinct T) ++ (T.flatMap fun e => entryBytes e.1 e.2) ++ rest) :
    unpackTable r = .ok (T, 2 + 9 * distinct T, { r with rpos := r.rpos + (2 + 9 * distinct T) }) := by
  have hlen := symWf_length h.1
  have hN : beValue ((r.rdata.drop r.rpos).take 2) = distinct T := by
    rw [hr, List.append_assoc, List.take_left' (countBytes_length _)]
    exact countField_countBytes (by simp only [distinct]; omega)
  have hL : (r.rdata.drop r.rpos).length = 2 + 9 * distinct T + rest.length := by
    rw [hr]; simp only [List.length_append, countBytes_length, entries_length, distinct]
  rw [unpackTable_spec]
  simp only [hN, hL]
  rw [if_neg (by omega), if_neg (by omega)]
  have hput : putEntries (distinct T) ((r.rdata.drop r.rpos).drop 2) [] = T := by
    rw [hr, List.append_assoc, List.drop_left' (countBytes_length _), distinct, putEntries_entryBytes T rest [] h.2,
      foldl_symPut_of_wf T [] (by simpa using h.1)]
    simp
  rw [hput]

end Sys2Proof.Machine
end

