-- ==== Sys2Proof/Laws/SymTree.lean ====
section
/-! SUPPORT. Full binary trees of symbols (`SymTree`): their root-to-leaf paths are a complete prefix code, and their cost is the sum
over the paths. -/

namespace Sys2Proof.Machine

open Sys2Proof

namespace SymTree

/-- The number of steps on the longest path. -/
def height (u : SymTree) : Nat :=
  match u with
  | .leaf _ => 0
  | .node l r => max l.height r.height + 1

/-- Each leaf's symbol with the path to it, 0 for left and 1 for right, left before right. -/
def paths (u : SymTree) : List (Byte × Bits) :=
  match u with
  | .leaf s => [(s, [])]
  | .node l r => (l.paths.map fun e => (e.1, false :: e.2)) ++ (r.paths.map fun e => (e.1, true :: e.2))

theorem paths_map_fst (u : SymTree) : u.paths.map Prod.fst = u.leaves := by
  induction u with
  | leaf s => rfl
  | node l r hl hr => simp only [paths, leaves, List.map_append, List.map_map, Function.comp_def, ← hl, ← hr]

theorem leaves_ne_nil (u : SymTree) : u.leaves ≠ [] := by
  induction u with
  | leaf s => simp [leaves]
  | node l r hl _ => simp [leaves, hl]

theorem height_lt_leaves (u : SymTree) : u.height < u.leaves.length := by
  induction u with
  | leaf s => simp [height, leaves]
  | node l r hl hr => simp only [height, leaves, List.length_append]; omega

theorem path_length_le_height {u : SymTree} {e : Byte × Bits} (h : e ∈ u.paths) : e.2.length ≤ u.height := by
  induction u generalizing e with
  | leaf s => simp only [paths, List.mem_singleton] at h; simp [h, height]
  | node l r hl hr =>
    simp only [paths, List.mem_append, List.mem_map] at h
    rcases h with ⟨f, hf, rfl⟩ | ⟨f, hf, rfl⟩
    · have := hl hf; simp only [List.length_cons, height]; omega
    · have := hr hf; simp only [List.length_cons, height]; omega

theorem path_length_pos {l r : SymTree} {e : Byte × Bits} (h : e ∈ (SymTree.node l r).paths) : 1 ≤ e.2.length := by
  simp only [paths, List.mem_append, List.mem_map] at h
  rcases h with ⟨f, _, rfl⟩ | ⟨f, _, rfl⟩ <;> simp

/-- Paths to different leaves: neither begins with the other. -/
theorem paths_incomparable (u : SymTree) : u.paths.Pairwise fun e f => ¬ e.2 <+: f.2 ∧ ¬ f.2 <+: e.2 := by
  induction u with
  | leaf s => simp [paths]
  | node l r hl hr =>
    simp only [paths, List.pairwise_append, List.pairwise_map, List.cons_prefix_cons, true_and]
    refine ⟨hl, hr, fun e he f hf => ?_⟩
    obtain ⟨e', _, rfl⟩ := List.mem_map.1 he
    obtain ⟨f', _, rfl⟩ := List.mem_map.1 hf
    simp [List.cons_prefix_cons]

/-- Leaves of different symbols: neither path begins with the other. -/
theorem not_prefix_of_ne {u : SymTree} {e f : Byte × Bits} (he : e ∈ u.paths) (hf : f ∈ u.paths) (h : e ≠ f) :
    ¬ e.2 <+: f.2 := by
  obtain ⟨i, hi, rfl⟩ := List.mem_iff_getElem.1 he
  obtain ⟨j, hj, rfl⟩ := List.mem_iff_getElem.1 hf
  have hp := List.pairwise_iff_getElem.1 u.paths_incomparable
  rcases Nat.lt_trichotomy i j with hij | rfl | hij
  · exact (hp i j hi hj hij).1
  · exact absurd rfl h
  · exact (hp j i hj hi hij).2

/-- Every infinite bit sequence begins with the path to some leaf. -/
theorem paths_complete (u : SymTree) (f : Nat → Bool) : ∃ e ∈ u.paths, BeginsWith f e.2 := by
  induction u generalizing f with
  | leaf s => exact ⟨(s, []), by simp [paths], fun k hk => by simp at hk⟩
  | node l r hl hr =>
    have hcons : ∀ (p : Bits), BeginsWith (fun k => f (k + 1)) p → BeginsWith f (f 0 :: p) := by
      intro p hp k hk
      cases k with
      | zero => rfl
      | succ k => simpa using hp k (by simpa using hk)
    cases h0 : f 0 with
    | false =>
      obtain ⟨e, he, hb⟩ := hl fun k => f (k + 1)
      exact ⟨(e.1, false :: e.2), by simp only [paths, List.mem_append, List.mem_map]; exact .inl ⟨e, he, rfl⟩, h0 ▸ hcons _ hb⟩
    | true =>
      obtain ⟨e, he, hb⟩ := hr fun k => f (k + 1)
      exact ⟨(e.1, true :: e.2), by simp only [paths, List.mem_append, List.mem_map]; exact .inr ⟨e, he, rfl⟩, h0 ▸ hcons _ hb⟩

/-- Two bit strings that one infinite sequence begins with: the shorter begins the longer. -/
theorem prefix_of_beginsWith {f : Nat → Bool} {p q : Bits} (hp : BeginsWith f p) (hq : BeginsWith f q)
    (h : p.length ≤ q.length) : p <+: q := by
  rw [List.prefix_iff_eq_take]
  refine List.ext_getElem? fun k => ?_
  by_cases hk : k < p.length
  · rw [hp k hk, List.getElem?_take_of_lt hk, hq k (by omega)]
  · rw [List.getElem?_eq_none (by omega), List.getElem?_eq_none (by simp; omega)]

/-- The Kraft sum of the paths is exactly 1, in units of 2^(−n). -/
theorem kraft_sum (u : SymTree) (n : Nat) (h : u.height ≤ n) : (u.paths.map fun e => 2 ^ (n - e.2.length)).sum = 2 ^ n := by
  induction u generalizing n with
  | leaf s => simp [paths]
  | node l r hl hr =>
    obtain ⟨m, rfl⟩ : ∃ m, n = m + 1 := ⟨n - 1, by simp only [height] at h; omega⟩
    simp only [height] at h
    have hl := hl m (by omega)
    have hr := hr m (by omega)
    simp only [paths, List.map_append, List.map_map, List.sum_append, Function.comp_def, List.length_cons, Nat.add_sub_add_right,
      hl, hr, Nat.pow_succ]
    omega

/-- The cost is the sum of count · depth over the paths (42_treebuilder.md R181). -/
theorem cost_eq_sum (T : FreqTable) (d : Nat) (u : SymTree) :
    u.cost T d = (u.paths.map fun e => ftCount T e.1 * (d + e.2.length)).sum := by
  induction u generalizing d with
  | leaf s => simp [cost, paths]
  | node l r hl hr =>
    simp only [cost, hl, hr, paths, List.map_append, List.map_map, List.sum_append, Function.comp_def, List.length_cons,
      Nat.add_assoc, Nat.add_comm 1]

/-- The sum of the counts of the leaves' symbols. -/
def weight (T : FreqTable) (u : SymTree) : Nat :=
  match u with
  | .leaf s => ftCount T s
  | .node l r => l.weight T + r.weight T

theorem weight_eq_sum (T : FreqTable) (u : SymTree) : u.weight T = (u.leaves.map (ftCount T)).sum := by
  induction u with
  | leaf s => simp [weight, leaves]
  | node l r hl hr => simp [weight, leaves, hl, hr]

/-- One level deeper costs the weight more. -/
theorem cost_succ (T : FreqTable) (d : Nat) (u : SymTree) : u.cost T (d + 1) = u.cost T d + u.weight T := by
  induction u generalizing d with
  | leaf s => simp only [cost, weight]; ring
  | node l r hl hr => simp only [cost, weight, hl (d + 1), hr (d + 1)]; omega

end SymTree

end Sys2Proof.Machine
end

