-- ==== Sys2Proof/Laws/TreeBuilder.lean ====
section
/-! SUPPORT. The tree builder: what PopLeast answers, the invariant of the merge loop, the shape of the tree it ends with, and the
arena read as a `SymTree` (42_treebuilder.md). -/

namespace Sys2Proof.Machine

open Sys2Proof

/-! ### The arena -/

theorem nodeAt_of_lt {nodes : List Node} {i : Nat} (h : i < nodes.length) : nodeAt nodes i = nodes[i] :=
  List.getD_eq_getElem _ _ h

theorem nodeAt_of_le {nodes : List Node} {i : Nat} (h : nodes.length ≤ i) : nodeAt nodes i = zeroNode :=
  List.getD_eq_default _ _ h

theorem nodeAt_mem {nodes : List Node} {i : Nat} (h : i < nodes.length) : nodeAt nodes i ∈ nodes := by
  rw [nodeAt_of_lt h]; exact List.getElem_mem h

theorem nodeAt_append_left {nodes : List Node} (more : List Node) {i : Nat} (h : i < nodes.length) :
    nodeAt (nodes ++ more) i = nodeAt nodes i := by
  rw [nodeAt_of_lt (by rw [List.length_append]; omega), nodeAt_of_lt h, List.getElem_append_left h]

theorem nodeAt_append_right (nodes more : List Node) (k : Nat) :
    nodeAt (nodes ++ more) (nodes.length + k) = nodeAt more k := by
  simp [nodeAt, List.getD_eq_getElem?_getD, List.getElem?_append_right]

@[simp] theorem childIndices_nil : childIndices [] = [] := rfl

theorem childIndices_append (A B : List Node) : childIndices (A ++ B) = childIndices A ++ childIndices B := by
  simp [childIndices, List.flatMap_append]

theorem childIndices_leaves (T : FreqTable) : childIndices (T.map leafNode) = [] := by
  rw [childIndices, List.flatMap_map, List.flatMap_eq_nil_iff]
  intro e _
  rfl

/-- The children of an internal node are child indices. -/
theorem mem_childIndices {nodes : List Node} {j : Nat} :
    j ∈ childIndices nodes ↔ ∃ i < nodes.length, (nodeAt nodes i).leaf = false ∧
      (j = (nodeAt nodes i).left ∨ j = (nodeAt nodes i).right) := by
  simp only [childIndices, List.mem_flatMap]
  constructor
  · rintro ⟨n, hn, hj⟩
    obtain ⟨i, hi, rfl⟩ := List.mem_iff_getElem.1 hn
    rw [← nodeAt_of_lt hi] at hj
    refine ⟨i, hi, ?_⟩
    cases hl : (nodeAt nodes i).leaf <;> simp_all
  · rintro ⟨i, hi, hl, hj⟩
    refine ⟨nodeAt nodes i, nodeAt_mem hi, ?_⟩
    simpa [hl] using hj

/-! ### PopLeast -/

/-- PopLeast answers none only for the empty queue (42_treebuilder.md R176). -/
theorem popLeast_isSome {lt : TieOrder} {nodes : List Node} {pq : List Nat} (h : pq ≠ []) :
    ∃ a rest, popLeast lt nodes pq = some (a, rest) := by
  cases pq with
  | nil => exact absurd rfl h
  | cons i rest =>
    simp only [popLeast]
    split
    · exact ⟨_, _, rfl⟩
    · split
      · exact ⟨_, _, rfl⟩
      · exact ⟨_, _, rfl⟩

theorem popLeast_nil (lt : TieOrder) (nodes : List Node) : popLeast lt nodes [] = none := rfl

/-- PopLeast takes one index out of the queue and changes nothing else of it. -/
theorem popLeast_perm {lt : TieOrder} {nodes : List Node} {pq : List Nat} {a : Nat} {rest : List Nat}
    (h : popLeast lt nodes pq = some (a, rest)) : List.Perm (a :: rest) pq := by
  induction pq generalizing a rest with
  | nil => cases h
  | cons i pq ih =>
    simp only [popLeast] at h
    split at h
    · next hn =>
      have : pq = [] := by
        by_contra hne
        obtain ⟨_, _, hs⟩ := popLeast_isSome (lt := lt) (nodes := nodes) hne
        rw [hs] at hn; cases hn
      subst this
      cases h
      exact List.Perm.refl _
    · next j rest' hs =>
      have := ih hs
      split at h
      · cases h
        exact (List.Perm.swap _ _ _).trans (this.cons _)
      · cases h
        exact List.Perm.refl _

theorem popLeast_length {lt : TieOrder} {nodes : List Node} {pq : List Nat} {a : Nat} {rest : List Nat}
    (h : popLeast lt nodes pq = some (a, rest)) : pq.length = rest.length + 1 := by
  simpa using (popLeast_perm h).length_eq.symm

/-- PopLeast answers the least index under any relation the order decides: reflexive, transitive, true of the pair where the order
says so, and true of the reverse where it does not. -/
theorem popLeast_least {lt : TieOrder} {R : Node → Node → Prop} (hrefl : ∀ x, R x x) (htrans : ∀ x y z, R x y → R y z → R x z)
    (hlt : ∀ x y, lt x y = true → R x y) (hge : ∀ x y, lt x y = false → R y x) {nodes : List Node} {pq : List Nat} {a : Nat}
    {rest : List Nat} (h : popLeast lt nodes pq = some (a, rest)) : ∀ j ∈ pq, R (nodeAt nodes a) (nodeAt nodes j) := by
  induction pq generalizing a rest with
  | nil => cases h
  | cons i pq ih =>
    simp only [popLeast] at h
    split at h
    · next hn =>
      have : pq = [] := by
        by_contra hne
        obtain ⟨_, _, hs⟩ := popLeast_isSome (lt := lt) (nodes := nodes) hne
        rw [hs] at hn; cases hn
      subst this
      cases h
      intro j hj
      rw [List.mem_singleton.1 hj]
      exact hrefl _
    · next j' rest' hs =>
      have hj' := ih hs
      split at h
      · next hl =>
        cases h
        intro j hj
        rcases List.mem_cons.1 hj with rfl | hj
        · exact hlt _ _ hl
        · exact hj' j hj
      · next hl =>
        cases h
        intro j hj
        rcases List.mem_cons.1 hj with rfl | hj
        · exact hrefl _
        · exact htrans _ _ _ (hge _ _ (by simpa using hl)) (hj' j hj)

/-- Under an order that refines weight, no queued node is lighter than the one popped (42_treebuilder.md R177 (b)). -/
theorem popLeast_weight {lt : TieOrder} (hr : RefinesWeight lt) {nodes : List Node} {pq : List Nat} {a : Nat} {rest : List Nat}
    (h : popLeast lt nodes pq = some (a, rest)) : ∀ j ∈ pq, (nodeAt nodes a).weight ≤ (nodeAt nodes j).weight := by
  refine popLeast_least (R := fun x y => x.weight ≤ y.weight) (fun _ => Nat.le_refl _) (fun _ _ _ => Nat.le_trans)
    (fun x y hxy => ?_) (fun x y hxy => ?_) h
  · by_contra hlt
    have := (hr y x (by omega)).2
    rw [this] at hxy; cases hxy
  · by_contra hlt
    have := (hr x y (by omega)).1
    rw [this] at hxy; cases hxy

theorem defaultOrder_true (x y : Node) :
    defaultOrder x y = true ↔ x.weight < y.weight ∨ (x.weight = y.weight ∧ x.oid < y.oid) := by
  simp [defaultOrder]

theorem defaultOrder_refinesWeight : RefinesWeight defaultOrder := by
  intro x y h
  refine ⟨(defaultOrder_true x y).2 (.inl h), ?_⟩
  have : ¬ defaultOrder y x = true := fun hyx => by
    have := (defaultOrder_true y x).1 hyx
    omega
  simpa using this

/-! ### The tie orders a machine can have -/

theorem rankedOrder_true (ranks : List Nat) (x y : Node) :
    rankedOrder ranks x y = true ↔ x.weight < y.weight ∨ (x.weight = y.weight ∧
      (ranks.getD x.oid 0 < ranks.getD y.oid 0 ∨ (ranks.getD x.oid 0 = ranks.getD y.oid 0 ∧ x.oid < y.oid))) := by
  simp only [rankedOrder, Bool.or_eq_true, Bool.and_eq_true, decide_eq_true_eq]

/-- With no rank given, oid alone decides between equal weights (42_treebuilder.md R175). -/
theorem rankedOrder_nil : rankedOrder [] = defaultOrder := by
  funext x y
  simp [rankedOrder, defaultOrder]

/-- Every TIE_ORDER of a machine orders the nodes of a build by weight, some rank, and oid (42_treebuilder.md R177). -/
theorem tieOrderFor_cases (c : Config.TieRanks) (T : FreqTable) : ∃ ranks, tieOrderFor c T = rankedOrder ranks := by
  unfold tieOrderFor
  split
  · exact ⟨_, rfl⟩
  · exact ⟨[], rankedOrder_nil.symm⟩

@[simp] theorem tieOrderFor_nil (T : FreqTable) : tieOrderFor [] T = defaultOrder := rfl

/-- The ranks listed first for a table are the ones that count. -/
theorem tieOrderFor_cons (T U : FreqTable) (ranks : List Nat) (c : Config.TieRanks) :
    tieOrderFor ((U, ranks) :: c) T = if U = T then rankedOrder ranks else tieOrderFor c T := by
  by_cases h : U = T
  · simp [tieOrderFor, h]
  · have hb : (U == T) = false := by simpa using h
    simp [tieOrderFor, h, hb]

theorem rankedOrder_refinesWeight (ranks : List Nat) : RefinesWeight (rankedOrder ranks) := by
  intro x y h
  refine ⟨(rankedOrder_true ranks x y).2 (.inl h), ?_⟩
  rw [← Bool.not_eq_true, rankedOrder_true]
  omega

theorem tieOrderFor_refinesWeight (c : Config.TieRanks) (T : FreqTable) : RefinesWeight (tieOrderFor c T) := by
  obtain ⟨ranks, h⟩ := tieOrderFor_cases c T
  rw [h]
  exact rankedOrder_refinesWeight ranks

theorem rankedOrder_irrefl (ranks : List Nat) (x : Node) : rankedOrder ranks x x = false := by
  rw [← Bool.not_eq_true, rankedOrder_true]
  omega

theorem rankedOrder_trans {ranks : List Nat} {x y z : Node} (h1 : rankedOrder ranks x y = true) (h2 : rankedOrder ranks y z = true) :
    rankedOrder ranks x z = true := by
  rw [rankedOrder_true] at *
  omega

/-- Two nodes of different oid are always ordered. -/
theorem rankedOrder_total (ranks : List Nat) {x y : Node} (h : x.oid ≠ y.oid) :
    rankedOrder ranks x y = true ∨ rankedOrder ranks y x = true := by
  simp only [rankedOrder_true]
  omega

/-- The tree a machine of the default TIE_ORDER builds. -/
theorem treeOf_default {p : Config.Params} (h : p.tieRanks = []) (T : FreqTable) : treeOf p T = buildTree defaultOrder T := by
  rw [treeOf, h, tieOrderFor_nil]

/-- PopLeast answers an index that no queued one goes before. -/
theorem popLeast_ranked {ranks : List Nat} {nodes : List Node} {pq : List Nat} {a : Nat} {rest : List Nat}
    (h : popLeast (rankedOrder ranks) nodes pq = some (a, rest)) :
    ∀ j ∈ pq, rankedOrder ranks (nodeAt nodes j) (nodeAt nodes a) = false := by
  refine popLeast_least (R := fun x y => rankedOrder ranks y x = false) (fun x => ?_) (fun x y z => ?_) (fun x y => ?_)
    (fun x y hxy => hxy) h
  all_goals
    simp only [← Bool.not_eq_true, rankedOrder_true]
    omega

/-- Orders that agree on the queued nodes pop the same index. -/
theorem popLeast_congr {lt lt' : TieOrder} {nodes : List Node} {pq : List Nat}
    (h : ∀ i ∈ pq, ∀ j ∈ pq, lt (nodeAt nodes i) (nodeAt nodes j) = lt' (nodeAt nodes i) (nodeAt nodes j)) :
    popLeast lt nodes pq = popLeast lt' nodes pq := by
  induction pq with
  | nil => rfl
  | cons i pq ih =>
    simp only [popLeast]
    rw [ih fun i hi j hj => h i (List.mem_cons_of_mem _ hi) j (List.mem_cons_of_mem _ hj)]
    cases hp : popLeast lt' nodes pq with
    | none => rfl
    | some p =>
      obtain ⟨j, rest⟩ := p
      have hj : j ∈ pq := (popLeast_perm hp).mem_iff.1 (by simp)
      simp only [h j (List.mem_cons_of_mem _ hj) i (by simp)]

/-! ### The merge loop -/

/-- What every turn of the merge loop keeps, for the table the build began with (42_treebuilder.md R171, R172, R178, R179). -/
structure MergeInv (T : FreqTable) (t : TreeUnit) : Prop where
  /-- The leaves stand first, the internal nodes after them in creation order. -/
  layout : ∃ ints : List Node, t.nodes = T.map leafNode ++ ints ∧ ints.length = t.merges ∧
    ∀ (k : Nat) (h : k < ints.length), ints[k].leaf = false ∧ ints[k].sym = 0 ∧ ints[k].oid = 256 + k
  /-- Each merge shortens the queue by one. -/
  queue_count : t.pq.length + t.merges = distinct T
  /-- Every index is queued or the child of exactly one internal node. -/
  owned : List.Perm (t.pq ++ childIndices t.nodes) (List.range t.nodes.length)
  /-- Children stand before their parents, whose weight is the sum of theirs. -/
  internal : ∀ i < t.nodes.length, InternalOk t.nodes i
  /-- The queued weights add up to the total. -/
  queue_weight : (t.pq.map fun i => (nodeAt t.nodes i).weight).sum = total T
  /-- No node is heavier than the total. -/
  weight_le : ∀ i < t.nodes.length, (nodeAt t.nodes i).weight ≤ total T

namespace MergeInv

variable {T : FreqTable} {t : TreeUnit}

theorem length_eq (h : MergeInv T t) : t.nodes.length = distinct T + t.merges := by
  obtain ⟨ints, h1, h2, _⟩ := h.layout
  rw [h1, List.length_append, List.length_map, h2, distinct]

theorem queue_lt (h : MergeInv T t) {i : Nat} (hi : i ∈ t.pq) : i < t.nodes.length :=
  List.mem_range.1 (h.owned.mem_iff.1 (List.mem_append_left _ hi))

theorem leaf_at (h : MergeInv T t) {i : Nat} {e : Byte × Nat} (hi : T[i]? = some e) : nodeAt t.nodes i = leafNode e := by
  obtain ⟨ints, h1, _, _⟩ := h.layout
  obtain ⟨hlt, rfl⟩ := List.getElem?_eq_some_iff.1 hi
  rw [h1, nodeAt_append_left _ (by simpa using hlt), nodeAt_of_lt (by simpa using hlt), List.getElem_map]

theorem internal_at (h : MergeInv T t) {k : Nat} (hk : k < t.merges) :
    (nodeAt t.nodes (distinct T + k)).leaf = false ∧ (nodeAt t.nodes (distinct T + k)).sym = 0 ∧
      (nodeAt t.nodes (distinct T + k)).oid = 256 + k := by
  obtain ⟨ints, h1, h2, h3⟩ := h.layout
  have hk' : k < ints.length := by omega
  have hlen : distinct T = (T.map leafNode).length := by simp [distinct]
  rw [h1, hlen, nodeAt_append_right, nodeAt_of_lt hk']
  exact h3 k hk'

/-- A node below index `|T|` is a leaf of the table, one at or above it is internal. -/
theorem leaf_iff (h : MergeInv T t) {i : Nat} (hi : i < t.nodes.length) : (nodeAt t.nodes i).leaf = true ↔ i < distinct T := by
  have hlen := h.length_eq
  constructor
  · intro hl
    by_contra hge
    have := (h.internal_at (k := i - distinct T) (by omega)).1
    rw [show distinct T + (i - distinct T) = i by omega, hl] at this
    cases this
  · intro hlt
    rw [h.leaf_at (List.getElem?_eq_getElem hlt)]
    rfl

theorem leavesOf_nodes (h : MergeInv T t) : (leavesOf t.nodes).map Node.sym = T.map Prod.fst := by
  obtain ⟨ints, h1, h2, h3⟩ := h.layout
  have hi : ints.filter (fun n => n.leaf) = [] := by
    rw [List.filter_eq_nil_iff]
    intro n hn
    obtain ⟨k, hk, rfl⟩ := List.mem_iff_getElem.1 hn
    simp [(h3 k hk).1]
  have hl : (T.map leafNode).filter (fun n => n.leaf) = T.map leafNode := by
    rw [List.filter_eq_self]
    intro n hn
    obtain ⟨e, _, rfl⟩ := List.mem_map.1 hn
    rfl
  rw [leavesOf, h1, List.filter_append, hi, hl, List.append_nil, List.map_map]
  rfl

theorem planted (T : FreqTable) : MergeInv T (plantLeaves T) where
  layout := ⟨[], by simp [plantLeaves], rfl, by simp⟩
  queue_count := by simp [plantLeaves, distinct]
  owned := by simp [plantLeaves, childIndices_leaves]
  internal := by
    intro i hi hl
    simp only [plantLeaves, List.length_map] at hi hl
    rw [nodeAt_of_lt (by simpa using hi), List.getElem_map] at hl
    cases hl
  queue_weight := by
    have : (List.range T.length).map (fun i => (nodeAt (T.map leafNode) i).weight) = T.map Prod.snd := by
      refine List.ext_getElem (by simp) fun i h1 h2 => ?_
      have hi : i < T.length := by simpa using h1
      simp [nodeAt_of_lt (nodes := T.map leafNode) (i := i) (by simpa using hi), leafNode]
    simp only [plantLeaves, this, total]
  weight_le := by
    intro i hi
    simp only [plantLeaves, List.length_map] at hi ⊢
    rw [nodeAt_of_lt (by simpa using hi), List.getElem_map]
    exact le_total_of_mem (List.getElem_mem hi)

/-- One merge keeps the invariant (42_treebuilder.md R178). -/
theorem merged {lt : TieOrder} {a b : Nat} {pq1 pq2 : List Nat} (h : MergeInv T t)
    (ha : popLeast lt t.nodes t.pq = some (a, pq1)) (hb : popLeast lt t.nodes pq1 = some (b, pq2)) :
    MergeInv T (mergeStep t a b pq2) := by
  have hpa := popLeast_perm ha
  have hpb := popLeast_perm hb
  have hperm : List.Perm (a :: b :: pq2) t.pq := (hpb.cons a).trans hpa
  have halt : a < t.nodes.length := h.queue_lt (hperm.mem_iff.1 (by simp))
  have hblt : b < t.nodes.length := h.queue_lt (hperm.mem_iff.1 (by simp))
  have hnew : nodeAt (mergeStep t a b pq2).nodes t.nodes.length = mergeNode t.nodes a b t.merges := by
    show nodeAt (t.nodes ++ [_]) t.nodes.length = _
    have := nodeAt_append_right t.nodes [mergeNode t.nodes a b t.merges] 0
    rwa [Nat.add_zero] at this
  have hold : ∀ i < t.nodes.length, nodeAt (mergeStep t a b pq2).nodes i = nodeAt t.nodes i :=
    fun i hi => nodeAt_append_left _ hi
  have hlen : (mergeStep t a b pq2).nodes.length = t.nodes.length + 1 := by simp [mergeStep]
  have hsum : (nodeAt t.nodes a).weight + ((nodeAt t.nodes b).weight + (pq2.map fun i => (nodeAt t.nodes i).weight).sum) =
      total T := by
    rw [← h.queue_weight, ← (hperm.map _).sum_eq]
    simp
  refine ⟨?_, ?_, ?_, ?_, ?_, ?_⟩
  · obtain ⟨ints, h1, h2, h3⟩ := h.layout
    refine ⟨ints ++ [mergeNode t.nodes a b t.merges], ?_, by simp [mergeStep, h2], fun k hk => ?_⟩
    · show t.nodes ++ _ = _
      rw [h1, List.append_assoc]
    · rw [List.length_append, List.length_singleton] at hk
      by_cases hk' : k < ints.length
      · rw [List.getElem_append_left hk']
        exact h3 k hk'
      · have : k = ints.length := by omega
        subst this
        rw [List.getElem_append_right (Nat.le_refl _)]
        simp [mergeNode, h2]
  · have h1 := h.queue_count
    have h2 := hperm.length_eq
    simp only [List.length_cons] at h2
    simp only [mergeStep, List.length_append, List.length_singleton]
    omega
  · rw [hlen, List.range_succ]
    show List.Perm (pq2 ++ [ncount t] ++ childIndices (t.nodes ++ [_])) _
    rw [childIndices_append]
    have hc : childIndices [mergeNode t.nodes a b t.merges] = [a, b] := rfl
    rw [hc, ncount]
    have h1 : List.Perm (pq2 ++ [t.nodes.length] ++ (childIndices t.nodes ++ [a, b]))
        ((a :: b :: pq2) ++ childIndices t.nodes ++ [t.nodes.length]) := by
      rw [List.perm_iff_count]
      intro x
      simp only [List.count_append, List.count_cons, List.count_nil]
      omega
    exact h1.trans (((hperm.append_right _).trans h.owned).append_right _)
  · intro i hi hl
    rw [hlen] at hi
    by_cases hi' : i < t.nodes.length
    · rw [hold i hi'] at hl ⊢
      obtain ⟨h1, h2, h3⟩ := h.internal i hi' hl
      refine ⟨h1, h2, ?_⟩
      rw [hold _ (by omega), hold _ (by omega)]
      exact h3
    · have : i = t.nodes.length := by omega
      subst this
      rw [hnew]
      refine ⟨halt, hblt, ?_⟩
      show _ = (nodeAt _ a).weight + (nodeAt _ b).weight
      rw [hold _ halt, hold _ hblt]
      rfl
  · have hmap : (pq2.map fun i => (nodeAt (mergeStep t a b pq2).nodes i).weight) =
        pq2.map fun i => (nodeAt t.nodes i).weight := by
      refine List.map_congr_left fun i hi => ?_
      rw [hold i (h.queue_lt (hperm.mem_iff.1 (by simp [hi])))]
    have hq : (mergeStep t a b pq2).pq = pq2 ++ [t.nodes.length] := rfl
    rw [hq, List.map_append, hmap, List.map_singleton, hnew, List.sum_append, List.sum_singleton, ← hsum]
    show _ + ((nodeAt t.nodes a).weight + (nodeAt t.nodes b).weight) = _
    omega
  · intro i hi
    rw [hlen] at hi
    by_cases hi' : i < t.nodes.length
    · rw [hold i hi']; exact h.weight_le i hi'
    · have : i = t.nodes.length := by omega
      subst this
      rw [hnew]
      show (nodeAt t.nodes a).weight + (nodeAt t.nodes b).weight ≤ _
      omega

end MergeInv

/-- Whatever holds of the planted leaves and is kept by every merge holds at the loop's end, where one index is queued
(42_treebuilder.md R179). -/
theorem mergeLoop_induct {lt : TieOrder} {T : FreqTable} {P : TreeUnit → Prop}
    (hstep : ∀ (t : TreeUnit) (a b : Nat) (pq1 pq2 : List Nat), MergeInv T t → P t →
      popLeast lt t.nodes t.pq = some (a, pq1) → popLeast lt t.nodes pq1 = some (b, pq2) → P (mergeStep t a b pq2))
    (turns : Nat) (t : TreeUnit) (h : MergeInv T t) (hP : P t) (h1 : 1 ≤ t.pq.length) (h2 : t.pq.length ≤ turns + 1) :
    MergeInv T (mergeLoop lt turns t) ∧ P (mergeLoop lt turns t) ∧ (mergeLoop lt turns t).pq.length = 1 := by
  induction turns generalizing t with
  | zero => exact ⟨h, hP, by simp only [mergeLoop]; omega⟩
  | succ turns ih =>
    obtain ⟨a, pq1, ha⟩ := popLeast_isSome (lt := lt) (nodes := t.nodes) (pq := t.pq) (by rintro h0; simp [h0] at h1)
    have hla := popLeast_length ha
    simp only [mergeLoop, ha]
    cases hb : popLeast lt t.nodes pq1 with
    | none =>
      have : pq1 = [] := by
        by_contra hne
        obtain ⟨_, _, hs⟩ := popLeast_isSome (lt := lt) (nodes := t.nodes) hne
        rw [hs] at hb; cases hb
      subst this
      exact ⟨h, hP, hla⟩
    | some p =>
      obtain ⟨b, pq2⟩ := p
      have hlb := popLeast_length hb
      refine ih _ (h.merged ha hb) (hstep t a b pq1 pq2 h hP ha hb) ?_ ?_
      · simp [mergeStep]
      · simp only [mergeStep, List.length_append, List.length_singleton]
        omega

/-- The merge loop only adds nodes. -/
theorem nodes_subset_mergeLoop (lt : TieOrder) (turns : Nat) (t : TreeUnit) : t.nodes ⊆ (mergeLoop lt turns t).nodes := by
  induction turns generalizing t with
  | zero => exact List.Subset.refl _
  | succ turns ih =>
    simp only [mergeLoop]
    split
    · exact List.Subset.refl _
    · split
      · exact List.Subset.refl _
      · exact fun x hx => ih _ (List.mem_append_left _ hx)

/-- Orders that agree on the nodes of the finished loop make the same merges. -/
theorem mergeLoop_congr {lt lt' : TieOrder} {T : FreqTable} (turns : Nat) (t : TreeUnit) (hi : MergeInv T t)
    (h : ∀ x ∈ (mergeLoop lt turns t).nodes, ∀ y ∈ (mergeLoop lt turns t).nodes, lt x y = lt' x y) :
    mergeLoop lt turns t = mergeLoop lt' turns t := by
  induction turns generalizing t with
  | zero => rfl
  | succ turns ih =>
    have hsub := nodes_subset_mergeLoop lt (turns + 1) t
    have hmem : ∀ i ∈ t.pq, nodeAt t.nodes i ∈ (mergeLoop lt (turns + 1) t).nodes := fun i hm =>
      hsub (nodeAt_mem (hi.queue_lt hm))
    have ha : popLeast lt t.nodes t.pq = popLeast lt' t.nodes t.pq :=
      popLeast_congr fun i hm j hn => h _ (hmem i hm) _ (hmem j hn)
    cases hpa : popLeast lt t.nodes t.pq with
    | none => simp only [mergeLoop, ← ha, hpa]
    | some p =>
      obtain ⟨a, pq1⟩ := p
      have hsub1 : ∀ i ∈ pq1, i ∈ t.pq := fun i hm => (popLeast_perm hpa).mem_iff.1 (List.mem_cons_of_mem _ hm)
      have hb : popLeast lt t.nodes pq1 = popLeast lt' t.nodes pq1 :=
        popLeast_congr fun i hm j hn => h _ (hmem i (hsub1 i hm)) _ (hmem j (hsub1 j hn))
      cases hpb : popLeast lt t.nodes pq1 with
      | none => simp only [mergeLoop, ← ha, ← hb, hpa, hpb]
      | some q =>
        obtain ⟨b, pq2⟩ := q
        simp only [mergeLoop, hpa, hpb] at h
        simp only [mergeLoop, ← ha, ← hb, hpa, hpb]
        exact ih _ (hi.merged hpa hpb) h

/-- The tree depends on the order only through the nodes it has (42_treebuilder.md R177, R180). -/
theorem buildTree_congr {lt lt' : TieOrder} {T : FreqTable}
    (h : ∀ x ∈ (buildTree lt T).nodes, ∀ y ∈ (buildTree lt T).nodes, lt x y = lt' x y) :
    buildTree lt T = buildTree lt' T := by
  by_cases h0 : distinct T = 0
  · rw [buildTree, buildTree, if_pos h0, if_pos h0]
  · rw [buildTree, if_neg h0] at h
    rw [buildTree, buildTree, if_neg h0, if_neg h0, mergeLoop_congr _ _ (MergeInv.planted T) h]

theorem buildTree_empty (lt : TieOrder) : buildTree lt [] = TreeUnit.empty := rfl

/-- Every tree of a non-empty table: the merge loop's invariant with one index queued, that index taken out as the root; and whatever
the merges keep (42_treebuilder.md R171). -/
theorem buildTree_induct {lt : TieOrder} {T : FreqTable} {P : TreeUnit → Prop} (hT : 0 < distinct T) (hplant : P (plantLeaves T))
    (hstep : ∀ (t : TreeUnit) (a b : Nat) (pq1 pq2 : List Nat), MergeInv T t → P t →
      popLeast lt t.nodes t.pq = some (a, pq1) → popLeast lt t.nodes pq1 = some (b, pq2) → P (mergeStep t a b pq2)) :
    ∃ (t : TreeUnit) (r : Nat), MergeInv T t ∧ P t ∧ t.pq = [r] ∧
      buildTree lt T = { t with root := r, pq := [], present := true } := by
  obtain ⟨h1, h2, h3⟩ := mergeLoop_induct hstep (distinct T) (plantLeaves T) (MergeInv.planted T) hplant
    (by simp only [plantLeaves, List.length_range]; exact hT) (by simp [plantLeaves, distinct])
  obtain ⟨r, hr⟩ := List.length_eq_one_iff.1 h3
  refine ⟨mergeLoop lt (distinct T) (plantLeaves T), r, h1, h2, hr, ?_⟩
  rw [buildTree, if_neg (by omega)]
  simp only [hr, List.headD_cons]

theorem root_is_last {T : FreqTable} {t : TreeUnit} {r : Nat} (h : MergeInv T t) (hr : t.pq = [r]) :
    t.merges = distinct T - 1 ∧ t.nodes.length = 2 * distinct T - 1 ∧ r = 2 * distinct T - 2 := by
  have hq := h.queue_count
  have hl := h.length_eq
  rw [hr, List.length_singleton] at hq
  refine ⟨by omega, by omega, ?_⟩
  have hown := h.owned
  rw [hr] at hown
  have hmem : t.nodes.length - 1 ∈ [r] ++ childIndices t.nodes := hown.mem_iff.2 (List.mem_range.2 (by omega))
  rcases List.mem_append.1 hmem with hm | hm
  · have := List.mem_singleton.1 hm
    omega
  · obtain ⟨i, hi, hlf, hj⟩ := mem_childIndices.1 hm
    obtain ⟨hleft, hright, _⟩ := h.internal i hi hlf
    omega

/-- The shape of every built tree (42_treebuilder.md R172, R174, R179; 10_state.md R32). -/
theorem buildTree_shape (lt : TieOrder) {T : FreqTable} (hT : 0 < distinct T) :
    ∃ (t : TreeUnit) (r : Nat), MergeInv T t ∧ t.pq = [r] ∧ buildTree lt T = { t with root := r, pq := [], present := true } ∧
      t.merges = distinct T - 1 ∧ t.nodes.length = 2 * distinct T - 1 ∧ r = 2 * distinct T - 2 := by
  obtain ⟨t, r, h1, _, h3, h4⟩ := buildTree_induct (lt := lt) (P := fun _ => True) hT trivial fun _ _ _ _ _ _ _ _ _ => trivial
  exact ⟨t, r, h1, h3, h4, root_is_last h1 h3⟩

theorem buildTree_present (lt : TieOrder) (T : FreqTable) : (buildTree lt T).present = true ↔ 0 < distinct T := by
  rcases Nat.eq_zero_or_pos (distinct T) with h | h
  · have : T = [] := List.eq_nil_of_length_eq_zero h
    subst this
    simp [buildTree_empty, TreeUnit.empty]
  · obtain ⟨t, r, _, _, he, _⟩ := buildTree_shape lt h
    simp [he, h]

/-- Every tree `buildTree` answers is well formed, whatever the order (10_state.md R31, R32, R34). -/
theorem buildTree_ok (lt : TieOrder) {T : FreqTable} (hT : FreqOk T) : TreeOk (buildTree lt T) := by
  rcases Nat.eq_zero_or_pos (distinct T) with h | h
  · have : T = [] := List.eq_nil_of_length_eq_zero h
    subst this
    rw [buildTree_empty]
    refine ⟨rfl, by decide, by decide, fun _ => rfl, fun hp => ?_⟩
    cases hp
  · obtain ⟨t, r, hi, hq, he, hm, hl, hr⟩ := buildTree_shape lt h
    have h256 : distinct T ≤ 256 := symWf_length hT.1
    have htot := total_lt hT
    rw [he]
    refine ⟨rfl, by show t.merges ≤ 255; omega, ⟨by show t.nodes.length ≤ 511; omega, fun n hn => ?_⟩, (fun hp => by cases hp),
      fun _ => ⟨⟨by show r < t.nodes.length; omega, ?_, hi.internal⟩, by show t.nodes.length = 2 * t.merges + 1; omega⟩⟩
    · obtain ⟨i, hlt, rfl⟩ := List.mem_iff_getElem.1 (show n ∈ t.nodes from hn)
      rw [← nodeAt_of_lt hlt]
      refine ⟨Nat.lt_of_le_of_lt (hi.weight_le i hlt) htot, ?_⟩
      by_cases hleaf : i < distinct T
      · rw [hi.leaf_at (List.getElem?_eq_getElem hleaf)]
        have : (T[i].1).toNat < 256 := T[i].1.isLt
        refine ⟨Nat.zero_lt_succ _, Nat.zero_lt_succ _, ?_⟩
        show (T[i].1).toNat ≤ 510
        omega
      · have hint := hi.internal_at (k := i - distinct T) (by omega)
        rw [show distinct T + (i - distinct T) = i by omega] at hint
        obtain ⟨h1, h2, _⟩ := hi.internal i hlt hint.1
        refine ⟨by omega, by omega, ?_⟩
        rw [hint.2.2]
        omega
    · have := hi.owned
      rw [hq] at this
      exact this

/-- No two nodes of one build share an oid (42_treebuilder.md R175). -/
theorem MergeInv.oid_injective {T : FreqTable} {t : TreeUnit} (h : MergeInv T t) (hw : symWf T) {i j : Nat}
    (hi : i < t.nodes.length) (hj : j < t.nodes.length) (ho : (nodeAt t.nodes i).oid = (nodeAt t.nodes j).oid) : i = j := by
  have hlen := h.length_eq
  have hoid : ∀ k < t.nodes.length, (∃ hk : k < distinct T, (nodeAt t.nodes k).oid = (T[k]'hk).1.toNat) ∨
      (distinct T ≤ k ∧ (nodeAt t.nodes k).oid = 256 + (k - distinct T)) := by
    intro k hk
    by_cases hlt : k < distinct T
    · refine .inl ⟨hlt, ?_⟩
      rw [h.leaf_at (List.getElem?_eq_getElem hlt)]
      rfl
    · have := (h.internal_at (k := k - distinct T) (by omega)).2.2
      rw [show distinct T + (k - distinct T) = k by omega] at this
      exact .inr ⟨by omega, this⟩
  rcases hoid i hi with ⟨hi', e1⟩ | ⟨hi', e1⟩ <;> rcases hoid j hj with ⟨hj', e2⟩ | ⟨hj', e2⟩
  · have hnd := symWf_keys_nodup hw
    have hkey : T[i].1 = T[j].1 := byte_eq_of_toNat (by omega)
    exact (List.Nodup.getElem_inj_iff hnd (hi := by rw [List.length_map]; exact hi') (hj := by rw [List.length_map]; exact hj')).1 (by rw [List.getElem_map, List.getElem_map]; exact hkey)
  · have : (T[i].1).toNat < 256 := T[i].1.isLt
    omega
  · have : (T[j].1).toNat < 256 := T[j].1.isLt
    omega
  · omega

/-- A built tree's nodes carry pairwise distinct oids. -/
theorem buildTree_oid_injective (lt : TieOrder) {T : FreqTable} (hw : symWf T) {i j : Nat}
    (hi : i < (buildTree lt T).nodes.length) (hj : j < (buildTree lt T).nodes.length)
    (ho : (nodeAt (buildTree lt T).nodes i).oid = (nodeAt (buildTree lt T).nodes j).oid) : i = j := by
  rcases Nat.eq_zero_or_pos (distinct T) with h | h
  · have : T = [] := List.eq_nil_of_length_eq_zero h
    subst this
    rw [buildTree_empty] at hi
    exact absurd hi (Nat.not_lt_zero _)
  · obtain ⟨t, r, hinv, _, he, _⟩ := buildTree_shape lt h
    rw [he] at hi hj ho
    exact hinv.oid_injective hw hi hj ho

/-! ### The arena read as a tree -/

/-- Children stand before their parents (10_state.md R32). -/
abbrev ChildrenBefore (nodes : List Node) : Prop :=
  ∀ i < nodes.length, (nodeAt nodes i).leaf = false → (nodeAt nodes i).left < i ∧ (nodeAt nodes i).right < i

theorem childrenBefore_of_internal {nodes : List Node} (h : ∀ i < nodes.length, InternalOk nodes i) : ChildrenBefore nodes :=
  fun i hi hl => ⟨(h i hi hl).1, (h i hi hl).2.1⟩

/-- The tree under an index, followed down at most `fuel` levels. -/
def subtree (nodes : List Node) (fuel i : Nat) : SymTree :=
  match fuel with
  | 0 => .leaf (nodeAt nodes i).sym
  | fuel + 1 =>
    if (nodeAt nodes i).leaf then .leaf (nodeAt nodes i).sym
    else .node (subtree nodes fuel (nodeAt nodes i).left) (subtree nodes fuel (nodeAt nodes i).right)

/-- The tree under an index of an arena whose children stand before their parents. -/
def treeAt (nodes : List Node) (i : Nat) : SymTree := subtree nodes (i + 1) i

theorem subtree_eq_treeAt {nodes : List Node} (h : ChildrenBefore nodes) (i : Nat) (hi : i < nodes.length) (fuel : Nat)
    (hf : i < fuel) : subtree nodes fuel i = treeAt nodes i := by
  induction i using Nat.strong_induction_on generalizing fuel with
  | _ i ih =>
    obtain ⟨f, rfl⟩ : ∃ f, fuel = f + 1 := ⟨fuel - 1, by omega⟩
    simp only [treeAt, subtree]
    split
    · rfl
    · next hl =>
      obtain ⟨h1, h2⟩ := h i hi (by simpa using hl)
      rw [ih _ h1 (by omega) f (by omega), ih _ h2 (by omega) f (by omega), ih _ h1 (by omega) i h1, ih _ h2 (by omega) i h2]

theorem treeAt_leaf {nodes : List Node} {i : Nat} (hl : (nodeAt nodes i).leaf = true) :
    treeAt nodes i = .leaf (nodeAt nodes i).sym := by
  simp [treeAt, subtree, hl]

theorem treeAt_node {nodes : List Node} (h : ChildrenBefore nodes) {i : Nat} (hi : i < nodes.length)
    (hl : (nodeAt nodes i).leaf = false) :
    treeAt nodes i = .node (treeAt nodes (nodeAt nodes i).left) (treeAt nodes (nodeAt nodes i).right) := by
  obtain ⟨h1, h2⟩ := h i hi hl
  rw [treeAt, subtree, if_neg (by simp [hl]), subtree_eq_treeAt h _ (by omega) i h1, subtree_eq_treeAt h _ (by omega) i h2]

/-- Entries added at the end leave the trees below them as they were. -/
theorem treeAt_append {nodes : List Node} (more : List Node) (h : ChildrenBefore nodes) (i : Nat) (hi : i < nodes.length) :
    treeAt (nodes ++ more) i = treeAt nodes i := by
  have hsub : ∀ fuel i, i < nodes.length → subtree (nodes ++ more) fuel i = subtree nodes fuel i := by
    intro fuel
    induction fuel with
    | zero => intro i hi; simp only [subtree, nodeAt_append_left _ hi]
    | succ fuel ih =>
      intro i hi
      simp only [subtree, nodeAt_append_left _ hi]
      split
      · rfl
      · next hl =>
        obtain ⟨h1, h2⟩ := h i hi (by simpa using hl)
        rw [ih _ (by omega), ih _ (by omega)]
  exact hsub _ i hi

theorem MergeInv.childrenBefore {T : FreqTable} {t : TreeUnit} (h : MergeInv T t) : ChildrenBefore t.nodes :=
  childrenBefore_of_internal h.internal

/-- A node weighs as much as its tree (10_state.md R32). -/
theorem MergeInv.weight_treeAt {T : FreqTable} {t : TreeUnit} (h : MergeInv T t) (hw : symWf T) (i : Nat)
    (hi : i < t.nodes.length) : (nodeAt t.nodes i).weight = (treeAt t.nodes i).weight T := by
  induction i using Nat.strong_induction_on with
  | _ i ih =>
    cases hl : (nodeAt t.nodes i).leaf with
    | true =>
      have hlt := (h.leaf_iff hi).1 hl
      rw [treeAt_leaf hl, h.leaf_at (List.getElem?_eq_getElem hlt)]
      exact (ftCount_of_mem hw (List.getElem_mem hlt)).symm
    | false =>
      obtain ⟨h1, h2, h3⟩ := h.internal i hi hl
      rw [treeAt_node h.childrenBefore hi hl, h3, ih _ h1 (by omega), ih _ h2 (by omega)]
      rfl

/-- The trees that one merge leaves queued: those left, and the pair under a new root. -/
theorem treeAt_merged {T : FreqTable} {t : TreeUnit} {lt : TieOrder} {a b : Nat} {pq1 pq2 : List Nat} (h : MergeInv T t)
    (ha : popLeast lt t.nodes t.pq = some (a, pq1)) (hb : popLeast lt t.nodes pq1 = some (b, pq2)) :
    (mergeStep t a b pq2).pq.map (treeAt (mergeStep t a b pq2).nodes) =
      pq2.map (treeAt t.nodes) ++ [.node (treeAt t.nodes a) (treeAt t.nodes b)] := by
  have hperm : List.Perm (a :: b :: pq2) t.pq := ((popLeast_perm hb).cons a).trans (popLeast_perm ha)
  have halt : a < t.nodes.length := h.queue_lt (hperm.mem_iff.1 (by simp))
  have hblt : b < t.nodes.length := h.queue_lt (hperm.mem_iff.1 (by simp))
  have hq : (mergeStep t a b pq2).pq = pq2 ++ [t.nodes.length] := rfl
  have hn : (mergeStep t a b pq2).nodes = t.nodes ++ [mergeNode t.nodes a b t.merges] := rfl
  have hnew : nodeAt (mergeStep t a b pq2).nodes t.nodes.length = mergeNode t.nodes a b t.merges := by
    have := nodeAt_append_right t.nodes [mergeNode t.nodes a b t.merges] 0
    rwa [Nat.add_zero, ← hn] at this
  rw [hq, List.map_append, List.map_singleton]
  refine congrArg₂ _ (List.map_congr_left fun i hi => ?_) (congrArg (fun x => [x]) ?_)
  · exact treeAt_append _ h.childrenBefore i (h.queue_lt (hperm.mem_iff.1 (by simp [hi])))
  · have hk := (h.merged ha hb).childrenBefore
    rw [treeAt_node hk (by simp [mergeStep]) (by rw [hnew]; rfl), hnew]
    show SymTree.node (treeAt (t.nodes ++ _) a) (treeAt (t.nodes ++ _) b) = _
    rw [treeAt_append _ h.childrenBefore a halt, treeAt_append _ h.childrenBefore b hblt]

/-- The leaves of the queued trees are the keys, each once. -/
theorem buildTree_leaves (lt : TieOrder) {T : FreqTable} (hT : 0 < distinct T) :
    List.Perm (treeAt (buildTree lt T).nodes (buildTree lt T).root).leaves (T.map Prod.fst) := by
  obtain ⟨t, r, hi, hP, hq, he⟩ := buildTree_induct (lt := lt) (T := T)
    (P := fun t => List.Perm ((t.pq.map (treeAt t.nodes)).flatMap SymTree.leaves) (T.map Prod.fst)) hT
    (by
      have : (plantLeaves T).pq.map (treeAt (plantLeaves T).nodes) = T.map fun e => SymTree.leaf e.1 := by
        refine List.ext_getElem (by simp [plantLeaves]) fun i h1 h2 => ?_
        have hlt : i < T.length := by simpa using h2
        have hl := (MergeInv.planted T).leaf_at (List.getElem?_eq_getElem hlt)
        simp only [plantLeaves, List.getElem_map, List.getElem_range]
        simp only [plantLeaves] at hl
        rw [treeAt_leaf (by rw [hl]; rfl), hl]
        rfl
      rw [this, List.flatMap_map]
      simp [SymTree.leaves, List.map_eq_flatMap])
    (by
      intro t a b pq1 pq2 h hP ha hb
      have hperm : List.Perm (a :: b :: pq2) t.pq := ((popLeast_perm hb).cons a).trans (popLeast_perm ha)
      have hp2 : List.Perm (((a :: b :: pq2).map (treeAt t.nodes)).flatMap SymTree.leaves) (T.map Prod.fst) :=
        ((hperm.map _).flatMap_right _).trans hP
      rw [treeAt_merged h ha hb, List.flatMap_append]
      refine List.Perm.trans ?_ hp2
      simp only [List.map_cons, List.flatMap_cons, List.flatMap_nil, SymTree.leaves, List.append_nil]
      rw [← List.append_assoc (treeAt t.nodes a).leaves]
      exact List.perm_append_comm)
  rw [he]
  rw [hq] at hP
  simpa using hP

end Sys2Proof.Machine
end

