-- ==== Sys2Proof/Laws/CodeTable.lean ====
section
/-! SUPPORT. The code table: the traversal lists the paths of the arena's tree, recording them keeps the canonical form, and the
derived codes are those paths (43_codetable_stats.md). -/

namespace Sys2Proof.Machine

open Sys2Proof

/-! ### Tables with the same keys -/

/-- Two canonical tables with the same keys list them in the same order. -/
theorem keys_eq_of_mem_iff {α β : Type} {t : SymTable α} {u : SymTable β} (ht : symWf t) (hu : symWf u)
    (h : ∀ b, b ∈ t.map Prod.fst ↔ b ∈ u.map Prod.fst) : t.map Prod.fst = u.map Prod.fst := by
  have hkeys : ∀ {γ : Type} (v : SymTable γ), symWf v → symWf (v.map fun e => (e.1, ())) := by
    intro γ v hv
    have : (v.map fun e => (e.1, ())).map (fun e => e.1.toNat) = v.map fun e => e.1.toNat := by
      rw [List.map_map]; rfl
    rw [symWf, this]
    exact hv
  have hmap : ∀ {γ : Type} (v : SymTable γ), (v.map fun e => (e.1, ())).map Prod.fst = v.map Prod.fst := by
    intro γ v
    rw [List.map_map]; rfl
  have heq := symTable_ext (hkeys t ht) (hkeys u hu) fun k => by
    have h1 := symFind_isSome_iff (t := t.map fun e => (e.1, ())) k
    have h2 := symFind_isSome_iff (t := u.map fun e => (e.1, ())) k
    rw [hmap] at h1 h2
    cases hx : symFind (t.map fun e => (e.1, ())) k <;> cases hy : symFind (u.map fun e => (e.1, ())) k <;>
      simp_all
  have := congrArg (List.map Prod.fst) heq
  rwa [hmap, hmap] at this

/-! ### Recording the leaves -/

theorem symWf_recordCodes (L : List (Byte × Bits)) : symWf (recordCodes L) := by
  have : ∀ (L : List (Byte × Bits)) (C : CodeTable), symWf C → symWf (L.foldl (fun C e => symPut C e.1 e.2) C) := by
    intro L
    induction L with
    | nil => intro C hC; exact hC
    | cons e L ih => intro C hC; exact ih _ (symWf_symPut _ _ hC)
  exact this L [] symWf_nil

/-- Every recorded code is one that was listed. -/
theorem mem_of_mem_recordCodes {L : List (Byte × Bits)} {e : Byte × Bits} (h : e ∈ recordCodes L) : e ∈ L := by
  have : ∀ (L : List (Byte × Bits)) (C : CodeTable), e ∈ L.foldl (fun C e => symPut C e.1 e.2) C → e ∈ C ∨ e ∈ L := by
    intro L
    induction L with
    | nil => intro C hC; exact .inl hC
    | cons f L ih =>
      intro C hC
      rcases ih _ hC with h1 | h1
      · rcases mem_symPut h1 with h2 | h2
        · exact .inr (by simp [h2])
        · exact .inl h2
      · exact .inr (List.mem_cons_of_mem _ h1)
  simpa using this L [] h

/-- The keys recorded are the symbols listed. -/
theorem recordCodes_keys (L : List (Byte × Bits)) (b : Byte) : b ∈ (recordCodes L).map Prod.fst ↔ b ∈ L.map Prod.fst := by
  have : ∀ (L : List (Byte × Bits)) (C : CodeTable),
      (symFind (L.foldl (fun C e => symPut C e.1 e.2) C) b).isSome = true ↔ (symFind C b).isSome = true ∨ b ∈ L.map Prod.fst := by
    intro L
    induction L with
    | nil => intro C; simp
    | cons f L ih =>
      intro C
      rw [List.foldl_cons, ih, symFind_symPut, List.map_cons, List.mem_cons]
      by_cases hb : b = f.1
      · simp [hb]
      · simp [hb]
  rw [← symFind_isSome_iff, recordCodes, this L []]
  simp

/-- With each symbol listed once, the entries recorded are those listed. -/
theorem mem_recordCodes {L : List (Byte × Bits)} (hn : (L.map Prod.fst).Nodup) (e : Byte × Bits) : e ∈ recordCodes L ↔ e ∈ L := by
  refine ⟨mem_of_mem_recordCodes, fun h => ?_⟩
  have hk := (recordCodes_keys L e.1).2 (List.mem_map_of_mem h)
  obtain ⟨f, hf, hfe⟩ := List.mem_map.1 hk
  have hfL := mem_of_mem_recordCodes hf
  have : f = e := List.inj_on_of_nodup_map hn hfL h hfe
  exact this ▸ hf

theorem ctBits_recordCodes {L : List (Byte × Bits)} (hn : (L.map Prod.fst).Nodup) {e : Byte × Bits} (h : e ∈ L) :
    ctBits (recordCodes L) e.1 = e.2 := by
  rw [ctBits, (symFind_eq_some_iff (symWf_recordCodes L) e.1 e.2).2 ((mem_recordCodes hn e).2 h)]
  rfl

theorem ctBits_of_mem {C : CodeTable} (hw : symWf C) {e : Byte × Bits} (h : e ∈ C) : ctBits C e.1 = e.2 := by
  rw [ctBits, (symFind_eq_some_iff hw e.1 e.2).2 h]
  rfl

theorem ctBits_of_not_key {C : CodeTable} {b : Byte} (h : b ∉ C.map Prod.fst) : ctBits C b = [] := by
  rw [← symFind_isSome_iff] at h
  rw [ctBits, Option.not_isSome_iff_eq_none.1 h]
  rfl

/-! ### The traversal -/

/-- The traversal lists the paths of the tree under an index, if it may go as deep as the tree is (43_codetable_stats.md R191). -/
theorem visit_eq_paths {nodes : List Node} (h : ChildrenBefore nodes) (depth i : Nat) (p : Bits) (hi : i < nodes.length)
    (hd : (treeAt nodes i).height < depth) :
    visit nodes depth i p = (treeAt nodes i).paths.map fun e => (e.1, p ++ e.2) := by
  induction depth generalizing i p with
  | zero => omega
  | succ depth ih =>
    simp only [visit]
    cases hl : (nodeAt nodes i).leaf with
    | true => simp [treeAt_leaf hl, SymTree.paths]
    | false =>
      obtain ⟨h1, h2⟩ := h i hi hl
      rw [treeAt_node h hi hl] at hd ⊢
      simp only [SymTree.height] at hd
      rw [if_neg (by simp), ih _ _ (by omega) (by omega), ih _ _ (by omega) (by omega)]
      simp only [SymTree.paths, List.map_append, List.map_map, Function.comp_def, List.append_assoc, List.cons_append,
        List.nil_append]

/-- The codes of a tree whose root is internal are its recorded paths (43_codetable_stats.md R191, R192). -/
theorem deriveCodes_eq {t : TreeUnit} (hp : t.present = true) (hc : ChildrenBefore t.nodes) (hr : t.root < t.nodes.length)
    (hl : (nodeAt t.nodes t.root).leaf = false) (hh : (treeAt t.nodes t.root).height ≤ 255) :
    deriveCodes t = recordCodes (treeAt t.nodes t.root).paths := by
  rw [deriveCodes, if_pos hp, if_neg (by simp [hl]), visit_eq_paths hc _ _ _ hr (by simp only [Config.maxCodeLen]; omega)]
  simp

theorem deriveCodes_single {t : TreeUnit} (hp : t.present = true) (hl : (nodeAt t.nodes t.root).leaf = true) :
    deriveCodes t = [((nodeAt t.nodes t.root).sym, [false])] := by
  rw [deriveCodes, if_pos hp, if_pos hl]
  rfl

theorem deriveCodes_absent {t : TreeUnit} (hp : t.present = false) : deriveCodes t = [] := by
  rw [deriveCodes, if_neg (by simp [hp])]

/-- A tree under an index has no more levels than internal nodes up to the index. -/
theorem height_le_internals {nodes : List Node} (h : ChildrenBefore nodes) (i : Nat) (hi : i < nodes.length) :
    (treeAt nodes i).height ≤ ((nodes.take (i + 1)).filter fun n => !n.leaf).length := by
  induction i using Nat.strong_induction_on with
  | _ i ih =>
    cases hl : (nodeAt nodes i).leaf with
    | true => rw [treeAt_leaf hl]; exact Nat.zero_le _
    | false =>
      obtain ⟨h1, h2⟩ := h i hi hl
      have hmono : ∀ j < i, ((nodes.take (j + 1)).filter fun n => !n.leaf).length ≤
          ((nodes.take i).filter fun n => !n.leaf).length := fun j hj =>
        (List.Sublist.filter _ (List.take_sublist_take_left (by omega))).length_le
      have hlast : ((nodes.take (i + 1)).filter fun n => !n.leaf).length =
          ((nodes.take i).filter fun n => !n.leaf).length + 1 := by
        rw [List.take_succ_eq_append_getElem hi, List.filter_append]
        rw [nodeAt_of_lt hi] at hl
        simp [hl]
      rw [treeAt_node h hi hl, SymTree.height, hlast]
      have := ih _ h1 (by omega)
      have := ih _ h2 (by omega)
      have := hmono _ h1
      have := hmono _ h2
      omega

/-- Following the path to a leaf of the tree under an index passes internal nodes only and ends at a leaf of its symbol. -/
theorem followPath_of_path {nodes : List Node} (h : ChildrenBefore nodes) (i : Nat) (hi : i < nodes.length) {e : Byte × Bits}
    (he : e ∈ (treeAt nodes i).paths) :
    followPath nodes i e.2 < nodes.length ∧ (nodeAt nodes (followPath nodes i e.2)).leaf = true ∧
      (nodeAt nodes (followPath nodes i e.2)).sym = e.1 ∧
      ∀ k < e.2.length, (nodeAt nodes (followPath nodes i (e.2.take k))).leaf = false := by
  induction i using Nat.strong_induction_on generalizing e with
  | _ i ih =>
    cases hl : (nodeAt nodes i).leaf with
    | true =>
      rw [treeAt_leaf hl] at he
      have : e = ((nodeAt nodes i).sym, []) := by simpa [SymTree.paths] using he
      subst this
      exact ⟨hi, hl, rfl, fun k hk => by simp at hk⟩
    | false =>
      obtain ⟨h1, h2⟩ := h i hi hl
      rw [treeAt_node h hi hl] at he
      simp only [SymTree.paths, List.mem_append, List.mem_map] at he
      rcases he with ⟨f, hf, rfl⟩ | ⟨f, hf, rfl⟩
      · obtain ⟨g1, g2, g3, g4⟩ := ih _ h1 (by omega) hf
        refine ⟨g1, g2, g3, fun k hk => ?_⟩
        cases k with
        | zero => exact hl
        | succ k => exact g4 k (by simpa using hk)
      · obtain ⟨g1, g2, g3, g4⟩ := ih _ h2 (by omega) hf
        refine ⟨g1, g2, g3, fun k hk => ?_⟩
        cases k with
        | zero => exact hl
        | succ k => exact g4 k (by simpa using hk)

theorem followPath_append (nodes : List Node) (i : Nat) (p q : Bits) :
    followPath nodes i (p ++ q) = followPath nodes (followPath nodes i p) q := by
  simp [followPath, List.foldl_append]

/-- In one full binary tree every index is reached from the root by a path that passes internal nodes only (10_state.md R32). -/
theorem reachable_of_fullTree {nodes : List Node} {root : Nat} (h : FullTree nodes root) (j : Nat) (hj : j < nodes.length) :
    ∃ p, followPath nodes root p = j ∧ ∀ k < p.length, (nodeAt nodes (followPath nodes root (p.take k))).leaf = false := by
  obtain ⟨hr, hperm, hint⟩ := h
  have key : ∀ m j, nodes.length - j = m → j < nodes.length →
      ∃ p, followPath nodes root p = j ∧ ∀ k < p.length, (nodeAt nodes (followPath nodes root (p.take k))).leaf = false := by
    intro m
    induction m using Nat.strong_induction_on with
    | _ m ih =>
      intro j hm hj
      have hmem : j ∈ root :: childIndices nodes := hperm.mem_iff.2 (List.mem_range.2 hj)
      rcases List.mem_cons.1 hmem with rfl | hmem
      · exact ⟨[], rfl, fun k hk => by simp at hk⟩
      · obtain ⟨i, hi, hl, hji⟩ := mem_childIndices.1 hmem
        obtain ⟨g1, g2, _⟩ := hint i hi hl
        have hlt : j < i := by rcases hji with rfl | rfl <;> assumption
        obtain ⟨p, hp, hk⟩ := ih (nodes.length - i) (by omega) i rfl hi
        rcases hji with hji | hji
        · refine ⟨p ++ [false], by rw [followPath_append, hp, hji]; rfl, fun k hk' => ?_⟩
          rw [List.length_append, List.length_singleton] at hk'
          by_cases hkp : k < p.length
          · rw [List.take_append_of_le_length (by omega)]; exact hk k hkp
          · rw [List.take_append_of_le_length (by omega), List.take_of_length_le (by omega), hp]; exact hl
        · refine ⟨p ++ [true], by rw [followPath_append, hp, hji]; rfl, fun k hk' => ?_⟩
          rw [List.length_append, List.length_singleton] at hk'
          by_cases hkp : k < p.length
          · rw [List.take_append_of_le_length (by omega)]; exact hk k hkp
          · rw [List.take_append_of_le_length (by omega), List.take_of_length_le (by omega), hp]; exact hl
  exact key _ j rfl hj

/-- A path through internal nodes to a leaf is one of the tree's paths. -/
theorem path_mem_of_followPath {nodes : List Node} (h : ChildrenBefore nodes) (i : Nat) (hi : i < nodes.length) (p : Bits)
    (hk : ∀ k < p.length, (nodeAt nodes (followPath nodes i (p.take k))).leaf = false)
    (hl : (nodeAt nodes (followPath nodes i p)).leaf = true) :
    ((nodeAt nodes (followPath nodes i p)).sym, p) ∈ (treeAt nodes i).paths := by
  induction p generalizing i with
  | nil =>
    have hl' : (nodeAt nodes i).leaf = true := hl
    rw [treeAt_leaf hl']
    simp [SymTree.paths, followPath]
  | cons b p ih =>
    have hi0 : (nodeAt nodes i).leaf = false := hk 0 (by simp)
    obtain ⟨h1, h2⟩ := h i hi hi0
    rw [treeAt_node h hi hi0]
    simp only [SymTree.paths, List.mem_append, List.mem_map]
    cases b with
    | false =>
      refine .inl ⟨_, ih _ (by omega) (fun k hk' => ?_) hl, rfl⟩
      exact hk (k + 1) (by simpa using hk')
    | true =>
      refine .inr ⟨_, ih _ (by omega) (fun k hk' => ?_) hl, rfl⟩
      exact hk (k + 1) (by simpa using hk')

/-- The symbols of a full tree's leaves are the symbols of the leaves in its arena. -/
theorem leaves_of_fullTree {nodes : List Node} {root : Nat} (h : FullTree nodes root) (b : Byte) :
    b ∈ (treeAt nodes root).leaves ↔ ∃ n ∈ nodes, n.leaf = true ∧ n.sym = b := by
  have hc := childrenBefore_of_internal h.2.2
  rw [← SymTree.paths_map_fst]
  constructor
  · intro hb
    obtain ⟨e, he, rfl⟩ := List.mem_map.1 hb
    obtain ⟨h1, h2, h3, _⟩ := followPath_of_path hc root h.1 he
    exact ⟨_, nodeAt_mem h1, h2, h3⟩
  · rintro ⟨n, hn, hl, rfl⟩
    obtain ⟨j, hj, rfl⟩ := List.mem_iff_getElem.1 hn
    rw [← nodeAt_of_lt hj] at hl ⊢
    obtain ⟨p, rfl, hk⟩ := reachable_of_fullTree h j hj
    exact List.mem_map.2 ⟨_, path_mem_of_followPath hc root h.1 p hk hl, rfl⟩

/-! ### The derived codes -/

theorem length_childIndices (nodes : List Node) : (childIndices nodes).length = 2 * (nodes.filter fun n => !n.leaf).length := by
  induction nodes with
  | nil => rfl
  | cons n nodes ih =>
    have hs : childIndices (n :: nodes) = childIndices [n] ++ childIndices nodes := childIndices_append [n] nodes
    rw [hs, List.length_append, ih]
    cases hl : n.leaf <;> simp [childIndices, hl]
    omega

/-- A well-formed tree has no more than 255 levels below the root (42_treebuilder.md R185). -/
theorem height_of_treeOk {t : TreeUnit} (h : TreeOk t) (hp : t.present = true) : (treeAt t.nodes t.root).height ≤ 255 := by
  obtain ⟨_, _, hrange, _, hfull⟩ := h
  obtain ⟨hf, _⟩ := hfull hp
  have h1 := height_le_internals (childrenBefore_of_internal hf.2.2) t.root hf.1
  have h2 : ((t.nodes.take (t.root + 1)).filter fun n => !n.leaf).length ≤ (t.nodes.filter fun n => !n.leaf).length :=
    (List.Sublist.filter _ (List.take_sublist _ _)).length_le
  have h3 := hf.2.1.length_eq
  rw [List.length_cons, length_childIndices, List.length_range] at h3
  have h4 := hrange.1
  omega

/-- The codes of a well-formed tree are a prefix code in range (10_state.md R35, R36). -/
theorem codesOk_deriveCodes {t : TreeUnit} (h : TreeOk t) : CodesOk (deriveCodes t) := by
  cases hp : t.present with
  | false =>
    rw [deriveCodes_absent hp]
    exact ⟨symWf_nil, fun _ he => (List.not_mem_nil he).elim, fun _ he => (List.not_mem_nil he).elim⟩
  | true =>
    cases hl : (nodeAt t.nodes t.root).leaf with
    | true =>
      rw [deriveCodes_single hp hl]
      refine ⟨by simp [symWf], fun e he => ?_, fun e he f hf hne => ?_⟩
      · rw [List.mem_singleton.1 he]; exact ⟨Nat.le_refl _, Nat.succ_le_succ (Nat.zero_le _)⟩
      · rw [List.mem_singleton.1 he, List.mem_singleton.1 hf] at hne; exact absurd rfl hne
    | false =>
      have hf := (h.2.2.2.2 hp).1
      have hc := childrenBefore_of_internal hf.2.2
      have hh := height_of_treeOk h hp
      rw [deriveCodes_eq hp hc hf.1 hl hh]
      refine ⟨symWf_recordCodes _, fun e he => ?_, fun e he f hf' hne => ?_⟩
      · have he := mem_of_mem_recordCodes he
        refine ⟨?_, Nat.le_trans (SymTree.path_length_le_height he) hh⟩
        rw [treeAt_node hc hf.1 hl] at he
        exact SymTree.path_length_pos he
      · exact SymTree.not_prefix_of_ne (mem_of_mem_recordCodes he) (mem_of_mem_recordCodes hf') fun h => hne (by rw [h])

/-- The tree built from a table of at least two keys has an internal root, its leaves are the keys, and the codes are its paths. -/
theorem deriveCodes_buildTree (lt : TieOrder) {T : FreqTable} (hT : FreqOk T) (h2 : 2 ≤ distinct T) :
    ∃ u : SymTree, treeAt (buildTree lt T).nodes (buildTree lt T).root = u ∧ List.Perm u.leaves (T.map Prod.fst) ∧
      (nodeAt (buildTree lt T).nodes (buildTree lt T).root).leaf = false ∧
      deriveCodes (buildTree lt T) = recordCodes u.paths ∧ (u.paths.map Prod.fst).Nodup ∧ u.height ≤ distinct T - 1 := by
  have hpres := (buildTree_present lt T).2 (by omega : 0 < distinct T)
  have hok := buildTree_ok lt hT
  have hfull := (hok.2.2.2.2 hpres).1
  have hleaves := buildTree_leaves lt (T := T) (by omega)
  have hl : (nodeAt (buildTree lt T).nodes (buildTree lt T).root).leaf = false := by
    obtain ⟨t, r, hi, _, he, _, hlen, hr⟩ := buildTree_shape lt (T := T) (by omega)
    rw [he]
    show (nodeAt t.nodes r).leaf = false
    have := hi.leaf_iff (i := r) (by omega)
    cases hx : (nodeAt t.nodes r).leaf with
    | false => rfl
    | true => have := this.1 hx; omega
  refine ⟨_, rfl, hleaves, hl, deriveCodes_eq hpres (childrenBefore_of_internal hfull.2.2) hfull.1 hl (height_of_treeOk hok hpres),
    ?_, ?_⟩
  · rw [SymTree.paths_map_fst]
    exact hleaves.nodup_iff.2 (symWf_keys_nodup hT.1)
  · have h1 := SymTree.height_lt_leaves (treeAt (buildTree lt T).nodes (buildTree lt T).root)
    rw [hleaves.length_eq, List.length_map] at h1
    simp only [distinct] at h2 ⊢
    omega

/-- The payload bits of a table under the codes of a tree of its keys are the tree's cost (43_codetable_stats.md R197 (d)). -/
theorem codedBits_recordCodes {T : FreqTable} (hw : symWf T) {u : SymTree} (hu : List.Perm u.leaves (T.map Prod.fst)) :
    codedBits T (recordCodes u.paths) = u.cost T 0 := by
  have hn : (u.paths.map Prod.fst).Nodup := by
    rw [SymTree.paths_map_fst]
    exact hu.nodup_iff.2 (symWf_keys_nodup hw)
  have h1 : codedBits T (recordCodes u.paths) =
      ((T.map Prod.fst).map fun b => ftCount T b * ctLen (recordCodes u.paths) b).sum := by
    rw [codedBits, List.map_map]
    refine congrArg List.sum (List.map_congr_left fun e he => ?_)
    rw [Function.comp_apply, ftCount_of_mem hw he]
  have h2 : (u.leaves.map fun b => ftCount T b * ctLen (recordCodes u.paths) b).sum =
      (u.paths.map fun e => ftCount T e.1 * (0 + e.2.length)).sum := by
    rw [← SymTree.paths_map_fst, List.map_map]
    refine congrArg List.sum (List.map_congr_left fun e he => ?_)
    rw [Function.comp_apply, ctLen, ctBits_recordCodes hn he, Nat.zero_add]
  rw [h1, SymTree.cost_eq_sum, ← h2]
  exact (hu.symm.map _).sum_eq

end Sys2Proof.Machine
end

