-- ==== Sys2Proof/Laws/Orchestrator.lean ====
section
/-! SUPPORT. The orchestrator: each command's phases run out into one closed form, and the tree walk is decoding along a `SymTree`
(44_orchestrator.md). -/

namespace Sys2Proof.Machine

open Sys2Proof

/-! ### Running the phases -/

@[simp] theorem enterPhase_phase (p : Phase) (s : State) : (enterPhase p s).orch.phase = p := rfl

theorem runPhases_zero (s : State) : runPhases 0 s = .go s := rfl

/-- A phase that goes on hands over to the phase now in PHASE. -/
theorem runPhases_go {n : Nat} {s t : State} (h : phaseStep s = .go t) : runPhases (n + 1) s = runPhases n t := by
  simp only [runPhases, h]

theorem runPhases_raise {n : Nat} {s t : State} {e : Err} (h : phaseStep s = .raise e t) :
    runPhases (n + 1) s = .raise e t := by
  simp only [runPhases, h]

theorem runPhases_refuse {n : Nat} {s : State} {r : Refusal} (h : phaseStep s = .refuse r) :
    runPhases (n + 1) s = .refuse r := by
  simp only [runPhases, h]

/-- P_IDLE runs nothing (10_state.md R38). -/
theorem runPhases_idle (n : Nat) {s : State} (h : s.orch.phase = .idle) : runPhases n s = .go s := by
  induction n with
  | zero => rfl
  | succ n ih => rw [runPhases_go (t := s) (by rw [phaseStep, h]), ih]

theorem orchestrate_of_go {p : Phase} {f : Results → Results → Results} {s t : State}
    (h : runPhases phaseTurns (enterPhase p (freshInstance s)) = .go t) : orchestrate p f s = .next (finish t (f t.res)) := by
  simp only [orchestrate, h]

theorem orchestrate_of_raise {p : Phase} {f : Results → Results → Results} {s t : State} {e : Err}
    (h : runPhases phaseTurns (enterPhase p (freshInstance s)) = .raise e t) :
    orchestrate p f s = .next (raiseError e true t) := by
  simp only [orchestrate, h]

theorem orchestrate_of_refuse {p : Phase} {f : Results → Results → Results} {s : State} {r : Refusal}
    (h : runPhases phaseTurns (enterPhase p (freshInstance s)) = .refuse r) : orchestrate p f s = .refused r := by
  simp only [orchestrate, h]

/-! ### Compress -/

theorem bytesOperand_eq (s : State) : bytesOperand s = s.argIn := rfl

theorem execOrCompress_overlong {s : State} (h : s.params.maxInputLen < s.argIn.length) :
    execOrCompress s = .refused .inputTooLong := if_pos h

theorem execOrCompress_of_le {s : State} (h : s.argIn.length ≤ s.params.maxInputLen) :
    execOrCompress s = orchestrate .c1Check
      (fun got r => { r with out := got.out, statSymbolCount := got.statSymbolCount, statSingle := got.statSingle }) s :=
  if_neg (Nat.not_lt.2 h)

/-- Empty data raises EmptyInput in the first phase (44_orchestrator.md R211). -/
theorem execOrCompress_empty {s : State} (h : s.argIn = []) :
    execOrCompress s = .next (raiseError .emptyInput true (enterPhase .c1Check (freshInstance s))) := by
  rw [execOrCompress_of_le (by simp [h]), orchestrate_of_raise]
  refine runPhases_raise ?_
  show compressCheck _ = _
  rw [compressCheck, if_pos]
  show s.argIn.length = 0
  simp [h]

/-- The metadata of a table. -/
def metadata (T : FreqTable) : List Byte := countBytes (distinct T) ++ T.flatMap fun e => entryBytes e.1 e.2

theorem metadata_length (T : FreqTable) : (metadata T).length = 2 + 9 * distinct T := by
  rw [metadata, List.length_append, countBytes_length, entries_length, distinct]

theorem packTable_metadata {T : FreqTable} (hw : symWf T) : packTable T = .ok (metadata T) := packTable_of_wf hw

theorem argIn_ne_nil_of_distinct {s : State} (h : 1 ≤ distinct (buildTable s.argIn)) : s.argIn.length ≠ 0 := by
  intro h0
  rw [List.eq_nil_of_length_eq_zero h0] at h
  exact absurd h (by decide)

/-- Everything OR_COMPRESS does on data of one distinct symbol (44_orchestrator.md R213, R234). -/
theorem execOrCompress_single {s : State} (hlen : s.argIn.length ≤ s.params.maxInputLen)
    (h1 : distinct (buildTable s.argIn) = 1) :
    ∃ t, execOrCompress s = .next t ∧ EndedOk s t ∧ t.free = s.free + 1 ∧ t.res.out = metadata (buildTable s.argIn) ∧
      t.res.statSymbolCount = 1 ∧ t.res.statSingle = true ∧ t.bw = { wbuf := metadata (buildTable s.argIn), wacc := 0, wcnt := 0 } ∧
      t.br = Reader.empty ∧ t.ft = buildTable s.argIn ∧ t.tb = TreeUnit.empty ∧ t.ct = [] ∧
      t.orch = { Orch.idle with icur := (Config.freeCursors s.free).icur } := by
  have hne := argIn_ne_nil_of_distinct (s := s) (by omega)
  have hpack := packTable_metadata (symWf_buildTable s.argIn)
  rw [execOrCompress_of_le hlen]
  simp [orchestrate, phaseTurns, runPhases, phaseStep, enterPhase, compressCheck, compressFreq, compressSingle, compressReturn,
    writeMetadata, recordStats, spendIcur, freshInstance, bytesOperand, hne, h1, hpack]
  and_intros <;> rfl

/-- Everything OR_COMPRESS does on data of several distinct symbols (44_orchestrator.md R214, R234). -/
theorem execOrCompress_several {s : State} (hlen : s.argIn.length ≤ s.params.maxInputLen)
    (h2 : 2 ≤ distinct (buildTable s.argIn)) :
    let T := buildTable s.argIn
    let U := treeOf s.params T
    let w := flushWriter (writePayload (deriveCodes U) s.argIn (writeBytes (metadata T) Writer.empty))
    ∃ t, execOrCompress s = .next t ∧ EndedOk s t ∧ t.free = s.free + 1 ∧ t.res.out = w.wbuf ∧
      t.res.statSymbolCount = BitVec.ofNat 9 (distinct T) ∧ t.res.statSingle = false ∧ t.bw = w ∧ t.br = Reader.empty ∧ t.ft = T ∧
      t.tb = U ∧ t.ct = deriveCodes U ∧
      t.orch = { Orch.idle with icur := (Config.freeCursors s.free).icur, bcur := (Config.freeCursors s.free).bcur } := by
  have hne := argIn_ne_nil_of_distinct (s := s) (by omega)
  have hn1 : ¬ distinct (buildTable s.argIn) = 1 := by omega
  have hpack := packTable_metadata (symWf_buildTable s.argIn)
  have hsingle : singleFlag (distinct (buildTable s.argIn)) = false := by simp [singleFlag, hn1]
  rw [execOrCompress_of_le hlen]
  simp [orchestrate, phaseTurns, runPhases, phaseStep, enterPhase, compressCheck, compressFreq, compressTree, compressCodes,
    compressMeta, compressPayload, compressFlush, compressReturn, writeMetadata, recordStats, spendIcur, freshInstance,
    bytesOperand, hne, hn1, hpack, hsingle]
  and_intros <;> rfl

theorem writePayload_eq (C : CodeTable) (data : List Byte) (w : Writer) :
    writePayload C data w = writeBits (payloadBits C data) w := by
  unfold writePayload
  induction data generalizing w with
  | nil => rfl
  | cons b data ih =>
    rw [List.foldl_cons, ih]
    simp only [payloadBits, List.flatMap_cons]
    rw [writeBits_append]

/-- The writer of a blob: the metadata, then PackBits of the payload bits, none pending (44_orchestrator.md R214). -/
theorem flush_writePayload (C : CodeTable) (data M : List Byte) :
    flushWriter (writePayload C data (writeBytes M Writer.empty)) =
      { wbuf := M ++ packBits (payloadBits C data), wacc := 0, wcnt := 0 } := by
  have hok : WriterOk (writeBytes M Writer.empty) := writeBytes_ok M writerOk_empty
  rw [writePayload_eq]
  have h1 := flush_writeBits_wbuf (payloadBits C data) hok rfl
  have h2 := flushWriter_ok (writeBits_spec (payloadBits C data) hok).1
  have h3 := (flushWriter_spec (writeBits_spec (payloadBits C data) hok).1).2.1
  have h4 := wacc_eq_zero h2 h3
  cases hf : flushWriter (writeBits (payloadBits C data) (writeBytes M Writer.empty)) with
  | mk wbuf wacc wcnt =>
    rw [hf] at h1 h3 h4
    simp only at h1 h3 h4
    subst h1 h3 h4
    rfl

/-! ### Decompress -/

/-- An empty blob raises EmptyInput in the first phase (44_orchestrator.md R221). -/
theorem execOrDecompress_empty {s : State} (h : s.argIn = []) :
    execOrDecompress s = .next (raiseError .emptyInput true (enterPhase .d1Check (freshInstance s))) := by
  rw [execOrDecompress, orchestrate_of_raise]
  refine runPhases_raise ?_
  show decompressCheck _ = _
  rw [decompressCheck, if_pos]
  show s.argIn.length = 0
  simp [h]

/-- Unreadable metadata raises the error of unpacking (44_orchestrator.md R221, 60_exceptions.md R249). -/
theorem execOrDecompress_malformed {s : State} {e : Err} (hne : s.argIn ≠ []) (hu : unpackTable (loadReader s.argIn) = .error e) :
    execOrDecompress s = .next (raiseError e true (enterPhase .d2Unpack (freshInstance s))) := by
  have hlen : ¬ s.argIn.length = 0 := fun h => hne (List.eq_nil_of_length_eq_zero h)
  rw [execOrDecompress, orchestrate_of_raise]
  rw [phaseTurns, runPhases_go (t := enterPhase .d2Unpack (freshInstance s))]
  · refine runPhases_raise ?_
    show decompressUnpack _ = _
    simp only [decompressUnpack]
    show (match unpackTable (loadReader s.argIn) with
      | .ok (T, _, r) => _
      | .error e => _) = _
    rw [hu]
  · show decompressCheck _ = _
    exact if_neg hlen

/-- Everything OR_DECOMPRESS does on a table of one key within the limit (44_orchestrator.md R223, R234). -/
theorem execOrDecompress_single {s : State} {b : Byte} {c n : Nat} {r : Reader} (hne : s.argIn ≠ [])
    (hu : unpackTable (loadReader s.argIn) = .ok ([(b, c)], n, r)) (hl : overLimit s.params.outLimit c = false) :
    ∃ t, execOrDecompress s = .next t ∧ EndedOk s t ∧ t.free = s.free + 1 ∧ t.res.out = List.replicate c b ∧ t.bw = Writer.empty ∧
      t.br = r ∧ t.ft = [(b, c)] ∧ t.tb = TreeUnit.empty ∧ t.ct = [] ∧
      t.orch = { Orch.idle with ecur := (Config.freeCursors s.free).ecur, dout := List.replicate c b } := by
  have hlen : ¬ s.argIn = [] := hne
  simp [execOrDecompress, orchestrate, phaseTurns, runPhases, phaseStep, enterPhase, decompressCheck, decompressUnpack,
    decompressSingle, decompressReturn, spendEcur, freshInstance, bytesOperand, hlen, hu, hl, distinct]
  and_intros <;> rfl

theorem execOrDecompress_single_over {s : State} {b : Byte} {c n : Nat} {r : Reader} (hne : s.argIn ≠ [])
    (hu : unpackTable (loadReader s.argIn) = .ok ([(b, c)], n, r)) (hl : overLimit s.params.outLimit c = true) :
    execOrDecompress s = .refused .outputTooLong := by
  have hlen : ¬ s.argIn = [] := hne
  simp [execOrDecompress, orchestrate, phaseTurns, runPhases, phaseStep, enterPhase, decompressCheck, decompressUnpack,
    decompressSingle, spendEcur, freshInstance, bytesOperand, hlen, hu, hl, distinct]

/-- The orchestrator where the walk begins (44_orchestrator.md R221, R225). -/
def walkStart (p : Config.Params) (T : FreqTable) (free : Nat) : Orch :=
  { phase := .d4Walk, icur := 0, bcur := 0, ecur := (Config.freeCursors free).ecur,
    walk := (treeOf p T).root, expected := total T, emitted := 0, dout := [] }

/-- The walk that OR_DECOMPRESS runs on an unpacked table of no key or of several (44_orchestrator.md R226). -/
def walkOf (p : Config.Params) (T : FreqTable) (r : Reader) (free : Nat) : Reader × Orch :=
  walkLoop (bitsLeft r + 1) (treeOf p T) r (walkStart p T free)

/-- Everything OR_DECOMPRESS does on a table of no key or of several, within the limit (44_orchestrator.md R221, R234). -/
theorem execOrDecompress_tree {s : State} {T : FreqTable} {n : Nat} {r : Reader} (hne : s.argIn ≠ [])
    (hu : unpackTable (loadReader s.argIn) = .ok (T, n, r)) (h1 : distinct T ≠ 1)
    (hl : overLimit s.params.outLimit (walkOf s.params T r s.free).2.dout.length = false) :
    ∃ t, execOrDecompress s = .next t ∧ EndedOk s t ∧ t.free = s.free + 1 ∧ t.res.out = (walkOf s.params T r s.free).2.dout ∧
      t.bw = Writer.empty ∧ t.br = (walkOf s.params T r s.free).1 ∧ t.ft = T ∧ t.tb = treeOf s.params T ∧ t.ct = [] ∧
      t.orch = { (walkOf s.params T r s.free).2 with phase := .idle } := by
  have hlen : ¬ s.argIn = [] := hne
  have hw : walkLoop (bitsLeft r + 1) (treeOf s.params T) r
      { phase := .d4Walk, icur := State.reset.orch.icur, bcur := State.reset.orch.bcur,
        ecur := (Config.freeCursors s.free).ecur, walk := (treeOf s.params T).root, expected := total T, emitted := 0,
        dout := State.reset.orch.dout } = walkOf s.params T r s.free := rfl
  simp [execOrDecompress, orchestrate, phaseTurns, runPhases, phaseStep, enterPhase, decompressCheck, decompressUnpack,
    decompressTree, decompressWalk, decompressReturn, spendEcur, freshInstance, bytesOperand, hlen, hu, h1, hw, hl]
  and_intros <;> rfl

theorem execOrDecompress_tree_over {s : State} {T : FreqTable} {n : Nat} {r : Reader} (hne : s.argIn ≠ [])
    (hu : unpackTable (loadReader s.argIn) = .ok (T, n, r)) (h1 : distinct T ≠ 1)
    (hl : overLimit s.params.outLimit (walkOf s.params T r s.free).2.dout.length = true) :
    execOrDecompress s = .refused .outputTooLong := by
  have hlen : ¬ s.argIn = [] := hne
  have hw : walkLoop (bitsLeft r + 1) (treeOf s.params T) r
      { phase := .d4Walk, icur := State.reset.orch.icur, bcur := State.reset.orch.bcur,
        ecur := (Config.freeCursors s.free).ecur, walk := (treeOf s.params T).root, expected := total T, emitted := 0,
        dout := State.reset.orch.dout } = walkOf s.params T r s.free := rfl
  simp [execOrDecompress, orchestrate, phaseTurns, runPhases, phaseStep, enterPhase, decompressCheck, decompressUnpack,
    decompressTree, decompressWalk, spendEcur, freshInstance, bytesOperand, hlen, hu, h1, hw, hl]

/-! ### Decoding along a tree -/

/-- Decoding bits along the tree u, at most n symbols, the walk standing at `cur`: the symbols, and the bits not read
(44_orchestrator.md R226). -/
def decodeFrom (u : SymTree) (n : Nat) (cur : SymTree) (bits : Bits) : List Byte × Bits :=
  match bits with
  | [] => ([], [])
  | b :: rest =>
    if n = 0 then ([], b :: rest)
    else
      match cur with
      | .leaf _ => ([], b :: rest)
      | .node l r =>
        match if b then r else l with
        | .leaf s => (s :: (decodeFrom u (n - 1) u rest).1, (decodeFrom u (n - 1) u rest).2)
        | .node l' r' => decodeFrom u n (.node l' r') rest

theorem decodeFrom_zero (u cur : SymTree) (bits : Bits) : decodeFrom u 0 cur bits = ([], bits) := by
  cases bits <;> simp [decodeFrom]

/-- The walk is decoding along the arena's tree: what it emits, the bits it leaves, and everything it keeps (44_orchestrator.md R226). -/
theorem walkLoop_spec {t : TreeUnit} (hc : ChildrenBefore t.nodes) (hr : t.root < t.nodes.length)
    (hri : (nodeAt t.nodes t.root).leaf = false) (turns : Nat) (r : Reader) (o : Orch) (hw : o.walk < t.nodes.length)
    (hwi : (nodeAt t.nodes o.walk).leaf = false) (hturns : (remainingBits r).length < turns) (he : o.emitted ≤ o.expected) :
    let d := decodeFrom (treeAt t.nodes t.root) (o.expected - o.emitted) (treeAt t.nodes o.walk) (remainingBits r)
    let z := walkLoop turns t r o
    remainingBits z.1 = d.2 ∧ z.1.rdata = r.rdata ∧ z.2.dout = o.dout ++ d.1 ∧ z.2.emitted = o.emitted + d.1.length ∧
      z.2.emitted ≤ z.2.expected ∧ z.2.walk < t.nodes.length ∧
      z.2 = { o with dout := z.2.dout, emitted := z.2.emitted, walk := z.2.walk } := by
  induction turns generalizing r o with
  | zero => omega
  | succ turns ih =>
    simp only [walkLoop]
    by_cases hlt : o.emitted < o.expected
    · rw [if_pos hlt]
      cases hbits : remainingBits r with
      | nil =>
        rw [readBit_of_nil hbits]
        simp only [decodeFrom, List.append_nil, List.length_nil, Nat.add_zero]
        exact ⟨hbits, trivial, trivial, trivial, he, hw, trivial⟩
      | cons b rest =>
        obtain ⟨r', h1, h2, h3⟩ := readBit_of_cons hbits
        rw [h1]
        have hlen : (remainingBits r').length < turns := by
          rw [hbits, List.length_cons] at hturns
          rw [h2]; omega
        obtain ⟨hl, hrt⟩ := hc o.walk hw hwi
        have hci : (if b then (nodeAt t.nodes o.walk).right else (nodeAt t.nodes o.walk).left) < t.nodes.length := by
          cases b
          · exact Nat.lt_trans hl hw
          · exact Nat.lt_trans hrt hw
        have hn0 : ¬ o.expected - o.emitted = 0 := by omega
        have hchild : (if b then treeAt t.nodes (nodeAt t.nodes o.walk).right else treeAt t.nodes (nodeAt t.nodes o.walk).left) =
            treeAt t.nodes (if b then (nodeAt t.nodes o.walk).right else (nodeAt t.nodes o.walk).left) := by
          cases b <;> rfl
        simp only [decodeFrom]
        rw [if_neg hn0, treeAt_node hc hw hwi]
        simp only [hchild]
        generalize (if b then (nodeAt t.nodes o.walk).right else (nodeAt t.nodes o.walk).left) = i at hci ⊢
        cases hleaf : (nodeAt t.nodes i).leaf with
        | true =>
          rw [if_pos rfl, treeAt_leaf hleaf]
          obtain ⟨g1, g2, g3, g4, g5, g6, g7⟩ := ih r'
            { o with dout := memAppend o.dout [(nodeAt t.nodes i).sym], emitted := o.emitted + 1, walk := t.root } hr hri hlen hlt
          have hsub : o.expected - (o.emitted + 1) = o.expected - o.emitted - 1 := by omega
          simp only [hsub, h2] at g1 g2 g3 g4 g5 g6 g7 ⊢
          refine ⟨g1, g2.trans h3, ?_, ?_, g5, g6, ?_⟩
          · rw [g3]; simp
          · rw [g4, List.length_cons]; omega
          · rw [g7]
        | false =>
          rw [if_neg (by simp), treeAt_node hc hci hleaf]
          obtain ⟨g1, g2, g3, g4, g5, g6, g7⟩ := ih r' { o with walk := i } hci hleaf hlen he
          rw [treeAt_node hc hci hleaf] at g1 g3 g4
          simp only [h2] at g1 g2 g3 g4 g5 g6 g7 ⊢
          exact ⟨g1, g2.trans h3, g3, g4, g5, g6, by rw [g7]⟩
    · rw [if_neg hlt, show o.expected - o.emitted = 0 by omega, decodeFrom_zero]
      simp only [List.append_nil, List.length_nil, Nat.add_zero]
      exact ⟨trivial, trivial, trivial, trivial, he, hw, trivial⟩

/-- Whatever reading a bit keeps of a reader, the walk keeps. -/
theorem walkLoop_reader {P : Reader → Prop} (hP : ∀ r, P r → P (readBit r).2) (turns : Nat) (t : TreeUnit) (r : Reader) (o : Orch)
    (h : P r) : P (walkLoop turns t r o).1 := by
  induction turns generalizing r o with
  | zero => exact h
  | succ turns ih =>
    simp only [walkLoop]
    split
    · have hr := hP r h
      split
      · next hx => rw [hx] at hr; exact hr
      · next b _ hx =>
        rw [hx] at hr
        generalize (if b = true then (nodeAt t.nodes o.walk).right else (nodeAt t.nodes o.walk).left) = i
        split
        · exact ih _ _ hr
        · exact ih _ _ hr
    · exact h

/-- With nothing expected the walk reads nothing and changes nothing (44_orchestrator.md R224). -/
theorem walkLoop_of_expected_le (turns : Nat) (t : TreeUnit) (r : Reader) (o : Orch) (h : o.expected ≤ o.emitted) :
    walkLoop turns t r o = (r, o) := by
  cases turns with
  | zero => rfl
  | succ turns => simp only [walkLoop]; rw [if_neg (by omega)]

/-- One symbol of decoding: either a path of the tree under the walk begins the bits, its symbol is emitted and decoding goes on from
the root behind it, or none does, and all the bits are read for nothing. -/
theorem decodeFrom_step (u : SymTree) (n : Nat) (hn : 0 < n) (l r : SymTree) (bits : Bits) :
    (∃ e ∈ (SymTree.node l r).paths, ∃ rest, bits = e.2 ++ rest ∧
      decodeFrom u n (.node l r) bits = (e.1 :: (decodeFrom u (n - 1) u rest).1, (decodeFrom u (n - 1) u rest).2)) ∨
    ((∀ e ∈ (SymTree.node l r).paths, ¬ e.2 <+: bits) ∧ decodeFrom u n (.node l r) bits = ([], [])) := by
  induction bits generalizing l r with
  | nil =>
    refine .inr ⟨fun e he hp => ?_, rfl⟩
    have := SymTree.path_length_pos he
    rw [List.prefix_nil.1 hp] at this
    simp at this
  | cons b rest ih =>
    simp only [decodeFrom]
    rw [if_neg (by omega)]
    have hmem : ∀ f ∈ (if b then r else l).paths, (f.1, b :: f.2) ∈ (SymTree.node l r).paths := by
      intro f hf
      simp only [SymTree.paths, List.mem_append, List.mem_map]
      cases b with
      | false => exact .inl ⟨f, hf, rfl⟩
      | true => exact .inr ⟨f, hf, rfl⟩
    have hinv : ∀ e ∈ (SymTree.node l r).paths, e.2 <+: b :: rest → ∃ f ∈ (if b then r else l).paths, e = (f.1, b :: f.2) := by
      intro e he hp
      simp only [SymTree.paths, List.mem_append, List.mem_map] at he
      rcases he with ⟨f, hf, rfl⟩ | ⟨f, hf, rfl⟩
      · obtain ⟨rfl, _⟩ := List.cons_prefix_cons.1 hp
        exact ⟨f, hf, rfl⟩
      · obtain ⟨rfl, _⟩ := List.cons_prefix_cons.1 hp
        exact ⟨f, hf, rfl⟩
    generalize (if b then r else l) = c at hmem hinv ⊢
    cases c with
    | leaf s => exact .inl ⟨(s, [b]), hmem (s, []) (by simp [SymTree.paths]), rest, rfl, rfl⟩
    | node l' r' =>
      rcases ih l' r' with ⟨e, he, rest', hbits, hdec⟩ | ⟨hno, hdec⟩
      · exact .inl ⟨_, hmem e he, rest', by simp [hbits], hdec⟩
      · refine .inr ⟨fun e he hp => ?_, hdec⟩
        obtain ⟨f, hf, rfl⟩ := hinv e he hp
        exact hno f hf (List.cons_prefix_cons.1 hp).2

/-- A path at the start of the bits is the one decoded. -/
theorem decodeFrom_path {u l r : SymTree} {n : Nat} (hn : 0 < n) {e : Byte × Bits} (he : e ∈ (SymTree.node l r).paths)
    (rest : Bits) :
    decodeFrom u n (.node l r) (e.2 ++ rest) = (e.1 :: (decodeFrom u (n - 1) u rest).1, (decodeFrom u (n - 1) u rest).2) := by
  rcases decodeFrom_step u n hn l r (e.2 ++ rest) with ⟨f, hf, rest', hbits, hdec⟩ | ⟨hno, _⟩
  · have hef : e = f := by
      by_contra hne
      rcases List.prefix_or_prefix_of_prefix (List.prefix_append e.2 rest) (hbits ▸ List.prefix_append f.2 rest') with hp | hp
      · exact SymTree.not_prefix_of_ne he hf hne hp
      · exact SymTree.not_prefix_of_ne hf he (Ne.symm hne) hp
    subst hef
    rw [hdec, List.append_cancel_left hbits]
  · exact absurd (List.prefix_append _ _) (hno e he)

/-- Decoding the codes of symbols, one after another, gives the symbols and stops there (44_orchestrator.md R231). -/
theorem decodeFrom_payload {l r : SymTree} (hn : ((SymTree.node l r).paths.map Prod.fst).Nodup) (data : List Byte) (rest : Bits)
    (hd : ∀ b ∈ data, b ∈ (SymTree.node l r).leaves) :
    decodeFrom (.node l r) data.length (.node l r) (payloadBits (recordCodes (SymTree.node l r).paths) data ++ rest) =
      (data, rest) := by
  induction data with
  | nil => exact decodeFrom_zero _ _ _
  | cons b data ih =>
    have hb := hd b (by simp)
    rw [← SymTree.paths_map_fst] at hb
    obtain ⟨e, he, rfl⟩ := List.mem_map.1 hb
    have hcode := ctBits_recordCodes hn he
    have hih := ih fun c hc => hd c (List.mem_cons_of_mem _ hc)
    rw [payloadBits, List.flatMap_cons, hcode, List.append_assoc, List.length_cons, decodeFrom_path (by omega) he]
    rw [payloadBits] at hih
    rw [Nat.add_sub_cancel, hih]

/-- What decoding gives is right: the codes of its symbols begin the bits; it stops short of n symbols only where no further code
fits, having read everything; and with n symbols what it left is what stands behind their codes (44_orchestrator.md R226, R228). -/
theorem decodeFrom_sound {l r : SymTree} (hn : ((SymTree.node l r).paths.map Prod.fst).Nodup) (n : Nat) (bits : Bits) :
    let C := recordCodes (SymTree.node l r).paths
    let d := decodeFrom (.node l r) n (.node l r) bits
    d.1.length ≤ n ∧ (∀ b ∈ d.1, b ∈ (SymTree.node l r).leaves) ∧ payloadBits C d.1 <+: bits ∧
      (d.1.length < n → d.2 = [] ∧ ∀ b ∈ (SymTree.node l r).leaves, ¬ payloadBits C (d.1 ++ [b]) <+: bits) ∧
      (d.1.length = n → bits = payloadBits C d.1 ++ d.2) := by
  induction n generalizing bits with
  | zero =>
    simp only [decodeFrom_zero]
    exact ⟨Nat.le_refl _, by simp, List.nil_prefix, by simp, fun _ => rfl⟩
  | succ n ih =>
    rcases decodeFrom_step (.node l r) (n + 1) (by omega) l r bits with ⟨e, he, rest, rfl, hdec⟩ | ⟨hno, hdec⟩
    · obtain ⟨h1, h2, h3, h4, h5⟩ := ih rest
      have hcode := ctBits_recordCodes hn he
      have hleaf : e.1 ∈ (SymTree.node l r).leaves := by
        rw [← SymTree.paths_map_fst]; exact List.mem_map_of_mem he
      simp only [hdec, Nat.add_sub_cancel] at h1 h2 h3 h4 h5 ⊢
      simp only [payloadBits, List.flatMap_cons, List.length_cons, List.cons_append, hcode] at h3 h4 h5 ⊢
      refine ⟨by omega, fun b hb => ?_, (List.prefix_append_right_inj _).2 h3, fun hlt => ?_, fun hlen => ?_⟩
      · rcases List.mem_cons.1 hb with rfl | hb
        · exact hleaf
        · exact h2 b hb
      · obtain ⟨g1, g2⟩ := h4 (by omega)
        exact ⟨g1, fun b hb hp => g2 b hb ((List.prefix_append_right_inj _).1 hp)⟩
      · rw [List.append_assoc, ← h5 (by omega)]
    · simp only [hdec]
      refine ⟨Nat.zero_le _, by simp, List.nil_prefix, fun _ => ⟨trivial, fun b hb hp => ?_⟩, by simp⟩
      rw [← SymTree.paths_map_fst] at hb
      obtain ⟨e, he, rfl⟩ := List.mem_map.1 hb
      have hcode := ctBits_recordCodes hn he
      refine hno e he ?_
      simpa [payloadBits, hcode] using hp

/-! ### The walk of OR_DECOMPRESS -/

/-- The tree of a table of at least two keys as OR_COMPRESS and OR_DECOMPRESS use it: an internal root, the keys as leaves, the codes
its paths. -/
theorem treeOf_spec (p : Config.Params) {T : FreqTable} (hT : FreqOk T) (h2 : 2 ≤ distinct T) :
    ∃ l r : SymTree, treeAt (treeOf p T).nodes (treeOf p T).root = .node l r ∧
      List.Perm (SymTree.node l r).leaves (T.map Prod.fst) ∧ ChildrenBefore (treeOf p T).nodes ∧
      (treeOf p T).root < (treeOf p T).nodes.length ∧
      (nodeAt (treeOf p T).nodes (treeOf p T).root).leaf = false ∧
      deriveCodes (treeOf p T) = recordCodes (SymTree.node l r).paths ∧
      ((SymTree.node l r).paths.map Prod.fst).Nodup := by
  obtain ⟨u, h1, hperm, hl, hd, hn, _⟩ := deriveCodes_buildTree (tieOrderFor p.tieRanks T) hT h2
  have hpres := (buildTree_present (tieOrderFor p.tieRanks T) T).2 (by omega : 0 < distinct T)
  have hfull := ((buildTree_ok (tieOrderFor p.tieRanks T) hT).2.2.2.2 hpres).1
  have hc := childrenBefore_of_internal hfull.2.2
  rw [treeAt_node hc hfull.1 hl] at h1
  subst h1
  exact ⟨_, _, treeAt_node hc hfull.1 hl, hperm, hc, hfull.1, hl, hd, hn⟩

/-- Every key has a code of at least one bit. -/
theorem ctLen_pos (p : Config.Params) {T : FreqTable} (hT : FreqOk T) (h2 : 2 ≤ distinct T) {b : Byte} (hb : ftPresent T b = true) :
    1 ≤ ctLen (deriveCodes (treeOf p T)) b := by
  obtain ⟨l, r, _, hperm, _, _, _, hd, hn⟩ := treeOf_spec p hT h2
  rw [ftPresent_iff, ← hperm.mem_iff, ← SymTree.paths_map_fst] at hb
  obtain ⟨e, he, rfl⟩ := List.mem_map.1 hb
  rw [ctLen, hd, ctBits_recordCodes hn he]
  exact SymTree.path_length_pos he

theorem length_le_payloadBits (C : CodeTable) (data : List Byte) (h : ∀ b ∈ data, 1 ≤ ctLen C b) :
    data.length ≤ (payloadBits C data).length := by
  induction data with
  | nil => simp
  | cons b data ih =>
    have h1 := h b (by simp)
    have h2 := ih fun c hc => h c (by simp [hc])
    simp only [payloadBits, List.flatMap_cons, List.length_append, List.length_cons, ctLen] at *
    omega

/-- Everything the walk of OR_DECOMPRESS leaves, for a table of at least two keys (44_orchestrator.md R226 to R228). -/
theorem walkOf_spec (p : Config.Params) {T : FreqTable} (hT : FreqOk T) (h2 : 2 ≤ distinct T) (r : Reader) (free : Nat) :
    let C := deriveCodes (treeOf p T)
    let z := walkOf p T r free
    z.2.dout.length ≤ total T ∧ (∀ b ∈ z.2.dout, ftPresent T b = true) ∧ payloadBits C z.2.dout <+: remainingBits r ∧
      (z.2.dout.length < total T →
        remainingBits z.1 = [] ∧ ∀ b, ftPresent T b = true → ¬ payloadBits C (z.2.dout ++ [b]) <+: remainingBits r) ∧
      (z.2.dout.length = total T → remainingBits r = payloadBits C z.2.dout ++ remainingBits z.1) ∧
      z.1.rdata = r.rdata ∧ z.2.walk < (treeOf p T).nodes.length ∧
      z.2 = { walkStart p T free with dout := z.2.dout, emitted := z.2.dout.length, walk := z.2.walk } := by
  obtain ⟨l, rt, h1, hperm, hc, hroot, hl, hd, hn⟩ := treeOf_spec p hT h2
  have hs := walkLoop_spec hc hroot hl (bitsLeft r + 1) r (walkStart p T free) hroot hl (by rw [remainingBits_length]; omega)
    (Nat.zero_le _)
  have hsound := decodeFrom_sound hn (total T) (remainingBits r)
  have hz : walkLoop (bitsLeft r + 1) (treeOf p T) r (walkStart p T free) = walkOf p T r free := rfl
  have h0 : (walkStart p T free).expected - 0 = total T := rfl
  have h3 : (walkStart p T free).walk = (treeOf p T).root := rfl
  have h4 : (walkStart p T free).dout = [] := rfl
  have h5 : (walkStart p T free).emitted = 0 := rfl
  simp only [hz, h0, h3, h4, h5, h1, List.nil_append, Nat.zero_add] at hs
  simp only [← hd] at hsound
  obtain ⟨g1, g2, g3, g4, g5, g6, g7⟩ := hs
  obtain ⟨k1, k2, k3, k4, k5⟩ := hsound
  have hm : ∀ b, ftPresent T b = true ↔ b ∈ (SymTree.node l rt).leaves := fun b => by rw [ftPresent_iff, hperm.mem_iff]
  rw [← g3] at k1 k2 k3 k4 k5 g4
  rw [← g1] at k4 k5
  refine ⟨k1, fun b hb => (hm b).2 (k2 b hb), k3, fun hlt => ⟨(k4 hlt).1, fun b hb => (k4 hlt).2 b ((hm b).1 hb)⟩, k5, g2, g6, ?_⟩
  rw [← g4]
  exact g7

/-- The walk on a table of no key reads nothing and emits nothing (44_orchestrator.md R224). -/
theorem walkOf_nil (p : Config.Params) (r : Reader) (free : Nat) : walkOf p [] r free = (r, walkStart p [] free) :=
  walkLoop_of_expected_le _ _ _ _ (Nat.le_refl _)

/-- Of a blob's payload the walk has read the bits of the bytes from n to RPOS but the RCNT still to serve. -/
theorem walkOf_position {n : Nat} (p : Config.Params) (T : FreqTable) (r : Reader) (free : Nat)
    (h : n ≤ r.rpos ∧ r.rpos ≤ r.rdata.length ∧ r.rcnt ≤ 8 * (r.rpos - n)) :
    n ≤ (walkOf p T r free).1.rpos ∧ (walkOf p T r free).1.rpos ≤ (walkOf p T r free).1.rdata.length ∧
      (walkOf p T r free).1.rcnt ≤ 8 * ((walkOf p T r free).1.rpos - n) := by
  refine walkLoop_reader (P := fun r => n ≤ r.rpos ∧ r.rpos ≤ r.rdata.length ∧ r.rcnt ≤ 8 * (r.rpos - n)) ?_ _ _ _ _ h
  intro r ⟨h1, h2, h3⟩
  unfold readBit
  split
  · split
    · exact ⟨h1, h2, h3⟩
    · next c hc =>
      obtain ⟨hlt, _⟩ := List.getElem?_eq_some_iff.1 hc
      refine ⟨?_, hlt, ?_⟩
      · show n ≤ r.rpos + 1; omega
      · show 8 - 1 ≤ 8 * (r.rpos + 1 - n); omega
  · refine ⟨h1, h2, ?_⟩
    show r.rcnt - 1 ≤ 8 * (r.rpos - n)
    omega

/-- A blob's table as OR_DECOMPRESS unpacks it: in range, the reader at the payload, byte-aligned (44_orchestrator.md R221). -/
theorem unpackTable_blob {blob : List Byte} {T : FreqTable} {n : Nat} {r : Reader}
    (h : unpackTable (loadReader blob) = .ok (T, n, r)) :
    FreqOk T ∧ n ≤ blob.length ∧ r = { rdata := blob, rpos := n, rcur := 0, rcnt := 0 } := by
  obtain ⟨h1, -, h3, h4⟩ := unpackTable_ok h
  exact ⟨h1, by simpa [loadReader] using h3, by rw [h4]; simp [loadReader]⟩

/-- The metadata of a table with anything behind it unpacks to the table (44_orchestrator.md R231). -/
theorem unpackTable_metadata {T : FreqTable} (h : FreqOk T) (rest : List Byte) :
    unpackTable (loadReader (metadata T ++ rest)) =
      .ok (T, (metadata T).length, { rdata := metadata T ++ rest, rpos := (metadata T).length, rcur := 0, rcnt := 0 }) := by
  rw [unpackTable_pack h rest (loadReader (metadata T ++ rest)) rfl, metadata_length]
  simp [loadReader]

end Sys2Proof.Machine
end

