-- ==== Sys2Proof/Laws/PerInstr.lean ====
section
/-! SUPPORT. The statement family made per instruction: the command word of an instruction is one byte whose high nibble is the unit
(30_encoding.md R104) and which the opcode map covers in exactly one row (R105). -/

namespace Sys2Proof.Laws.CommandWord

open Sys2Proof

/-- The `unit` field of each operation (30_encoding.md R104). -/
def unitOf (i : Instr) : Nat :=
  match i with
  | .reset => 0
  | .bwWbit _ => 1
  | .bwWbytes => 1
  | .bwFlush => 1
  | .bwGet => 1
  | .brLoad => 2
  | .brRbit => 2
  | .brRbytes => 2
  | .ftBuild => 3
  | .ftPack => 3
  | .ftUnpack => 3
  | .tbBuild => 4
  | .ctDerive => 5
  | .stEntropy => 5
  | .stAvglen => 5
  | .stEff => 5
  | .orCompress => 6
  | .orDecompress => 6

/-- One word, its unit nibble, and one covering row. -/
def Statement (i : Instr) : Prop :=
  (encode i).length = 1 ∧ (encodeByte i).toNat / 16 = unitOf i ∧
    (opcodeMap.filter fun r => r.covers (encodeByte i)).length = 1

theorem reset : Statement .reset := by unfold Statement; decide
theorem bwWbit (b : Bool) : Statement (.bwWbit b) := by unfold Statement; revert b; decide
theorem bwWbytes : Statement .bwWbytes := by unfold Statement; decide
theorem bwFlush : Statement .bwFlush := by unfold Statement; decide
theorem bwGet : Statement .bwGet := by unfold Statement; decide
theorem brLoad : Statement .brLoad := by unfold Statement; decide
theorem brRbit : Statement .brRbit := by unfold Statement; decide
theorem brRbytes : Statement .brRbytes := by unfold Statement; decide
theorem ftBuild : Statement .ftBuild := by unfold Statement; decide
theorem ftPack : Statement .ftPack := by unfold Statement; decide
theorem ftUnpack : Statement .ftUnpack := by unfold Statement; decide
theorem tbBuild : Statement .tbBuild := by unfold Statement; decide
theorem ctDerive : Statement .ctDerive := by unfold Statement; decide
theorem stEntropy : Statement .stEntropy := by unfold Statement; decide
theorem stAvglen : Statement .stAvglen := by unfold Statement; decide
theorem stEff : Statement .stEff := by unfold Statement; decide
theorem orCompress : Statement .orCompress := by unfold Statement; decide
theorem orDecompress : Statement .orDecompress := by unfold Statement; decide

end Sys2Proof.Laws.CommandWord
end

