-- ==== Sys2Proof/Laws/Port.lean ====
section
/-! SUPPORT. The exact value of a statistic and what RES_NUM shows of it (43_codetable_stats.md R195, R196). -/

namespace Sys2Proof.Machine

open Sys2Proof

@[simp] theorem toReal_zeroNum : zeroNum.toReal = 0 := by simp [zeroNum, ExactNum.toReal]

theorem toReal_ratio_eq_zero {p q : Nat} : (ExactNum.ratio p q).toReal = 0 ↔ p = 0 ∨ q = 0 := by
  simp [ExactNum.toReal, div_eq_zero_iff]

theorem entropyReal_nonneg (counts : List Nat) : 0 ≤ entropyReal counts := by
  refine List.sum_nonneg fun x hx => ?_
  obtain ⟨c, hc, rfl⟩ := List.mem_map.1 hx
  have hle : c ≤ counts.sum := List.single_le_sum (by simp) _ hc
  have h0 : 0 ≤ (c : ℝ) / (counts.sum : ℝ) := by positivity
  have h1 : (c : ℝ) / (counts.sum : ℝ) ≤ 1 := div_le_one_of_le₀ (by exact_mod_cast hle) (by positivity)
  have := Real.logb_nonpos (b := 2) (by norm_num) h0 h1
  nlinarith

/-- A statistic is a non-negative real, so NUM maps it. -/
theorem toReal_nonneg (v : ExactNum) : 0 ≤ v.toReal := by
  cases v with
  | ratio p q => exact div_nonneg (Nat.cast_nonneg _) (Nat.cast_nonneg _)
  | entropy counts => exact entropyReal_nonneg counts
  | efficiency counts p q =>
    exact div_nonneg (mul_nonneg (by norm_num) (entropyReal_nonneg counts)) (div_nonneg (Nat.cast_nonneg _) (Nat.cast_nonneg _))

/-- The zero that a rule returns is shown as "exactly NUM(0)" (43_codetable_stats.md R195 (a)). -/
theorem resNumShows_zeroNum {F : Type} {N : Config.NumFormat F} {s : State} (h : s.res.num = zeroNum) (x : F) :
    resNumShows N s x ↔ x = N.num 0 := by
  simp [resNumShows, presentNum, h]

/-- A statistic that is not zero is shown as NUM of it and nothing else. -/
theorem resNumShows_of_ne_zero {F : Type} {N : Config.NumFormat F} {s : State} (h : s.res.num.toReal ≠ 0) (x : F) :
    resNumShows N s x ↔ x = N.num s.res.num.toReal := by
  simp [resNumShows, presentNum, h]

end Sys2Proof.Machine
end

