-- ==== Sys2Proof/Laws/Step.lean ====
section
/-! SUPPORT. What a step can do, said once, and the closed form of every primitive command out of a status other than FAILED. -/

namespace Sys2Proof.Machine

open Sys2Proof

/-! ### Taking a command -/

/-- A command is one word: nothing is left behind it (30_encoding.md R104). -/
theorem decode_single_rest {w : Byte} {i : Instr} {rest : List Byte} (h : decode [w] = .ok (i, rest)) : rest = [] := by
  simp only [decode] at h
  split at h
  · cases h; rfl
  · cases h

/-- A rejected byte is rejected by its own value (30_encoding.md R106). -/
theorem decode_single_reject {w : Byte} {e : DecodeReject} (h : decode [w] = .error e) : e = .illegalCommand w := by
  simp only [decode] at h
  split at h
  · cases h
  · next e' he =>
    cases h
    simp only [decodeByte] at he
    split at he
    · cases he
    · cases he; rfl

theorem hostCommand_wf_iff (c : HostCommand) : c.wf = true ↔ c.argIn.length ≤ maxArgIn := by
  simp [HostCommand.wf]

/-- Everything a step that answers a next state can have done: waited, run the instruction that the next command decodes to, or
recorded an illegal command. -/
theorem step_next_cases {s t : State} (h : step s = .next t) :
    (s.pending = [] ∧ t = s) ∨
    ∃ c rest, s.pending = c :: rest ∧ c.argIn.length ≤ maxArgIn ∧
      ((∃ i, decode [c.cmd] = .ok (i, []) ∧ exec i (latchCommand c rest s) = .next t) ∨
        (decode [c.cmd] = .error (.illegalCommand c.cmd) ∧ s.status ≠ .failed ∧
          t = raiseIllegal c.cmd (latchCommand c rest s))) := by
  simp only [step, stepCommand] at h
  split at h
  · next hp => cases h; exact .inl ⟨hp, rfl⟩
  · next c rest hp =>
    split at h
    · next hw =>
      refine .inr ⟨c, rest, hp, (hostCommand_wf_iff c).1 hw, ?_⟩
      simp only [runCommand] at h
      split at h
      · next i r hd =>
        have hr := decode_single_rest hd
        subst hr
        exact .inl ⟨i, hd, h⟩
      · next e hd =>
        have he := decode_single_reject hd
        subst he
        obtain ⟨hs, ht⟩ := primitive_eq_next.1 h
        exact .inr ⟨hd, hs, (Host.Outcome.next.inj ht).symm⟩
    · cases h

/-! ### The primitive commands -/

variable {s : State}

theorem exec_reset (s : State) : exec .reset s = .next (freshInstance s) := rfl

theorem exec_bwWbit (h : s.status ≠ .failed) (b : Bool) :
    exec (.bwWbit b) s = .next (finish { s with bw := writeBit b s.bw } id) := primitive_of_not_failed h _

theorem exec_bwWbytes (h : s.status ≠ .failed) :
    exec .bwWbytes s = .next (finish { s with bw := writeBytes s.argIn s.bw } id) := primitive_of_not_failed h _

theorem exec_bwFlush (h : s.status ≠ .failed) :
    exec .bwFlush s = .next (finish { s with bw := flushWriter s.bw } id) := primitive_of_not_failed h _

theorem exec_bwGet (h : s.status ≠ .failed) :
    exec .bwGet s = .next (finish s fun r => { r with out := s.bw.wbuf }) := primitive_of_not_failed h _

theorem exec_brLoad (h : s.status ≠ .failed) :
    exec .brLoad s = .next (finish { s with br := loadReader s.argIn } id) := primitive_of_not_failed h _

theorem exec_brRbit (h : s.status ≠ .failed) :
    exec .brRbit s = .next (finish { s with br := (readBit s.br).2 } fun r => { r with bit := (readBit s.br).1 }) :=
  primitive_of_not_failed h _

theorem exec_brRbytes (h : s.status ≠ .failed) :
    exec .brRbytes s = .next (finish { s with br := (readBytes s.argLen.toNat s.br).2 }
      fun r => { r with out := (readBytes s.argLen.toNat s.br).1 }) := primitive_of_not_failed h _

theorem exec_ftBuild (h : s.status ≠ .failed) (hl : s.argIn.length ≤ s.params.maxInputLen) :
    exec .ftBuild s = .next (finish (spendIcur { s with ft := buildTable s.argIn }) id) := by
  show primitive s _ = _
  rw [primitive_of_not_failed h]
  exact if_neg (Nat.not_lt.2 hl)

theorem exec_ftPack_ok (h : s.status ≠ .failed) {M : List Byte} (hp : packTable s.ft = .ok M) :
    exec .ftPack s = .next (finish s fun r => { r with out := M }) := by
  show primitive s _ = _
  rw [primitive_of_not_failed h, hp]

theorem exec_ftPack_error (h : s.status ≠ .failed) {e : Err} (hp : packTable s.ft = .error e) :
    exec .ftPack s = .next (raiseError e false s) := by
  show primitive s _ = _
  rw [primitive_of_not_failed h, hp]

theorem exec_ftUnpack_ok (h : s.status ≠ .failed) {T : FreqTable} {n : Nat} {r : Reader}
    (hu : unpackTable s.br = .ok (T, n, r)) :
    exec .ftUnpack s = .next (finish (spendEcur { s with ft := T, br := r })
      fun res => { res with consumed := BitVec.ofNat 20 n }) := by
  show primitive s _ = _
  rw [primitive_of_not_failed h, hu]

theorem exec_ftUnpack_error (h : s.status ≠ .failed) {e : Err} (hu : unpackTable s.br = .error e) :
    exec .ftUnpack s = .next (raiseError e false s) := by
  show primitive s _ = _
  rw [primitive_of_not_failed h, hu]

theorem exec_tbBuild (h : s.status ≠ .failed) :
    exec .tbBuild s = .next (finish { s with tb := treeOf s.params s.ft }
      fun r => { r with present := (treeOf s.params s.ft).present }) := primitive_of_not_failed h _

theorem exec_ctDerive (h : s.status ≠ .failed) :
    exec .ctDerive s = .next (finish { s with ct := deriveCodes s.tb } id) := primitive_of_not_failed h _

theorem exec_stEntropy (h : s.status ≠ .failed) :
    exec .stEntropy s = .next (finish s fun r => { r with num := tableEntropy s.ft }) := primitive_of_not_failed h _

theorem exec_stAvglen (h : s.status ≠ .failed) :
    exec .stAvglen s = .next (finish s fun r => { r with num := averageLength s.ft s.ct }) := primitive_of_not_failed h _

theorem exec_stEff (h : s.status ≠ .failed) :
    exec .stEff s = .next (finish s fun r => { r with num := efficiencyOf s.ft s.ct }) := primitive_of_not_failed h _

/-! ### Runs of several commands -/

@[simp] theorem execAll_nil (s : State) : execAll [] s = .next s := rfl

theorem execAll_cons_next {i : Instr} {rest : List Instr} {s t : State} (h : exec i s = .next t) :
    execAll (i :: rest) s = execAll rest t := by
  simp only [execAll, h]

theorem execAll_append_next {a b : List Instr} {s t : State} (h : execAll a s = .next t) :
    execAll (a ++ b) s = execAll b t := by
  induction a generalizing s with
  | nil => cases h; rfl
  | cons i a ih =>
    simp only [execAll, List.cons_append] at h ⊢
    split at h
    · exact ih h
    · cases h
    · cases h

theorem runSteps_zero (s : State) : runSteps 0 s = .next s := rfl

theorem runSteps_succ_next {n : Nat} {s t : State} (h : step s = .next t) : runSteps (n + 1) s = runSteps n t := by
  have h' : Sys2Proof.core.step s = .next t := h
  simp only [runSteps, Host.Core.run, h']
  rfl

end Sys2Proof.Machine
end

