-- ==== Sys2Proof/Tests/Slice0.lean ====
section
/-! SUPPORT. The model's own tests. Expected values come from 95_test_vectors.md (the vector's id stands in each docstring) or from the
rule named; and for every statement with hypotheses a witness that meets them all. -/

namespace Sys2Proof.Tests

open Sys2Proof Sys2Proof.Machine

/-- The state a command left, or the reset state where it left none. -/
def after (o : Answer) : State :=
  match o with
  | .next t => t
  | .fault _ => State.reset
  | .refused _ => State.reset

/-- The reset state with an operand at ARG_IN. -/
def given (argIn : List Byte) : State := { State.reset with argIn := argIn }

/-- The reset state with a reader over some bytes. -/
def reading (data : List Byte) : State := { State.reset with br := loadReader data }

/-- A failed instance. -/
def failedState : State := { State.reset with status := .failed, err := 2 }

/-- Metadata entry with a count of one byte, as 95_test_vectors.md writes "41 …01". -/
def entry (s c : Byte) : List Byte := [s, 0, 0, 0, 0, 0, 0, 0, c]

/-! ### Decoding: words written out from the pattern column of 30_encoding.md R105 -/

theorem test_decode_control : decode [0b00000000] = .ok (.reset, []) := by decide
theorem test_decode_bw_wbit0 : decode [0b00010000] = .ok (.bwWbit false, []) := by decide
theorem test_decode_bw_wbit1 : decode [0b00010001] = .ok (.bwWbit true, []) := by decide
theorem test_decode_bw_rest :
    decode [0b00010010] = .ok (.bwWbytes, []) ∧ decode [0b00010011] = .ok (.bwFlush, []) ∧
    decode [0b00010100] = .ok (.bwGet, []) := by decide
theorem test_decode_br :
    decode [0b00100000] = .ok (.brLoad, []) ∧ decode [0b00100001] = .ok (.brRbit, []) ∧
    decode [0b00100010] = .ok (.brRbytes, []) := by decide
theorem test_decode_ft :
    decode [0b00110000] = .ok (.ftBuild, []) ∧ decode [0b00110001] = .ok (.ftPack, []) ∧
    decode [0b00110010] = .ok (.ftUnpack, []) := by decide
theorem test_decode_tb : decode [0b01000000] = .ok (.tbBuild, []) := by decide
theorem test_decode_ct_st :
    decode [0b01010000] = .ok (.ctDerive, []) ∧ decode [0b01010001] = .ok (.stEntropy, []) ∧
    decode [0b01010010] = .ok (.stAvglen, []) ∧ decode [0b01010011] = .ok (.stEff, []) := by decide
theorem test_decode_or :
    decode [0b01100000] = .ok (.orCompress, []) ∧ decode [0b01100001] = .ok (.orDecompress, []) := by decide
/-- No two rows of the opcode map cover one word (30_encoding.md R105). -/
theorem test_rows_do_not_overlap :
    (opcodeMap.map fun r => (r.pattern, r.mask)).Pairwise fun a b =>
      a.1 &&& (a.2 &&& b.2) ≠ b.1 &&& (a.2 &&& b.2) := by decide
/-- X2: these codes are illegal. -/
theorem test_decode_illegal :
    ([0x01, 0x15, 0x23, 0x33, 0x41, 0x54, 0x62, 0x70, 0xFF] : List Byte).all
      (fun w => decide (decode [w] = .error (.illegalCommand w))) = true := by decide
/-- Every row of the opcode table runs as the first command after reset. -/
theorem test_rows_run_after_reset :
    ([0x00, 0x10, 0x11, 0x12, 0x13, 0x14, 0x20, 0x21, 0x22, 0x30, 0x31, 0x32, 0x40, 0x50, 0x51, 0x52, 0x53, 0x60,
      0x61] : List Nat).all
      (fun w => match step (State.reset.withFetchWord 8 w) with
        | .next _ => true
        | .fault _ => false
        | .refused _ => false) = true := by decide

/-! ### WellFormed: an operand the port cannot carry is refused (10_state.md R22) -/

/-- The check reads the operand's length. -/
theorem wf_of_length (n : Nat) :
    HostCommand.wf { cmd := 0x30, argLen := 0, argIn := List.replicate n 0 } = decide (n ≤ 2 ^ 64 - 1) := by
  simp only [HostCommand.wf, List.length_replicate, maxArgIn]
theorem test_overlong_operand_is_ill_formed :
    HostCommand.wf { cmd := 0x30, argLen := 0, argIn := List.replicate (2 ^ 64) 0 } = false :=
  (wf_of_length (2 ^ 64)).trans (by decide)
theorem test_longest_operand_is_well_formed :
    HostCommand.wf { cmd := 0x30, argLen := 0, argIn := List.replicate (2 ^ 64 - 1) 0 } = true :=
  (wf_of_length (2 ^ 64 - 1)).trans (by decide)

/-! ### Control, failure (60_exceptions.md R246 to R248) -/

/-- X5: RESET after a failure. -/
theorem test_reset_clears_failure : (after (exec .reset failedState)).status = .idle ∧
    (after (exec .reset failedState)).err = 0 := by decide
/-- X1: CMD = 01 from reset. -/
theorem test_illegal_command :
    (after (step (State.reset.withFetchWord 8 0x01))).err = 5 ∧
    (after (step (State.reset.withFetchWord 8 0x01))).status = .failed ∧
    (after (step (State.reset.withFetchWord 8 0x01))).res = Results.zero := by decide
/-- X4: BW_GET after a failure is refused. -/
theorem test_failed_refuses : exec .bwGet failedState = .refused .failedStatus := by rfl

/-! ### Bit writer (B1, B2, B5, B13) -/

/-- B1: the eighth bit of 10110001. -/
theorem test_wbit_eighth :
    (after (exec (.bwWbit true) { State.reset with bw := { wbuf := [], wacc := 0b1011000, wcnt := 7 } })).bw =
      { wbuf := [0xB1], wacc := 0, wcnt := 0 } := by decide
/-- P2, command 2: a 0 after a 1. -/
theorem test_wbit_pending :
    (after (exec (.bwWbit false) { State.reset with bw := { wbuf := [], wacc := 1, wcnt := 1 } })).bw =
      { wbuf := [], wacc := 2, wcnt := 2 } := by decide
/-- B13: bytes written while 101 is pending. -/
theorem test_wbytes_bypass :
    (after (exec .bwWbytes { given [0xFF] with bw := { wbuf := [], wacc := 5, wcnt := 3 } })).bw =
      { wbuf := [0xFF], wacc := 5, wcnt := 3 } := by decide
/-- B13 and B5: the flush of 101, and of 1111111. -/
theorem test_flush_pads :
    (after (exec .bwFlush { State.reset with bw := { wbuf := [0xFF], wacc := 5, wcnt := 3 } })).bw.wbuf = [0xFF, 0xA0] ∧
    (after (exec .bwFlush { State.reset with bw := { wbuf := [], wacc := 127, wcnt := 7 } })).bw.wbuf = [0xFE] := by decide
/-- B4: a flush of nothing. -/
theorem test_flush_of_nothing : (after (exec .bwFlush State.reset)).bw = Writer.empty := by decide
/-- B2: the ninth bit is pending, invisible. -/
theorem test_get_hides_pending :
    (after (exec .bwGet { State.reset with bw := { wbuf := [0x80], wacc := 1, wcnt := 1 } })).res.out = [0x80] := by decide

/-! ### Bit reader (B8, B10, B11, B12, B14) -/

/-- B14: a second load discards the part-served byte. -/
theorem test_load_discards :
    (after (exec .brLoad { given [0x00] with br := { rdata := [0xFF], rpos := 1, rcur := 0xFF, rcnt := 7 } })).br =
      { rdata := [0x00], rpos := 0, rcur := 0, rcnt := 0 } := by decide
/-- B8: the first bit of A5 0F, and RPOS moves with it. -/
theorem test_rbit_first :
    (after (exec .brRbit (reading [0xA5, 0x0F]))).res.bit = .bit true ∧
    (after (exec .brRbit (reading [0xA5, 0x0F]))).br = { rdata := [0xA5, 0x0F], rpos := 1, rcur := 0xA5, rcnt := 7 } := by
  decide
/-- B10: EOS over the empty sequence. -/
theorem test_rbit_eos : (after (exec .brRbit (reading []))).res.bit = .eos := by decide
/-- B11: a short read of 3 of 5. -/
theorem test_rbytes_short :
    (after (exec .brRbytes { reading [1, 2, 3] with argLen := 5 })).res.out = [1, 2, 3] ∧
    (after (exec .brRbytes { reading [1, 2, 3] with argLen := 5 })).br.rpos = 3 := by decide
/-- B12: bytes between bits leave the part-served byte. -/
theorem test_rbytes_between_bits :
    (after (exec .brRbytes
      { State.reset with argLen := 1, br := { rdata := [0xA5, 0x0F, 0x33], rpos := 1, rcur := 0xA5, rcnt := 7 } })).br =
      { rdata := [0xA5, 0x0F, 0x33], rpos := 2, rcur := 0xA5, rcnt := 7 } := by decide

/-! ### Frequency table (F1, F4, F6, F9, F13) -/

/-- F4: FF 00 FF. -/
theorem test_build_counts : (after (exec .ftBuild (given [0xFF, 0x00, 0xFF]))).ft = [(0x00, 1), (0xFF, 2)] := by decide
/-- F4: its metadata, in ascending symbol order. -/
theorem test_pack_order :
    (after (exec .ftPack { State.reset with ft := [(0x00, 1), (0xFF, 2)] })).res.out =
      [0, 2] ++ entry 0x00 1 ++ entry 0xFF 2 := by decide
/-- F1: the empty table packs to 00 00. -/
theorem test_pack_empty : (after (exec .ftPack State.reset)).res.out = [0, 0] := by decide
/-- F6: a repeated symbol, the last wins; consumed 20. -/
theorem test_unpack_last_wins :
    (after (exec .ftUnpack (reading ([0, 2] ++ entry 0x41 2 ++ entry 0x41 5)))).ft = [(0x41, 5)] ∧
    (after (exec .ftUnpack (reading ([0, 2] ++ entry 0x41 2 ++ entry 0x41 5)))).res.consumed = 20 := by decide +kernel
/-- F9 and F13: HeaderShort, and EntryTruncated at entry 0 on 7 of 8 frequency bytes. -/
theorem test_unpack_errors :
    (after (exec .ftUnpack (reading [0]))).err = 2 ∧
    (after (exec .ftUnpack (reading [0, 1, 0x41, 0, 0, 0, 0, 0, 0, 0]))).err = 3 ∧
    (after (exec .ftUnpack (reading [0, 1, 0x41, 0, 0, 0, 0, 0, 0, 0]))).errInfo = some 0 := by decide

/-! ### Tree builder (T4, T9) -/

/-- T4: {41:1, 42:1, 43:1}; leaf 43 is popped before node 3. -/
theorem test_tree_tie :
    ((after (exec .tbBuild { State.reset with ft := [(0x41, 1), (0x42, 1), (0x43, 1)] })).tb.nodes.drop 3) =
      [{ leaf := false, sym := 0, weight := 2, left := 0, right := 1, oid := 256 },
       { leaf := false, sym := 0, weight := 3, left := 2, right := 3, oid := 257 }] ∧
    (after (exec .tbBuild { State.reset with ft := [(0x41, 1), (0x42, 1), (0x43, 1)] })).tb.root = 4 := by decide +kernel
/-- T9: {41:3, 42:1}; the lighter 42 is left. T1: absent. -/
theorem test_tree_lighter_left :
    (nodeAt (after (exec .tbBuild { State.reset with ft := [(0x41, 3), (0x42, 1)] })).tb.nodes 2).left = 1 ∧
    (after (exec .tbBuild State.reset)).res.present = false := by decide +kernel

/-- R177, R183: under a TIE_ORDER that puts 42 before 41 at equal weight, the codes of T3 are exchanged. -/
theorem test_tie_order_is_a_parameter :
    let p : Config.Params := { maxInputLen := 9, outLimit := none, tieRanks := [([(0x41, 1), (0x42, 1)], List.replicate 0x41 0 ++ [1])] }
    deriveCodes (treeOf p [(0x41, 1), (0x42, 1)]) = [(0x41, [true]), (0x42, [false])] := by decide +kernel

/-! ### Codes and statistics (T2, T6, K6, K9, K10) -/

/-- T6: codes of {61:1, 62:1, 63:2}. -/
theorem test_codes :
    (after (exec .ctDerive { State.reset with tb := buildTree defaultOrder [(0x61, 1), (0x62, 1), (0x63, 2)] })).ct =
      [(0x61, [true, false]), (0x62, [true, true]), (0x63, [false])] := by decide +kernel
/-- T2: a single leaf has the code 0. -/
theorem test_code_single_leaf :
    (after (exec .ctDerive { State.reset with tb := buildTree defaultOrder [(0x41, 10)] })).ct = [(0x41, [false])] := by
  decide +kernel
/-- K9: the zero-count key adds nothing to the entropy. K11: a total of 0 gives zero. -/
theorem test_entropy_skips_zero_counts :
    (after (exec .stEntropy { State.reset with ft := [(0x41, 0), (0x42, 2)] })).res.num = .entropy [2] ∧
    (after (exec .stEntropy { State.reset with ft := [(0x41, 0)] })).res.num = .ratio 0 1 := by decide
/-- K10: stale codes, only 41 in both tables: L = 1/2. -/
theorem test_avglen_stale_codes :
    (after (exec .stAvglen { State.reset with ft := [(0x41, 1), (0x42, 1)], ct := [(0x41, [false])] })).res.num =
      .ratio 1 2 := by decide
/-- K10 and K1: the efficiency of the same, and of nothing. -/
theorem test_efficiency :
    (after (exec .stEff { State.reset with ft := [(0x41, 1), (0x42, 1)], ct := [(0x41, [false])] })).res.num =
      .efficiency [1, 1] 1 2 ∧
    (after (exec .stEff State.reset)).res.num = .ratio 0 1 := by decide

/-! ### Orchestrator (O2, O7, O9, E1, E7, E14, E20, V11) -/

/-- O2: "ABC". -/
theorem test_compress_abc :
    (after (exec .orCompress (given [0x41, 0x42, 0x43]))).res.out =
      [0, 3] ++ entry 0x41 1 ++ entry 0x42 1 ++ entry 0x43 1 ++ [0xB0] ∧
    (after (exec .orCompress (given [0x41, 0x42, 0x43]))).res.statSymbolCount = 3 := by decide +kernel
/-- O7: the single-symbol path, accepted while FAILED (X6). -/
theorem test_compress_single :
    (after (exec .orCompress { failedState with argIn := [0, 0, 0] })).res.out = [0, 1] ++ entry 0x00 3 ∧
    (after (exec .orCompress { failedState with argIn := [0, 0, 0] })).res.statSingle = true := by decide +kernel
/-- O9 for "ABC"; E14, the single-entry path on a repeated symbol; E7, no entries. -/
theorem test_decompress :
    (after (exec .orDecompress (given ([0, 3] ++ entry 0x41 1 ++ entry 0x42 1 ++ entry 0x43 1 ++ [0xB0])))).res.out =
      [0x41, 0x42, 0x43] ∧
    (after (exec .orDecompress (given ([0, 2] ++ entry 0x41 2 ++ entry 0x41 5)))).res.out = List.replicate 5 0x41 ∧
    (after (exec .orDecompress (given [0, 0]))).res.out = [] := by decide +kernel
/-- E10: the bits run out; E20 and V11: EmptyInput, and EntryTruncated at entry 1. -/
theorem test_decompress_ends :
    (after (exec .orDecompress (given ([0, 2] ++ entry 0x41 9 ++ entry 0x42 9 ++ [0x40])))).res.out =
      [0x41, 0x42, 0x41, 0x41, 0x41, 0x41, 0x41, 0x41] ∧
    (after (exec .orDecompress (given []))).err = 1 ∧
    (after (exec .orDecompress
      (given [0x69, 0x6E, 0x76, 0x61, 0x6C, 0x69, 0x64, 0x20, 0x64, 0x61, 0x74, 0x61]))).errInfo = some 1 := by
  decide +kernel

end Sys2Proof.Tests
end

