-- ==== Sys2Proof/Tests/Witnesses.lean ====
section
/-! SUPPORT. For every statement with hypotheses, concrete states and operands that meet all of them together; where a statement has
several clauses over one input, a witness for each at a boundary. -/

namespace Sys2Proof.Tests

open Sys2Proof Sys2Proof.Machine

/-- The three-symbol input of O4, "abcc", and its table T6. -/
def abcc : List Byte := [0x61, 0x62, 0x63, 0x63]
/-- T6. -/
def tableT6 : FreqTable := [(0x61, 1), (0x62, 1), (0x63, 2)]
/-- The blob of O1, "AB". -/
def blobAB : List Byte := [0, 2] ++ entry 0x41 1 ++ entry 0x42 1 ++ [0x40]

theorem witness_DecodeReadsExactlyTheEncodings : decode ([0x61] ++ [0xFF]) = .ok (.orDecompress, [0xFF]) := by decide

theorem witness_StepRunsTheDecodedInstruction :
    ∃ (s : State) (c : HostCommand) (rest : List HostCommand) (i : Instr),
      s.pending = c :: rest ∧ c.argIn.length ≤ 2 ^ 64 - 1 ∧ decode [c.cmd] = .ok (i, []) :=
  ⟨{ State.reset with pending := [hostCommand .brLoad [0xA5], hostCommand .brRbit []] },
    hostCommand .brLoad [0xA5], [hostCommand .brRbit []], .brLoad, rfl, by decide, by decide⟩

theorem witness_StepWaitsForACommand :
    (∃ s : State, s.pending = []) ∧
    (∃ (s : State) (c : HostCommand) (rest : List HostCommand), s.pending = c :: rest ∧ 2 ^ 64 - 1 < c.argIn.length) := by
  refine ⟨⟨State.reset, rfl⟩,
    ⟨{ State.reset with pending := [⟨0x30, 0, List.replicate (2 ^ 64) 0⟩] }, ⟨0x30, 0, List.replicate (2 ^ 64) 0⟩, [], rfl, ?_⟩⟩
  show 2 ^ 64 - 1 < (List.replicate (2 ^ 64) (0 : Byte)).length
  rw [List.length_replicate]
  decide

theorem witness_PlacedWordIsRunNext : decodeTableWord 8 0x61 = some .orDecompress ∧ decodeTableWord 8 0x00 = some .reset := by
  decide

theorem witness_IllegalCommandChangesOnlyTheFaultRecord :
    ∃ (s : State) (c : HostCommand) (rest : List HostCommand),
      s.pending = c :: rest ∧ c.argIn.length ≤ 2 ^ 64 - 1 ∧ s.status ≠ .failed ∧
      decode [c.cmd] = .error (.illegalCommand c.cmd) :=
  ⟨{ State.reset with pending := [⟨0x62, 0, []⟩] }, ⟨0x62, 0, []⟩, [], rfl, by decide, by decide, by decide⟩

theorem witness_FailedStatusRefusesCommands :
    ∃ (s : State) (c : HostCommand) (rest : List HostCommand),
      s.status = .failed ∧ s.pending = c :: rest ∧ c.argIn.length ≤ 2 ^ 64 - 1 ∧
      c.cmd ≠ 0x00 ∧ c.cmd ≠ 0x60 ∧ c.cmd ≠ 0x61 :=
  ⟨{ failedState with pending := [⟨0x7F, 0, []⟩] }, ⟨0x7F, 0, []⟩, [], rfl, rfl, by decide, by decide, by decide, by decide⟩

theorem witness_OperationsEndExceptForThreeReasons :
    exec .bwGet failedState = .refused .failedStatus ∧
    exec .ftBuild { given abcc with params := { maxInputLen := 3, outLimit := none, tieRanks := [] } } = .refused .inputTooLong ∧
    exec .orDecompress { given blobAB with params := { maxInputLen := 99, outLimit := some 1, tieRanks := [] } } =
      .refused .outputTooLong := ⟨rfl, rfl, rfl⟩

theorem witness_ErrorsComeOnlyFromTheirOperations :
    (after (exec .reset failedState)).status = .idle ∧ (after (exec .bwFlush State.reset)).status = .done ∧
    (after (exec .orCompress State.reset)).err = 1 ∧ (after (exec .ftUnpack (reading [0]))).err = 2 ∧
    (after (exec .orDecompress (given [0, 1]))).err = 3 ∧
    65535 < distinct (List.replicate 65536 ((0 : Byte), 0)) := by
  refine ⟨rfl, rfl, rfl, rfl, rfl, ?_⟩
  show 65535 < (List.replicate 65536 ((0 : Byte), 0)).length
  rw [List.length_replicate]
  decide

theorem witness_WriteBitAccumulatesOrAppends :
    (∃ s : State, s.status ≠ .failed ∧ WriterOk s.bw ∧ s.bw.wcnt = 7) ∧
    (∃ s : State, s.status ≠ .failed ∧ WriterOk s.bw ∧ s.bw.wcnt = 6) :=
  ⟨⟨{ State.reset with bw := { wbuf := [], wacc := 127, wcnt := 7 } }, by decide, by decide, by decide⟩,
    ⟨{ State.reset with bw := { wbuf := [], wacc := 63, wcnt := 6 } }, by decide, by decide, by decide⟩⟩

theorem witness_WriterLawForBitSequences : State.reset.status ≠ .failed ∧ WriterOk State.reset.bw ∧ State.reset.bw.wcnt = 0 := by
  decide

theorem witness_not_failed : State.reset.status ≠ .failed := by decide

theorem witness_FlushPadsAndIsIdempotent :
    (∃ s : State, s.status ≠ .failed ∧ WriterOk s.bw ∧ s.bw.wcnt = 1) ∧
    (∃ s : State, s.status ≠ .failed ∧ WriterOk s.bw ∧ s.bw.wcnt = 0) :=
  ⟨⟨{ State.reset with bw := { wbuf := [0xFF], wacc := 1, wcnt := 1 } }, by decide, by decide, by decide⟩,
    ⟨State.reset, by decide, by decide, by decide⟩⟩

theorem witness_WrittenBitsReadOutAsPackBits : State.reset.status ≠ .failed ∧ State.reset.bw = Writer.empty := by decide

theorem witness_ReadBitServesLoadsOrEnds :
    (∃ s : State, s.status ≠ .failed ∧ s.br.rcnt = 1) ∧
    (∃ (s : State) (c : Byte), s.status ≠ .failed ∧ s.br.rcnt = 0 ∧ s.br.rdata[s.br.rpos]? = some c) ∧
    (∃ s : State, s.status ≠ .failed ∧ s.br.rcnt = 0 ∧ s.br.rdata.length ≤ s.br.rpos) :=
  ⟨⟨{ State.reset with br := { rdata := [0xA5], rpos := 1, rcur := 0xA5, rcnt := 1 } }, by decide, by decide⟩,
    ⟨reading [0xA5], 0xA5, by decide, by decide, by decide⟩, ⟨State.reset, by decide, by decide, by decide⟩⟩

theorem witness_ReadBytesTakesWhatRemains :
    ∃ s : State, s.status ≠ .failed ∧ ReaderOk s.br ∧ s.argLen = 5 ∧ s.br.rcnt = 7 :=
  ⟨{ State.reset with argLen := 5, br := { rdata := [1, 2, 3], rpos := 1, rcur := 1, rcnt := 7 } },
    by decide, by decide, by decide, by decide⟩

theorem witness_BitOrderIsSymmetric :
    ∃ (s : State) (M : List Byte), s.status ≠ .failed ∧ s.bw = Writer.empty ∧ s.argIn = M ∧ M.length < 2 ^ 64 :=
  ⟨given [0, 2], [0, 2], by decide, by decide, by decide, by decide⟩

theorem witness_BuildCountsEverySymbol :
    ∃ s : State, s.status ≠ .failed ∧ s.argIn.length ≤ s.params.maxInputLen ∧ s.argIn = abcc :=
  ⟨given abcc, by decide, by decide, rfl⟩

theorem witness_OverlongInputIsRefused :
    ∃ s : State, s.params.maxInputLen < s.argIn.length ∧ s.status ≠ .failed :=
  ⟨{ given abcc with params := { maxInputLen := 3, outLimit := none, tieRanks := [] } }, by decide, by decide⟩

theorem witness_PackWritesCountAndEntries :
    ∃ (s : State) (e : Byte × Nat), s.status ≠ .failed ∧ FreqOk s.ft ∧ s.ft[2]? = some e :=
  ⟨{ State.reset with ft := tableT6 }, (0x63, 2), by decide, by decide, by decide⟩

theorem witness_UnpackReadsTheWholeTableOrFails :
    (∃ s : State, s.status ≠ .failed ∧ ReaderOk s.br ∧ (s.br.rdata.drop s.br.rpos).length = 1) ∧
    (∃ s : State, s.status ≠ .failed ∧ ReaderOk s.br ∧
      (s.br.rdata.drop s.br.rpos).length = 1 + 9 * beValue ((s.br.rdata.drop s.br.rpos).take 2)) ∧
    (∃ s : State, s.status ≠ .failed ∧ ReaderOk s.br ∧
      (s.br.rdata.drop s.br.rpos).length = 2 + 9 * beValue ((s.br.rdata.drop s.br.rpos).take 2)) :=
  ⟨⟨reading [0], by decide, by decide, by decide⟩,
    ⟨reading [0, 1, 0x41, 0, 0, 0, 0, 0, 0, 0], by decide, by decide, by decide⟩,
    ⟨reading ([0, 1] ++ entry 0x41 10), by decide, by decide, by decide⟩⟩

theorem witness_UnpackOfPackIsTheTable :
    (∃ s : State, s.status ≠ .failed ∧ FreqOk s.ft ∧ s.ft = [(0x41, 0), (0xFF, 2 ^ 64 - 1)]) :=
  ⟨{ State.reset with ft := [(0x41, 0), (0xFF, 2 ^ 64 - 1)] }, by decide, by decide, rfl⟩

theorem witness_EntryOrderDoesNotMatter :
    ∃ (s u : State) (E F : List (Byte × Nat)), s.status ≠ .failed ∧ u.status ≠ .failed ∧ E.length < 65536 ∧
      (E.map Prod.fst).Nodup ∧ List.Perm E F ∧
      s.br = loadReader (countBytes E.length ++ E.flatMap fun e => entryBytes e.1 e.2) ∧
      u.br = loadReader (countBytes F.length ++ F.flatMap fun e => entryBytes e.1 e.2) ∧ E ≠ F :=
  ⟨reading (countBytes 2 ++ [(0x41, 1), (0x42, 1)].flatMap fun e => entryBytes e.1 e.2),
    reading (countBytes 2 ++ [(0x42, 1), (0x41, 1)].flatMap fun e => entryBytes e.1 e.2),
    [(0x41, 1), (0x42, 1)], [(0x42, 1), (0x41, 1)],
    by decide, by decide, by decide, by decide, by decide, rfl, rfl, by decide⟩

theorem witness_TreeBuildGivesAFullBinaryTree :
    (∃ s : State, s.status ≠ .failed ∧ FreqOk s.ft ∧ distinct s.ft = 3) ∧
    (∃ s : State, s.status ≠ .failed ∧ FreqOk s.ft ∧ distinct s.ft = 1) ∧
    (∃ s : State, s.status ≠ .failed ∧ FreqOk s.ft ∧ distinct s.ft = 0) :=
  ⟨⟨{ State.reset with ft := tableT6 }, by decide, by decide, by decide⟩,
    ⟨{ State.reset with ft := [(0x41, 10)] }, by decide, by decide, by decide⟩, ⟨State.reset, by decide, by decide, by decide⟩⟩

/-- A TIE_ORDER that is not the default: among the equal weights of T6, 62 before 61. -/
def ranksT6 : Config.TieRanks := [(tableT6, List.replicate 0x61 0 ++ [1])]

theorem witness_PopLeastReturnsTheLeast :
    popLeast (tieOrderFor [] tableT6) (tableT6.map leafNode) [2, 1, 0] = some (0, [2, 1]) ∧
    popLeast (tieOrderFor ranksT6 tableT6) (tableT6.map leafNode) [2, 1, 0] = some (1, [2, 0]) := by decide +kernel

theorem witness_LeftChildIsTheLesser :
    FreqOk tableT6 ∧ 4 < ncount (buildTree (tieOrderFor [] tableT6) tableT6) ∧
    (nodeAt (buildTree (tieOrderFor [] tableT6) tableT6).nodes 4).leaf = false ∧
    3 < ncount (buildTree (tieOrderFor ranksT6 tableT6) tableT6) ∧
    (nodeAt (buildTree (tieOrderFor ranksT6 tableT6) tableT6).nodes 3).leaf = false := by decide +kernel

theorem witness_TwoKeysGetCodesByCount :
    (∃ s : State, s.status ≠ .failed ∧ (0x41 : Byte).toNat < (0x42 : Byte).toNat ∧ s.ft = [(0x41, 1), (0x42, 1)] ∧
      s.params.tieRanks = []) ∧
    (∃ s : State, s.status ≠ .failed ∧ (0x41 : Byte).toNat < (0x42 : Byte).toNat ∧ s.ft = [(0x41, 1), (0x42, 2)]) ∧
    (∃ s : State, s.status ≠ .failed ∧ (0x41 : Byte).toNat < (0x42 : Byte).toNat ∧ s.ft = [(0x41, 2), (0x42, 1)]) :=
  ⟨⟨{ State.reset with ft := [(0x41, 1), (0x42, 1)] }, by decide, by decide, rfl, rfl⟩,
    ⟨{ State.reset with ft := [(0x41, 1), (0x42, 2)] }, by decide, by decide, rfl⟩,
    ⟨{ State.reset with ft := [(0x41, 2), (0x42, 1)] }, by decide, by decide, rfl⟩⟩

theorem tree_of_T6_ok : TreeOk (buildTree defaultOrder tableT6) := by
  refine ⟨by decide +kernel, by decide +kernel, by decide +kernel, by decide +kernel, ?_⟩
  intro _
  exact ⟨by decide +kernel, by decide +kernel⟩

theorem tree_of_one_key_ok : TreeOk (buildTree defaultOrder [(0x41, 10)]) := by
  refine ⟨by decide +kernel, by decide +kernel, by decide +kernel, by decide +kernel, ?_⟩
  intro _
  exact ⟨by decide +kernel, by decide +kernel⟩

theorem absent_tree_ok : TreeOk TreeUnit.empty := by
  refine ⟨rfl, by decide, by decide, fun _ => rfl, ?_⟩
  intro h
  exact absurd h (by decide)

theorem witness_DerivedCodesAreTheLeafPaths :
    (∃ s : State, s.status ≠ .failed ∧ TreeOk s.tb ∧ s.tb.present = false) ∧
    (∃ s : State, s.status ≠ .failed ∧ TreeOk s.tb ∧ s.tb.present = true ∧ (nodeAt s.tb.nodes s.tb.root).leaf = true) ∧
    (∃ s : State, s.status ≠ .failed ∧ TreeOk s.tb ∧ s.tb.present = true ∧ (nodeAt s.tb.nodes s.tb.root).leaf = false) :=
  ⟨⟨State.reset, by decide, absent_tree_ok, rfl⟩,
    ⟨{ State.reset with tb := buildTree defaultOrder [(0x41, 10)] }, by decide, tree_of_one_key_ok, by decide, by decide⟩,
    ⟨{ State.reset with tb := buildTree defaultOrder tableT6 }, by decide, tree_of_T6_ok, by decide +kernel, by decide +kernel⟩⟩

theorem witness_TreeCodesAreACompletePrefixCode :
    (FreqOk tableT6 ∧ 2 ≤ distinct tableT6) ∧ (∃ e, FreqOk [e] ∧ e = ((0x41 : Byte), 10)) :=
  ⟨by decide, (0x41, 10), by decide, rfl⟩

theorem witness_BuiltTreeHasLeastCost :
    RefinesWeight defaultOrder ∧ FreqOk tableT6 ∧ 2 ≤ distinct tableT6 ∧
    List.Perm (SymTree.node (.leaf 0x63) (.node (.leaf 0x61) (.leaf 0x62))).leaves (tableT6.map Prod.fst) := by
  refine ⟨fun x y h => ?_, by decide, by decide, by decide⟩
  simp only [defaultOrder, Bool.or_eq_true, decide_eq_true_eq, Bool.or_eq_false_iff, Bool.and_eq_false_iff, decide_eq_false_iff_not]
  omega

theorem witness_statistics_clauses :
    (∃ s : State, s.status ≠ .failed ∧ total s.ft = 0) ∧
    (∃ s : State, s.status ≠ .failed ∧ 0 < total s.ft ∧ codedBits s.ft s.ct ≠ 0) :=
  ⟨⟨State.reset, by decide, by decide⟩,
    ⟨{ State.reset with ft := [(0x41, 1), (0x42, 1)], ct := [(0x41, [false])] }, by decide, by decide, by decide⟩⟩

theorem witness_EntropyIsAtMostAverageLength :
    ∃ s : State, s.status ≠ .failed ∧ FreqOk s.ft ∧ 2 ≤ distinct s.ft ∧ (∀ e ∈ s.ft, 0 < e.2) ∧
      s.ct = deriveCodes (buildTree defaultOrder s.ft) :=
  ⟨{ State.reset with ft := tableT6, ct := deriveCodes (buildTree defaultOrder tableT6) },
    by decide, by decide, by decide, by decide, rfl⟩

theorem witness_EmptyInputFails : (given []).argIn = [] ∧ failedState.argIn = [] := by decide

theorem witness_CompressOfOneSymbol :
    ∃ (s : State) (b : Byte) (n : Nat),
      s.argIn = List.replicate (n + 1) b ∧ n + 1 ≤ s.params.maxInputLen ∧ n + 1 < 2 ^ 64 :=
  ⟨given (List.replicate 10 0x41), 0x41, 9, rfl, by decide, by decide⟩

theorem witness_CompressOfSeveralSymbols :
    2 ≤ distinct (buildTable (given abcc).argIn) ∧ (given abcc).argIn.length ≤ (given abcc).params.maxInputLen := by decide

theorem witness_CompressEqualsTheCommandSequence :
    abcc ≠ [] ∧ abcc.length ≤ State.reset.params.maxInputLen ∧ abcc.length ≤ maxArgIn ∧
    2 ≤ distinct (buildTable abcc) ∧ distinct (buildTable [0x41]) = 1 := by decide

theorem witness_UnreadableMetadataFails :
    (∃ s : State, s.argIn ≠ [] ∧ s.argIn.length = 1) ∧
    (∃ s : State, s.argIn ≠ [] ∧ 2 ≤ s.argIn.length ∧ s.argIn.length + 1 = 2 + 9 * beValue (s.argIn.take 2)) :=
  ⟨⟨given [0], by decide, by decide⟩, ⟨given [0, 1, 0x41, 0, 0, 0, 0, 0, 0, 0], by decide, by decide, by decide⟩⟩

theorem witness_DecompressOfOneKeyRepeatsIt :
    ∃ (s u : State) (b : Byte) (c n : Nat) (r : Reader),
      s.argIn ≠ [] ∧ unpackTable (loadReader s.argIn) = .ok ([(b, c)], n, r) ∧ s.params.outLimit = none ∧
      u.argIn = s.argIn ∧ u.params.outLimit = some 2 ∧ 2 < c :=
  ⟨given ([0, 1] ++ entry 0x41 3), { given ([0, 1] ++ entry 0x41 3) with params := { maxInputLen := 9, outLimit := some 2, tieRanks := [] } },
    0x41, 3, 11, { rdata := [0, 1] ++ entry 0x41 3, rpos := 11, rcur := 0, rcnt := 0 },
    by decide, by rfl, rfl, rfl, rfl, by decide⟩

theorem witness_DecompressOfNoEntriesIsEmpty : (given [0, 0, 0xFF]).argIn.take 2 = [0, 0] := by decide

theorem witness_DecompressDecodesThePayload :
    ∃ (s : State) (T : FreqTable) (n : Nat) (r : Reader),
      s.argIn ≠ [] ∧ unpackTable (loadReader s.argIn) = .ok (T, n, r) ∧ 2 ≤ distinct T ∧
      (∀ m, s.params.outLimit = some m → total T ≤ m ∨ 8 * (s.argIn.length - n) ≤ m) :=
  ⟨given blobAB, [(0x41, 1), (0x42, 1)], 20, { rdata := blobAB, rpos := 20, rcur := 0, rcnt := 0 },
    by decide, by rfl, by decide, fun m h => absurd (show none = some m from h) (by simp)⟩

theorem witness_OutputLimitRefusesLongerOutputs :
    ∃ (s t : State) (m : Nat), s.params.outLimit = some m ∧
      exec .orDecompress { s with params := { s.params with outLimit := none } } = .next t ∧ t.status = .done ∧
      t.res.out.length = m + 1 :=
  ⟨{ given blobAB with params := { maxInputLen := 99, outLimit := some 1, tieRanks := [] } },
    after (exec .orDecompress { given blobAB with params := { maxInputLen := 99, outLimit := none, tieRanks := [] } }), 1,
    rfl, by rfl, by rfl, by rfl⟩

theorem witness_DecompressOfCompressIsTheData :
    (given abcc).argIn ≠ [] ∧ (given abcc).argIn.length ≤ (given abcc).params.maxInputLen ∧
    (given abcc).argIn.length ≤ maxArgIn ∧
    (∃ u : State, u.argIn = (after (exec .orCompress (given abcc))).res.out ∧
      u.params.tieRanks = (given abcc).params.tieRanks ∧ u.params.outLimit = none) :=
  ⟨by decide, by decide, by decide, given (after (exec .orCompress (given abcc))).res.out, rfl, rfl, rfl⟩

theorem witness_ExtraBytesIgnoredMissingBytesTruncate :
    2 ≤ distinct (buildTable (given abcc).argIn) ∧ (given abcc).argIn.length ≤ (given abcc).params.maxInputLen ∧
    (given abcc).argIn.length ≤ maxArgIn ∧
    2 + 9 * distinct (after (exec .orCompress (given abcc))).ft = 29 := by decide +kernel

theorem witness_OrchestratorStartsFromAFreshInstance :
    ∃ s u : State, u.argIn = s.argIn ∧ u.params = s.params ∧ u.status ≠ s.status ∧ u.bw ≠ s.bw :=
  ⟨given abcc, { given abcc with status := .failed, err := 2, bw := { wbuf := [1], wacc := 1, wcnt := 1 } },
    rfl, rfl, by decide, by decide⟩

theorem witness_BuffersOnlyGrow :
    exec .bwWbytes (given [0xFF]) = .next (after (exec .bwWbytes (given [0xFF]))) ∧
    (after (exec .bwWbytes (given [0xFF]))).status ≠ .failed := ⟨rfl, by decide⟩

/-- NUM as the identity on the reals, whose one zero is 0. -/
def realNum : Config.NumFormat ℝ where
  num v := v
  le := (· ≤ ·)
  isZero v := v = 0
  num_zero := rfl
  num_mono _ _ _ h := h

theorem witness_EveryTieOrderIsAdmissible : FreqOk tableT6 := by decide

/-- The default order is admissible for T6, and so is one that is no machine's default. -/
theorem witness_EveryAdmissibleOrderIsATieOrder :
    ∀ T ∈ [tableT6], FreqOk T ∧ Admissible (rankedOrder (List.replicate 0x61 0 ++ [1])) T := by
  intro T hT
  rw [List.mem_singleton.1 hT]
  refine ⟨by decide, rankedOrder_refinesWeight _, fun x _ => rankedOrder_irrefl _ x,
    fun x _ y _ z _ => rankedOrder_trans, by decide +kernel⟩

theorem witness_PortShowsNumOfTheStatistic :
    resNumShows realNum State.reset 0 ∧
    (∃ s : State, s.status ≠ .failed ∧ total s.ft = 0) ∧
    (∃ s : State, s.status ≠ .failed ∧ s.ft = [(0x41, 1)] ∧ (after (exec .stAvglen s)).res.num = .ratio 0 1 ∧
      (after (exec .stEntropy s)).res.num = .entropy [1]) ∧
    (∃ s : State, s.status ≠ .failed ∧ s.ft = [(0x41, 1), (0x42, 1)] ∧ (after (exec .stAvglen s)).res.num = .ratio 1 2) :=
  ⟨(resNumShows_zeroNum rfl 0).2 rfl, ⟨State.reset, by decide, by decide⟩,
    ⟨{ State.reset with ft := [(0x41, 1)] }, by decide, rfl, by decide, by decide⟩,
    ⟨{ State.reset with ft := [(0x41, 1), (0x42, 1)], ct := [(0x41, [false])] }, by decide, rfl, by decide⟩⟩

/-- An instance with a table, its tree and codes, bits pending, a byte part served, and a command to run. -/
def busyState : State :=
  { State.reset with
      pending := [hostCommand .ftBuild abcc], status := .done, argIn := [0x41],
      bw := { wbuf := [0xFF], wacc := 5, wcnt := 3 },
      br := { rdata := [0xA5, 0x0F], rpos := 1, rcur := 0xA5, rcnt := 7 },
      ft := tableT6, tb := buildTree defaultOrder tableT6,
      ct := deriveCodes (buildTree defaultOrder tableT6) }

theorem busyState_in_range : RangeInv busyState :=
  ⟨by decide, by decide, ⟨fun _ => ⟨rfl, rfl⟩, fun h => absurd h (by decide)⟩,
    fun _ => ⟨by decide, by decide, by decide, by decide⟩⟩

theorem witness_StepKeepsRegistersInRange :
    ∃ s t : State, RangeInv s ∧ step s = .next t := ⟨busyState, after (step busyState), busyState_in_range, rfl⟩

theorem witness_NoStepChangesTheParameters :
    step busyState = .next (after (step busyState)) ∧ busyState.pending ≠ [] := ⟨rfl, by decide⟩

theorem witness_StepKeepsTreeAndCodesWellFormed :
    ∃ s t : State, TreeInv s ∧ step s = .next t :=
  ⟨busyState, after (step busyState),
    ⟨busyState_in_range, fun _ => ⟨tree_of_T6_ok, by decide +kernel, by decide⟩⟩, rfl⟩

end Sys2Proof.Tests
end

section
/-! PROOFS. The invariants of 10_state.md: what a command can end in, said once, and from it the ranges, the tree and the codes, the
fault record and the parameters. -/

namespace Sys2Proof.Machine

open Sys2Proof

/-! ### The ranges, unit by unit -/

/-- The units of `RangeInv` in their ranges. -/
abbrev UnitsOk (s : State) : Prop := WriterOk s.bw ∧ ReaderOk s.br ∧ FreqOk s.ft ∧ OrchOk s.orch

/-- What `TreeInv` adds: the tree, the codes and WALK. -/
abbrev TreesOk (s : State) : Prop := TreeOk s.tb ∧ CodesOk s.ct ∧ s.orch.walk < 511

theorem freqOk_nil : FreqOk [] := ⟨symWf_nil, fun _ he => (List.not_mem_nil he).elim⟩

theorem orchOk_idle : OrchOk Orch.idle := by decide

theorem treeOk_empty : TreeOk TreeUnit.empty := buildTree_ok defaultOrder freqOk_nil

theorem codesOk_nil : CodesOk [] := codesOk_deriveCodes treeOk_empty

theorem treeOf_ok (p : Config.Params) {T : FreqTable} (hT : FreqOk T) : TreeOk (treeOf p T) := buildTree_ok _ hT

/-- An aligned writer is in range. -/
theorem writerOk_aligned (wbuf : List Byte) : WriterOk { wbuf := wbuf, wacc := 0, wcnt := 0 } :=
  ⟨Nat.zero_le _, Nat.one_pos⟩

theorem unitsOk_freshInstance (s : State) : UnitsOk (freshInstance s) :=
  ⟨writerOk_empty, loadReader_ok (Nat.zero_le _), freqOk_nil, orchOk_idle⟩

theorem treesOk_freshInstance (s : State) : TreesOk (freshInstance s) := ⟨treeOk_empty, codesOk_nil, Nat.zero_lt_succ _⟩

/-! ### Primitive commands -/

/-- What a primitive command can have done to the units when it ends `Ok`. -/
inductive PrimitiveWork (s : State) : State → Prop
  | nothing : PrimitiveWork s s
  | wroteBit (b : Bool) : PrimitiveWork s { s with bw := writeBit b s.bw }
  | wroteBytes (raw : List Byte) : PrimitiveWork s { s with bw := writeBytes raw s.bw }
  | flushed : PrimitiveWork s { s with bw := flushWriter s.bw }
  | loaded : PrimitiveWork s { s with br := loadReader s.argIn }
  | tookBit : PrimitiveWork s { s with br := (readBit s.br).2 }
  | tookBytes (n : Nat) : PrimitiveWork s { s with br := (readBytes n s.br).2 }
  | counted : PrimitiveWork s (spendIcur { s with ft := buildTable s.argIn })
  | unpacked {T : FreqTable} {n : Nat} {r : Reader} (hu : unpackTable s.br = .ok (T, n, r)) :
      PrimitiveWork s (spendEcur { s with ft := T, br := r })
  | builtTree : PrimitiveWork s { s with tb := treeOf s.params s.ft }
  | derivedCodes : PrimitiveWork s { s with ct := deriveCodes s.tb }

theorem PrimitiveWork.hostSideKept {s u : State} (h : PrimitiveWork s u) : HostSideKept s u := by
  cases h <;> exact ⟨rfl, rfl, rfl, rfl⟩

/-- Unpacking keeps the reader in range: it stands past the metadata it read (41_freqtable.md R159). -/
theorem readerOk_of_unpackTable {r r' : Reader} {T : FreqTable} {n : Nat} (hr : ReaderOk r)
    (hu : unpackTable r = .ok (T, n, r')) : ReaderOk r' := by
  obtain ⟨-, -, hn, rfl⟩ := unpackTable_ok hu
  obtain ⟨hpos, hlen, hcnt⟩ := hr
  rw [List.length_drop] at hn
  exact ⟨by show r.rpos + n ≤ r.rdata.length; omega, hlen, hcnt⟩

theorem PrimitiveWork.unitsOk {s u : State} (h : PrimitiveWork s u) (harg : s.argIn.length ≤ maxArgIn) (hs : UnitsOk s) :
    UnitsOk u := by
  obtain ⟨hw, hr, hf, ho⟩ := hs
  cases h with
  | nothing => exact ⟨hw, hr, hf, ho⟩
  | wroteBit b => exact ⟨writeBit_ok b hw, hr, hf, ho⟩
  | wroteBytes raw => exact ⟨writeBytes_ok raw hw, hr, hf, ho⟩
  | flushed => exact ⟨flushWriter_ok hw, hr, hf, ho⟩
  | loaded => exact ⟨hw, loadReader_ok harg, hf, ho⟩
  | tookBit => exact ⟨hw, readBit_ok hr, hf, ho⟩
  | tookBytes n => exact ⟨hw, readBytes_ok n hr, hf, ho⟩
  | counted => exact ⟨hw, hr, freqOk_buildTable harg, ho⟩
  | unpacked hu => exact ⟨hw, readerOk_of_unpackTable hr hu, (unpackTable_ok hu).1, ho⟩
  | builtTree => exact ⟨hw, hr, hf, ho⟩
  | derivedCodes => exact ⟨hw, hr, hf, ho⟩

theorem PrimitiveWork.treesOk {s u : State} (h : PrimitiveWork s u) (hf : FreqOk s.ft) (hs : TreesOk s) : TreesOk u := by
  obtain ⟨ht, hc, hwalk⟩ := hs
  cases h with
  | builtTree => exact ⟨treeOf_ok s.params hf, hc, hwalk⟩
  | derivedCodes => exact ⟨ht, codesOk_deriveCodes ht, hwalk⟩
  | _ => exact ⟨ht, hc, hwalk⟩

/-! ### Errors -/

/-- Which operation raises which error, and when (60_exceptions.md R241, "raised by"). -/
inductive RaisedBy (s : State) : Instr → Err → Prop
  | compressEmpty (h : s.argIn = []) : RaisedBy s .orCompress .emptyInput
  | decompressEmpty (h : s.argIn = []) : RaisedBy s .orDecompress .emptyInput
  | unpackReader {e : Err} (h : unpackTable s.br = .error e) : RaisedBy s .ftUnpack e
  | unpackBlob {e : Err} (h : unpackTable (loadReader s.argIn) = .error e) : RaisedBy s .orDecompress e
  | packOverflow (h : 65535 < distinct s.ft) : RaisedBy s .ftPack (.countFieldOverflow (distinct s.ft))

theorem RaisedBy.ne_reset {s : State} {i : Instr} {e : Err} (h : RaisedBy s i e) : i ≠ .reset := by
  cases h <;> exact Instr.noConfusion

/-- Every error has a code of 1 to 5 (60_exceptions.md R241). -/
theorem errCode_range (e : Err) : 1 ≤ (errCode e).toNat ∧ (errCode e).toNat ≤ 5 := by
  cases e <;> simp [errCode]

/-- Unpacking raises the two errors of malformed metadata and no other (60_exceptions.md R243). -/
theorem unpackTable_error {r : Reader} {e : Err} (h : unpackTable r = .error e) :
    e = .headerShort ∨ ∃ k, e = .entryTruncated k := by
  rw [unpackTable_spec] at h
  simp only at h
  split at h
  · cases h; exact .inl rfl
  · split at h
    · cases h; exact .inr ⟨_, rfl⟩
    · cases h

/-! ### How a command ends -/

/-- Every way a command ends in a next state. An orchestrator command starts from the reset values (44_orchestrator.md R210), so what it
leaves is in range whatever the state was. -/
inductive Ends (s : State) : Instr → State → Prop
  | reset : Ends s .reset (freshInstance s)
  | done {i : Instr} {u : State} (p : Results → Results) (hi : i ≠ .reset) (hs : s.status ≠ .failed)
      (hw : PrimitiveWork s u) : Ends s i (finish u p)
  | orchestrated {i : Instr} {t : State} (hi : i ≠ .reset) (hok : EndedOk s t)
      (hrange : s.argIn.length ≤ maxArgIn → UnitsOk t ∧ TreesOk t) : Ends s i t
  | raised {i : Instr} {e : Err} {u : State} (o : Bool) (hr : RaisedBy s i e) (hk : HostSideKept s u) :
      Ends s i (raiseError e o u)

/-- A primitive command that only finishes. -/
theorem Ends.of_finish {s u t : State} {i : Instr} {p : Results → Results} (hi : i ≠ .reset) (hw : PrimitiveWork s u)
    (h : primitive s (.next (finish u p)) = .next t) : Ends s i t := by
  obtain ⟨hs, rfl⟩ := primitive_finish_next h
  exact .done p hi hs hw

theorem ftBuild_ends {s t : State} (h : execFtBuild s = .next t) : Ends s .ftBuild t := by
  obtain ⟨hs, h⟩ := primitive_eq_next.1 h
  split at h
  · cases h
  · cases h; exact .done _ Instr.noConfusion hs .counted

theorem ftPack_ends {s t : State} (h : execFtPack s = .next t) : Ends s .ftPack t := by
  obtain ⟨hs, h⟩ := primitive_eq_next.1 h
  rcases packTable_cases s.ft with ⟨-, hp⟩ | ⟨hover, hp⟩ <;> rw [hp] at h <;> cases h
  · exact .done _ Instr.noConfusion hs .nothing
  · exact .raised _ (.packOverflow hover) ⟨rfl, rfl, rfl, rfl⟩

theorem ftUnpack_ends {s t : State} (h : execFtUnpack s = .next t) : Ends s .ftUnpack t := by
  obtain ⟨hs, h⟩ := primitive_eq_next.1 h
  split at h
  · next hu => cases h; exact .done _ Instr.noConfusion hs (.unpacked hu)
  · next hu => cases h; exact .raised _ (.unpackReader hu) ⟨rfl, rfl, rfl, rfl⟩

/-! ### The orchestrator commands -/

theorem distinct_buildTable_pos {data : List Byte} (h : data ≠ []) : 1 ≤ distinct (buildTable data) := by
  obtain ⟨b, hb⟩ := List.exists_mem_of_ne_nil data h
  have hkey := (ftPresent_iff _ _).1 ((ftPresent_buildTable data b).2 hb)
  have := List.length_pos_of_mem hkey
  rwa [List.length_map] at this

theorem orCompress_ends {s t : State} (h : execOrCompress s = .next t) : Ends s .orCompress t := by
  by_cases hlen : s.argIn.length ≤ s.params.maxInputLen
  case neg => rw [execOrCompress_overlong (Nat.lt_of_not_le hlen)] at h; cases h
  by_cases hnil : s.argIn = []
  case pos =>
    rw [execOrCompress_empty hnil] at h
    cases h
    exact .raised _ (.compressEmpty hnil) ⟨rfl, rfl, rfl, rfl⟩
  have hpos := distinct_buildTable_pos hnil
  by_cases h1 : distinct (buildTable s.argIn) = 1
  · obtain ⟨u, he, hok, -, -, -, -, hbw, hbr, hft, htb, hct, horch⟩ := execOrCompress_single hlen h1
    cases he.symm.trans h
    refine .orchestrated Instr.noConfusion hok fun harg => ?_
    rw [UnitsOk, TreesOk, hbw, hbr, hft, htb, hct, horch]
    exact ⟨⟨writerOk_aligned _, loadReader_ok (Nat.zero_le _), freqOk_buildTable harg, orchOk_idle⟩,
      treeOk_empty, codesOk_nil, Nat.zero_lt_succ _⟩
  · obtain ⟨u, he, hok, -, -, -, -, hbw, hbr, hft, htb, hct, horch⟩ :=
      execOrCompress_several hlen (Nat.lt_of_le_of_ne hpos (Ne.symm h1))
    cases he.symm.trans h
    refine .orchestrated Instr.noConfusion hok fun harg => ?_
    have hf := freqOk_buildTable harg
    have ht := treeOf_ok s.params hf
    rw [UnitsOk, TreesOk, hbw, hbr, hft, htb, hct, horch, flush_writePayload]
    exact ⟨⟨writerOk_aligned _, loadReader_ok (Nat.zero_le _), hf, orchOk_idle⟩, ht, codesOk_deriveCodes ht, Nat.zero_lt_succ _⟩

/-- The walk only reads bits, so it keeps the reader in range. -/
theorem walkOf_readerOk (p : Config.Params) (T : FreqTable) {r : Reader} (free : Nat) (h : ReaderOk r) :
    ReaderOk (walkOf p T r free).1 :=
  walkLoop_reader (P := ReaderOk) (fun _ => readBit_ok) _ _ _ _ h

/-- The walk ends with EXPECTED the table's total, no more emitted than that, and WALK within the arena (10_state.md R37). -/
theorem walkOf_cursors (p : Config.Params) {T : FreqTable} (hT : FreqOk T) (h1 : distinct T ≠ 1) (r : Reader) (free : Nat) :
    (walkOf p T r free).2.expected = total T ∧ (walkOf p T r free).2.emitted ≤ total T ∧ (walkOf p T r free).2.walk < 511 := by
  rcases T with _ | ⟨e, T⟩
  · rw [walkOf_nil]
    exact ⟨rfl, Nat.zero_le _, Nat.zero_lt_succ _⟩
  · have h2 : 2 ≤ distinct (e :: T) := by rw [distinct_cons] at h1 ⊢; omega
    obtain ⟨hle, -, -, -, -, -, hwalk, heq⟩ := walkOf_spec p hT h2 r free
    obtain ⟨-, -, ⟨harena, -⟩, -⟩ := treeOf_ok p hT
    have hexp := congrArg Orch.expected heq
    have hemit := congrArg Orch.emitted heq
    exact ⟨hexp, hemit.trans_le hle, Nat.lt_of_lt_of_le hwalk harena⟩

theorem orDecompress_ends {s t : State} (h : execOrDecompress s = .next t) : Ends s .orDecompress t := by
  by_cases hnil : s.argIn = []
  case pos =>
    rw [execOrDecompress_empty hnil] at h
    cases h
    exact .raised _ (.decompressEmpty hnil) ⟨rfl, rfl, rfl, rfl⟩
  cases hu : unpackTable (loadReader s.argIn) with
  | error e =>
    rw [execOrDecompress_malformed hnil hu] at h
    cases h
    exact .raised _ (.unpackBlob hu) ⟨rfl, rfl, rfl, rfl⟩
  | ok z =>
    obtain ⟨T, n, r⟩ := z
    have hf := (unpackTable_ok hu).1
    by_cases h1 : distinct T = 1
    · obtain ⟨⟨b, c⟩, rfl⟩ := List.length_eq_one_iff.1 h1
      cases hl : overLimit s.params.outLimit c with
      | true => rw [execOrDecompress_single_over hnil hu hl] at h; cases h
      | false =>
        obtain ⟨u, he, hok, -, -, hbw, hbr, hft, htb, hct, horch⟩ := execOrDecompress_single hnil hu hl
        cases he.symm.trans h
        refine .orchestrated Instr.noConfusion hok fun harg => ?_
        rw [UnitsOk, TreesOk, hbw, hbr, hft, htb, hct, horch]
        exact ⟨⟨writerOk_empty, readerOk_of_unpackTable (loadReader_ok harg) hu, hf, orchOk_idle⟩,
          treeOk_empty, codesOk_nil, Nat.zero_lt_succ _⟩
    · cases hl : overLimit s.params.outLimit (walkOf s.params T r s.free).2.dout.length with
      | true => rw [execOrDecompress_tree_over hnil hu h1 hl] at h; cases h
      | false =>
        obtain ⟨u, he, hok, -, -, hbw, hbr, hft, htb, hct, horch⟩ := execOrDecompress_tree hnil hu h1 hl
        cases he.symm.trans h
        refine .orchestrated Instr.noConfusion hok fun harg => ?_
        obtain ⟨hexp, hemit, hwalk⟩ := walkOf_cursors s.params hf h1 r s.free
        have hr := walkOf_readerOk s.params T s.free (readerOk_of_unpackTable (loadReader_ok harg) hu)
        rw [UnitsOk, TreesOk, hbw, hbr, hft, htb, hct, horch]
        exact ⟨⟨writerOk_empty, hr, hf, rfl, hexp.trans_lt (total_lt hf), hemit.trans_eq hexp.symm⟩,
          treeOf_ok s.params hf, codesOk_nil, hwalk⟩

/-! ### Every command -/

/-- Every command that answers a next state ends in one of the ways of `Ends`. -/
theorem exec_ends {i : Instr} {s t : State} (h : exec i s = .next t) : Ends s i t := by
  cases i with
  | reset => cases h; exact .reset
  | bwWbit b => exact .of_finish Instr.noConfusion (.wroteBit b) h
  | bwWbytes => exact .of_finish Instr.noConfusion (.wroteBytes _) h
  | bwFlush => exact .of_finish Instr.noConfusion .flushed h
  | bwGet => exact .of_finish Instr.noConfusion .nothing h
  | brLoad => exact .of_finish Instr.noConfusion .loaded h
  | brRbit => exact .of_finish Instr.noConfusion .tookBit h
  | brRbytes => exact .of_finish Instr.noConfusion (.tookBytes _) h
  | ftBuild => exact ftBuild_ends h
  | ftPack => exact ftPack_ends h
  | ftUnpack => exact ftUnpack_ends h
  | tbBuild => exact .of_finish Instr.noConfusion .builtTree h
  | ctDerive => exact .of_finish Instr.noConfusion .derivedCodes h
  | stEntropy => exact .of_finish Instr.noConfusion .nothing h
  | stAvglen => exact .of_finish Instr.noConfusion .nothing h
  | stEff => exact .of_finish Instr.noConfusion .nothing h
  | orCompress => exact orCompress_ends h
  | orDecompress => exact orDecompress_ends h

section Ends

variable {s t : State} {i : Instr}

theorem Ends.hostSideKept (h : Ends s i t) : HostSideKept s t := by
  cases h with
  | reset => exact freshInstance_hostSideKept s
  | done p hi hs hw => exact hw.hostSideKept
  | orchestrated hi hok hrange => exact hok.2.2.2
  | raised o hr hk => exact hk

theorem Ends.faultRecordOk (h : Ends s i t) : FaultRecordOk t := by
  cases h with
  | reset => exact ⟨fun _ => ⟨rfl, rfl⟩, Status.noConfusion⟩
  | done p hi hs hw => exact ⟨fun _ => ⟨rfl, rfl⟩, Status.noConfusion⟩
  | orchestrated hi hok hrange =>
    obtain ⟨hst, herr, hinfo, -⟩ := hok
    exact ⟨fun _ => ⟨herr, hinfo⟩, fun hf => Status.noConfusion (hst.symm.trans hf)⟩
  | raised o hr hk => exact ⟨fun hn => absurd rfl hn, fun _ => errCode_range _⟩

theorem Ends.status_idle_iff (h : Ends s i t) : t.status = .idle ↔ i = .reset := by
  cases h with
  | reset => exact ⟨fun _ => rfl, fun _ => rfl⟩
  | done p hi hs hw => exact ⟨fun he => Status.noConfusion he, fun he => absurd he hi⟩
  | orchestrated hi hok hrange => exact ⟨fun he => Status.noConfusion (hok.1.symm.trans he), fun he => absurd he hi⟩
  | raised o hr hk => exact ⟨fun he => Status.noConfusion he, fun he => absurd he hr.ne_reset⟩

theorem Ends.raisedBy (h : Ends s i t) (hf : t.status = .failed) :
    ∃ e, RaisedBy s i e ∧ t.err = errCode e ∧ t.errInfo = errInfoOf e := by
  cases h with
  | reset => cases hf
  | done p hi hs hw => cases hf
  | orchestrated hi hok hrange => exact Status.noConfusion (hok.1.symm.trans hf)
  | raised o hr hk => exact ⟨_, hr, rfl, rfl⟩

theorem Ends.unitsOk (h : Ends s i t) (harg : s.argIn.length ≤ maxArgIn) (hs : s.status ≠ .failed → UnitsOk s)
    (ht : t.status ≠ .failed) : UnitsOk t := by
  cases h with
  | reset => exact unitsOk_freshInstance s
  | done p hi hn hw => exact hw.unitsOk harg (hs hn)
  | orchestrated hi hok hrange => exact (hrange harg).1
  | raised o hr hk => exact absurd rfl ht

theorem Ends.treesOk (h : Ends s i t) (harg : s.argIn.length ≤ maxArgIn) (hs : s.status ≠ .failed → FreqOk s.ft ∧ TreesOk s)
    (ht : t.status ≠ .failed) : TreesOk t := by
  cases h with
  | reset => exact treesOk_freshInstance s
  | done p hi hn hw => exact hw.treesOk (hs hn).1 (hs hn).2
  | orchestrated hi hok hrange => exact (hrange harg).2
  | raised o hr hk => exact absurd rfl ht

theorem Ends.rangeInv (h : Ends s i t) (hs : RangeInv s) : RangeInv t := by
  obtain ⟨hmax, harg, -, hunits⟩ := hs
  obtain ⟨hparams, -, -, hargIn⟩ := h.hostSideKept
  exact ⟨hparams ▸ hmax, hargIn ▸ harg, h.faultRecordOk, h.unitsOk harg hunits⟩

theorem Ends.treeInv (h : Ends s i t) (hs : TreeInv s) : TreeInv t := by
  obtain ⟨hrange, htrees⟩ := hs
  have hrange' := h.rangeInv hrange
  obtain ⟨-, harg, -, hunits⟩ := hrange
  refine ⟨hrange', h.treesOk harg fun hn => ?_⟩
  obtain ⟨-, -, hft, -⟩ := hunits hn
  exact ⟨hft, htrees hn⟩

end Ends

/-! ### Every step -/

/-- Latching a command of a length the port carries keeps the ranges. -/
theorem rangeInv_latchCommand {s : State} {c : HostCommand} (rest : List HostCommand) (hs : RangeInv s)
    (hc : c.argIn.length ≤ maxArgIn) : RangeInv (latchCommand c rest s) := by
  obtain ⟨hmax, -, hfault, hunits⟩ := hs
  exact ⟨hmax, hc, hfault, hunits⟩

/-- IllegalCommand changes the fault record only, to a consistent one (60_exceptions.md R246). -/
theorem rangeInv_raiseIllegal {s : State} (w : Byte) (hs : RangeInv s) : RangeInv (raiseIllegal w s) := by
  obtain ⟨hmax, harg, -⟩ := hs
  exact ⟨hmax, harg, ⟨fun hn => absurd rfl hn, fun _ => errCode_range (.illegalCommand w)⟩, fun hn => absurd rfl hn⟩

/-- Settles O53: each way a command ends keeps the ranges, and so do latching it and recording an illegal one. -/
theorem stepKeepsRegistersInRange : Obligations.StepKeepsRegistersInRange := by
  unfold Obligations.StepKeepsRegistersInRange
  intro s t hs h
  rcases step_next_cases h with ⟨-, rfl⟩ | ⟨c, rest, -, hc, ⟨i, -, he⟩ | ⟨-, -, rfl⟩⟩
  · exact hs
  · exact (exec_ends he).rangeInv (rangeInv_latchCommand rest hs hc)
  · exact rangeInv_raiseIllegal c.cmd (rangeInv_latchCommand rest hs hc)

/-- Settles O55: TB_BUILD's tree and CT_DERIVE's codes are well formed, an orchestrator command builds both afresh, and no other command
touches them. -/
theorem stepKeepsTreeAndCodesWellFormed : Obligations.StepKeepsTreeAndCodesWellFormed := by
  unfold Obligations.StepKeepsTreeAndCodesWellFormed
  intro s t ⟨hrange, htrees⟩ h
  rcases step_next_cases h with ⟨-, rfl⟩ | ⟨c, rest, -, hc, ⟨i, -, he⟩ | ⟨-, -, rfl⟩⟩
  · exact ⟨hrange, htrees⟩
  · exact (exec_ends he).treeInv ⟨rangeInv_latchCommand rest hrange hc, htrees⟩
  · exact ⟨rangeInv_raiseIllegal c.cmd (rangeInv_latchCommand rest hrange hc), fun hn => absurd rfl hn⟩

/-- Settles O10: STATUS, ERR and the info of each way a command ends, and the operations that raise each error. -/
theorem errorsComeOnlyFromTheirOperations : Obligations.ErrorsComeOnlyFromTheirOperations := by
  unfold Obligations.ErrorsComeOnlyFromTheirOperations
  intro i s t h
  have hend := exec_ends h
  refine ⟨hend.status_idle_iff, hend.faultRecordOk.1, fun hf => ?_⟩
  obtain ⟨e, hr, herr, hinfo⟩ := hend.raisedBy hf
  rw [herr, hinfo]
  cases hr with
  | compressEmpty hnil => exact .inl ⟨rfl, rfl, hnil, .inl rfl⟩
  | decompressEmpty hnil => exact .inl ⟨rfl, rfl, hnil, .inr rfl⟩
  | unpackReader hu =>
    rcases unpackTable_error hu with rfl | ⟨k, rfl⟩
    · exact .inr (.inl ⟨rfl, rfl, .inl rfl⟩)
    · exact .inr (.inr (.inl ⟨rfl, Option.some_ne_none k, .inl rfl⟩))
  | unpackBlob hu =>
    rcases unpackTable_error hu with rfl | ⟨k, rfl⟩
    · exact .inr (.inl ⟨rfl, rfl, .inr rfl⟩)
    · exact .inr (.inr (.inl ⟨rfl, Option.some_ne_none k, .inr rfl⟩))
  | packOverflow hover => exact .inr (.inr (.inr ⟨rfl, rfl, hover, rfl⟩))

/-- Settles O59: no command and no fetch writes a parameter. -/
theorem noStepChangesTheParameters : Obligations.NoStepChangesTheParameters := by
  unfold Obligations.NoStepChangesTheParameters
  intro s t h
  rcases step_next_cases h with ⟨-, rfl⟩ | ⟨c, rest, -, -, ⟨i, -, he⟩ | ⟨-, -, rfl⟩⟩
  · rfl
  · exact (exec_ends he).hostSideKept.1
  · rfl

/-! ### The fetch -/

/-- A step runs the instruction that the next command decodes to, on the latched command. -/
theorem step_of_decode {s : State} {c : HostCommand} {rest : List HostCommand} {i : Instr} {more : List Byte}
    (hp : s.pending = c :: rest) (hc : c.argIn.length ≤ maxArgIn) (hd : decode [c.cmd] = .ok (i, more)) :
    step s = exec i (latchCommand c rest s) := by
  simp only [step, stepCommand, hp, (hostCommand_wf_iff c).2 hc, if_true, runCommand, hd]

/-- A table word that reads an instruction is a byte that decodes to it (30_encoding.md R104). -/
theorem decode_of_decodeTableWord {w : Nat} {i : Instr} (h : decodeTableWord 8 w = some i) :
    w < 2 ^ 8 ∧ ∃ more, decode [BitVec.ofNat 8 w] = .ok (i, more) := by
  unfold decodeTableWord at h
  split at h
  · next hw =>
    refine ⟨hw.2, ?_⟩
    split at h
    · next j more hd => cases h; exact ⟨more, hd⟩
    · cases h
  · cases h

/-- Settles O4: the fetch takes the command, latches its operands and dispatches. -/
theorem stepRunsTheDecodedInstruction : Obligations.StepRunsTheDecodedInstruction := by
  unfold Obligations.StepRunsTheDecodedInstruction
  intro s c rest i hp hc hd
  exact step_of_decode hp hc hd

/-- Settles O6: the placed command heads the host's list and carries no operand. -/
theorem placedWordIsRunNext : Obligations.PlacedWordIsRunNext := by
  unfold Obligations.PlacedWordIsRunNext
  intro s w i h
  obtain ⟨hw, more, hd⟩ := decode_of_decodeTableWord h
  refine step_of_decode (withFetchWord_pending s w) (Nat.zero_le _) (more := more) ?_
  rwa [Nat.mod_eq_of_lt hw]

/-! ### Reset -/

/-- Settles O52: the fault record is clear and every unit holds its reset value. -/
theorem resetRegistersInRange : Obligations.ResetRegistersInRange := by
  unfold Obligations.ResetRegistersInRange
  exact ⟨Nat.le_refl _, Nat.zero_le _, (Ends.reset (s := State.reset)).faultRecordOk, fun _ => unitsOk_freshInstance State.reset⟩

/-- Settles O54: the tree is absent, the code table empty and WALK 0. -/
theorem resetTreeAndCodesWellFormed : Obligations.ResetTreeAndCodesWellFormed := by
  unfold Obligations.ResetTreeAndCodesWellFormed
  exact ⟨resetRegistersInRange, fun _ => treesOk_freshInstance State.reset⟩

end Sys2Proof.Machine
end

section
/-! PROOFS. The byte sequences of 20_memory.md: WBUF only grows, and DOUT, ARG_IN and, BR_LOAD apart, RDATA stand under every
primitive command. -/

namespace Sys2Proof.Machine

open Sys2Proof

/-! ### What the writer and the reader leave of their sequences -/

theorem writeBit_wbuf_prefix (b : Bool) (w : Writer) : w.wbuf <+: (writeBit b w).wbuf := by
  unfold writeBit
  split
  · exact List.prefix_append ..
  · exact List.prefix_rfl

theorem writeBytes_wbuf_prefix (raw : List Byte) (w : Writer) : w.wbuf <+: (writeBytes raw w).wbuf := List.prefix_append ..

theorem flushWriter_wbuf_prefix (w : Writer) : w.wbuf <+: (flushWriter w).wbuf := by
  unfold flushWriter
  split
  · exact List.prefix_append ..
  · exact List.prefix_rfl

@[simp] theorem readBit_rdata (r : Reader) : (readBit r).2.rdata = r.rdata := by
  cases h : remainingBits r with
  | nil => rw [readBit_of_nil h]
  | cons b rest =>
    obtain ⟨r', he, -, hdata⟩ := readBit_of_cons h
    rw [he, hdata]

@[simp] theorem readBytes_rdata (n : Nat) (r : Reader) : (readBytes n r).2.rdata = r.rdata := rfl

theorem unpackTable_rdata {r r' : Reader} {T : FreqTable} {n : Nat} (h : unpackTable r = .ok (T, n, r')) : r'.rdata = r.rdata := by
  obtain ⟨-, -, -, rfl⟩ := unpackTable_ok h
  rfl

/-! ### What primitive work leaves of the sequences -/

theorem PrimitiveWork.wbuf_prefix {s u : State} (h : PrimitiveWork s u) : s.bw.wbuf <+: u.bw.wbuf := by
  cases h with
  | wroteBit b => exact writeBit_wbuf_prefix b s.bw
  | wroteBytes raw => exact writeBytes_wbuf_prefix raw s.bw
  | flushed => exact flushWriter_wbuf_prefix s.bw
  | _ => exact List.prefix_rfl

theorem PrimitiveWork.dout_eq {s u : State} (h : PrimitiveWork s u) : u.orch.dout = s.orch.dout := by
  cases h <;> rfl

/-! ### Primitive commands that end `Ok` -/

/-- The command `i` ended `Ok` after primitive work, and unless it is BR_LOAD the work kept RDATA. -/
abbrev WorkDone (i : Instr) (s t : State) : Prop :=
  ∃ u p, t = finish u p ∧ PrimitiveWork s u ∧ (i ≠ .brLoad → u.br.rdata = s.br.rdata)

section

variable {s t : State}

theorem workDone_of_finish {u : State} {i : Instr} {p : Results → Results} (hw : PrimitiveWork s u)
    (hr : i ≠ .brLoad → u.br.rdata = s.br.rdata) (h : primitive s (.next (finish u p)) = .next t) : WorkDone i s t :=
  ⟨u, p, (primitive_finish_next h).2, hw, hr⟩

theorem ftBuild_workDone (h : execFtBuild s = .next t) : WorkDone .ftBuild s t := by
  obtain ⟨-, h⟩ := primitive_eq_next.1 h
  split at h
  · cases h
  · cases h; exact ⟨_, _, rfl, .counted, fun _ => rfl⟩

theorem ftPack_workDone (h : execFtPack s = .next t) (ht : t.status ≠ .failed) : WorkDone .ftPack s t := by
  obtain ⟨-, h⟩ := primitive_eq_next.1 h
  split at h
  · cases h; exact ⟨_, _, rfl, .nothing, fun _ => rfl⟩
  · cases h; exact absurd rfl ht

theorem ftUnpack_workDone (h : execFtUnpack s = .next t) (ht : t.status ≠ .failed) : WorkDone .ftUnpack s t := by
  obtain ⟨-, h⟩ := primitive_eq_next.1 h
  split at h
  · next hu => cases h; exact ⟨_, _, rfl, .unpacked hu, fun _ => unpackTable_rdata hu⟩
  · cases h; exact absurd rfl ht

/-- Every command but the three that begin with a reset ends `Ok` by primitive work only. -/
theorem exec_workDone {i : Instr} (h : exec i s = .next t) (ht : t.status ≠ .failed) (hreset : i ≠ .reset)
    (hcompress : i ≠ .orCompress) (hdecompress : i ≠ .orDecompress) : WorkDone i s t := by
  cases i with
  | reset => exact absurd rfl hreset
  | bwWbit b => exact workDone_of_finish (.wroteBit b) (fun _ => rfl) h
  | bwWbytes => exact workDone_of_finish (.wroteBytes _) (fun _ => rfl) h
  | bwFlush => exact workDone_of_finish .flushed (fun _ => rfl) h
  | bwGet => exact workDone_of_finish .nothing (fun _ => rfl) h
  | brLoad => exact workDone_of_finish .loaded (absurd rfl) h
  | brRbit => exact workDone_of_finish .tookBit (fun _ => readBit_rdata s.br) h
  | brRbytes => exact workDone_of_finish (.tookBytes _) (fun _ => readBytes_rdata _ s.br) h
  | ftBuild => exact ftBuild_workDone h
  | ftPack => exact ftPack_workDone h ht
  | ftUnpack => exact ftUnpack_workDone h ht
  | tbBuild => exact workDone_of_finish .builtTree (fun _ => rfl) h
  | ctDerive => exact workDone_of_finish .derivedCodes (fun _ => rfl) h
  | stEntropy => exact workDone_of_finish .nothing (fun _ => rfl) h
  | stAvglen => exact workDone_of_finish .nothing (fun _ => rfl) h
  | stEff => exact workDone_of_finish .nothing (fun _ => rfl) h
  | orCompress => exact absurd rfl hcompress
  | orDecompress => exact absurd rfl hdecompress

end

/-- Settles O51: a primitive command that ends `Ok` does primitive work only, which appends to WBUF, writes neither DOUT nor ARG_IN, and
replaces RDATA in BR_LOAD alone. -/
theorem buffersOnlyGrow : Obligations.BuffersOnlyGrow := by
  unfold Obligations.BuffersOnlyGrow
  intro i s t h ht hreset hcompress hdecompress
  obtain ⟨u, p, rfl, hw, hrdata⟩ := exec_workDone h ht hreset hcompress hdecompress
  obtain ⟨-, -, -, hargIn⟩ := hw.hostSideKept
  exact ⟨hw.wbuf_prefix, hw.dout_eq, hargIn, hrdata⟩

end Sys2Proof.Machine
end

section
/-! PROOFS. The command word of 30_encoding.md: every row of the opcode map is read back as the word it covers, so decoding and
encoding are inverse, and the illegal codes are the words that encode nothing. -/

namespace Sys2Proof

/-! ### The rows of the opcode map -/

/-- A row without a field covers its pattern only (30_encoding.md R105). -/
@[simp] theorem covers_fixedWord (p w : Byte) (f : Byte → Instr) : (OpcodeRow.mk p 0xFF f).covers w ↔ w = p := by
  have hall : w &&& 0xFF = w := BitVec.and_allOnes
  rw [OpcodeRow.covers, hall, beq_iff_eq]

/-- The words of BW_WBIT agree above bit 0, so bit 0 says which of the two the word is (30_encoding.md R104). -/
theorem encodeByte_bwWbit_cmdBit {w : Byte} (h : w &&& 0xFE = 0x10) : encodeByte (.bwWbit (cmdBit w)) = w := by
  revert w
  decide

/-- Each row of the opcode map reads a word it covers as the operation whose code that word is. -/
theorem encodeByte_read {r : OpcodeRow} {w : Byte} (hr : r ∈ opcodeMap) (hw : r.covers w) : encodeByte (r.read w) = w := by
  simp only [opcodeMap, List.mem_cons, List.not_mem_nil, or_false] at hr
  rcases hr with rfl | rfl | hr
  · exact ((covers_fixedWord ..).1 hw).symm
  · exact encodeByte_bwWbit_cmdBit (eq_of_beq hw)
  · rcases hr with rfl | rfl | rfl | rfl | rfl | rfl | rfl | rfl | rfl | rfl | rfl | rfl | rfl | rfl | rfl | rfl <;>
      exact ((covers_fixedWord ..).1 hw).symm

/-! ### Decoding and encoding are inverse -/

@[simp] theorem decodeByte_encodeByte (i : Instr) : decodeByte (encodeByte i) = .ok i := by
  cases i with
  | bwWbit b => cases b <;> rfl
  | _ => rfl

theorem encodeByte_of_decodeByte {w : Byte} {i : Instr} (h : decodeByte w = .ok i) : encodeByte i = w := by
  unfold decodeByte at h
  split at h
  · next r hfind =>
    cases h
    exact encodeByte_read (List.mem_of_find?_eq_some hfind) (List.find?_some (p := fun r : OpcodeRow => r.covers w) hfind)
  · cases h

theorem decodeByte_eq_ok_iff {w : Byte} {i : Instr} : decodeByte w = .ok i ↔ w = encodeByte i :=
  ⟨fun h => (encodeByte_of_decodeByte h).symm, fun h => h ▸ decodeByte_encodeByte i⟩

theorem decode_cons_eq_ok_iff {w : Byte} {tail rest : List Byte} {i : Instr} :
    decode (w :: tail) = .ok (i, rest) ↔ decodeByte w = .ok i ∧ tail = rest := by
  cases h : decodeByte w <;> simp [decode, h]

theorem decode_singleton_eq_error_iff {w : Byte} {e : DecodeReject} :
    decode [w] = .error e ↔ decodeByte w = .error e := by
  cases h : decodeByte w <;> simp [decode, h]

/-- Settles O1: the first byte is read as the one operation whose code it is, and the bytes after it are the rest. -/
theorem decodeReadsExactlyTheEncodings : Obligations.DecodeReadsExactlyTheEncodings := by
  unfold Obligations.DecodeReadsExactlyTheEncodings
  intro bytes rest i
  cases bytes with
  | nil => simp [decode, encode]
  | cons w tail => rw [decode_cons_eq_ok_iff, decodeByte_eq_ok_iff, encode, List.singleton_append, List.cons.injEq]

theorem decode_encode (i : Instr) : decode (encode i) = .ok (i, []) :=
  (decodeReadsExactlyTheEncodings (encode i) [] i).2 (List.append_nil _).symm

/-! ### The illegal codes -/

/-- A byte is rejected exactly when it is the code of no operation (30_encoding.md R106). -/
theorem decodeByte_eq_illegal_iff {w : Byte} : decodeByte w = .error (.illegalCommand w) ↔ ¬ ∃ i, encodeByte i = w := by
  cases h : decodeByte w with
  | ok i => simpa using ⟨i, encodeByte_of_decodeByte h⟩
  | error e =>
    rw [Machine.decode_single_reject (decode_singleton_eq_error_iff.2 h)]
    simp only [true_iff]
    rintro ⟨i, rfl⟩
    rw [decodeByte_encodeByte] at h
    cases h

/-- The values of CMD that are codes of the opcode map, unit by unit (30_encoding.md R105). -/
abbrev LegalCode (n : Nat) : Prop :=
  n = 0 ∨ (0x10 ≤ n ∧ n ≤ 0x14) ∨ (0x20 ≤ n ∧ n ≤ 0x22) ∨ (0x30 ≤ n ∧ n ≤ 0x32) ∨ n = 0x40 ∨ (0x50 ≤ n ∧ n ≤ 0x53) ∨
    (0x60 ≤ n ∧ n ≤ 0x61)

theorem legalCode_encodeByte (i : Instr) : LegalCode (encodeByte i).toNat := by
  cases i with
  | bwWbit b => cases b <;> decide
  | _ => decide

theorem exists_encodeByte_of_legalCode {n : Nat} (h : LegalCode n) : ∃ i, encodeByte i = BitVec.ofNat 8 n := by
  rcases h with rfl | h | h | h | rfl | h | h
  · exact ⟨.reset, rfl⟩
  · obtain ⟨hlo, hhi⟩ := h
    interval_cases n
    exacts [⟨.bwWbit false, rfl⟩, ⟨.bwWbit true, rfl⟩, ⟨.bwWbytes, rfl⟩, ⟨.bwFlush, rfl⟩, ⟨.bwGet, rfl⟩]
  · obtain ⟨hlo, hhi⟩ := h
    interval_cases n
    exacts [⟨.brLoad, rfl⟩, ⟨.brRbit, rfl⟩, ⟨.brRbytes, rfl⟩]
  · obtain ⟨hlo, hhi⟩ := h
    interval_cases n
    exacts [⟨.ftBuild, rfl⟩, ⟨.ftPack, rfl⟩, ⟨.ftUnpack, rfl⟩]
  · exact ⟨.tbBuild, rfl⟩
  · obtain ⟨hlo, hhi⟩ := h
    interval_cases n
    exacts [⟨.ctDerive, rfl⟩, ⟨.stEntropy, rfl⟩, ⟨.stAvglen, rfl⟩, ⟨.stEff, rfl⟩]
  · obtain ⟨hlo, hhi⟩ := h
    interval_cases n
    exacts [⟨.orCompress, rfl⟩, ⟨.orDecompress, rfl⟩]

theorem exists_encodeByte_iff {w : Byte} : (∃ i, encodeByte i = w) ↔ LegalCode w.toNat := by
  constructor
  · rintro ⟨i, rfl⟩
    exact legalCode_encodeByte i
  · intro h
    simpa using exists_encodeByte_of_legalCode h

theorem decodeByte_eq_illegal_iff_not_legalCode {w : Byte} :
    decodeByte w = .error (.illegalCommand w) ↔ ¬ LegalCode w.toNat :=
  decodeByte_eq_illegal_iff.trans (not_congr exists_encodeByte_iff)

/-- The bytes rejected by value are counted by the values outside the opcode map. -/
theorem filter_illegal_eq_filter_not_legalCode :
    ((List.range 256).filter fun n => decide (decode [BitVec.ofNat 8 n] = .error (.illegalCommand (BitVec.ofNat 8 n)))) =
      (List.range 256).filter fun n => decide (¬ LegalCode n) := by
  refine List.filter_congr fun n hn => decide_eq_decide.2 ?_
  have hval : (BitVec.ofNat 8 n).toNat = n := Nat.mod_eq_of_lt (List.mem_range.1 hn)
  rw [decode_singleton_eq_error_iff, decodeByte_eq_illegal_iff_not_legalCode, hval]

/-- Settles O2: the listed ranges are the values between the codes of the units. -/
theorem illegalCodesAreTheListedRanges : Obligations.IllegalCodesAreTheListedRanges := by
  unfold Obligations.IllegalCodesAreTheListedRanges
  constructor
  · intro w
    rw [decodeByte_eq_illegal_iff_not_legalCode]
    unfold LegalCode
    omega
  · rw [filter_illegal_eq_filter_not_legalCode]
    decide +kernel

/-- Settles O3: ten of the words are encodings, and 70 hex lies in the last illegal range. -/
theorem opcodeWordsDecode : Obligations.OpcodeWordsDecode := by
  unfold Obligations.OpcodeWordsDecode
  exact ⟨decode_encode .reset, decode_encode (.bwWbit false), decode_encode (.bwWbit true), decode_encode .bwFlush,
    decode_encode .brRbytes, decode_encode .ftUnpack, decode_encode .tbBuild, decode_encode .ctDerive, decode_encode .stEff,
    decode_encode .orDecompress,
    decode_singleton_eq_error_iff.2 (decodeByte_eq_illegal_iff_not_legalCode.2 (by decide))⟩

end Sys2Proof
end

section
/-! PROOFS. The bit streams of 40_bitstream.md: what each command of the writer and the reader does to its unit, the writer law, and
that the reader serves the bits in the order they were written. -/

namespace Sys2Proof.Machine

open Sys2Proof

/-! ### The value of a bit sequence -/

theorem bitsValue_foldl (b : Bits) (a : Nat) :
    b.foldl (fun v x => 2 * v + x.toNat) a = a * 2 ^ b.length + bitsValue b := by
  unfold bitsValue
  induction b generalizing a with
  | nil => simp
  | cons x b ih =>
    rw [List.foldl_cons, ih, List.foldl_cons, ih (2 * 0 + x.toNat), List.length_cons, Nat.pow_succ]
    ring

/-- The first bit is the most significant (40_bitstream.md R122). -/
theorem bitsValue_cons (x : Bool) (b : Bits) : bitsValue (x :: b) = x.toNat * 2 ^ b.length + bitsValue b := by
  rw [bitsValue, List.foldl_cons, bitsValue_foldl, Nat.mul_zero, Nat.zero_add]

theorem bitsValue_lowBits (n : Nat) (a : Byte) : bitsValue (lowBits n a) = a.toNat % 2 ^ n := by
  induction n with
  | zero => simp [bitsValue, Nat.mod_one]
  | succ n ih =>
    have hbit : (a.getLsbD n).toNat = a.toNat / 2 ^ n % 2 := Nat.toNat_testBit _ _
    rw [lowBits_succ, bitsValue_cons, lowBits_length, ih, hbit, Nat.mod_pow_succ, Nat.add_comm, Nat.mul_comm]

theorem bitsValue_byteBits (a : Byte) : bitsValue (byteBits a) = a.toNat := by
  rw [byteBits_eq_lowBits, bitsValue_lowBits, Nat.mod_eq_of_lt a.isLt]

/-- Byte j of a byte sequence is the value of its eight bits in the stream (20_memory.md R63). -/
theorem getElem?_toNat_eq_bitsValue {B : List Byte} {j : Nat} (h : j < B.length) :
    (B[j]?).map BitVec.toNat = some (bitsValue (((streamBits B).drop (8 * j)).take 8)) := by
  rw [← streamBits_drop, List.drop_eq_getElem_cons h, streamBits_cons, List.take_left' (byteBits_length _), bitsValue_byteBits,
    List.getElem?_eq_getElem h, Option.map_some]

/-! ### The writer -/

section

variable {w : Writer}

theorem writeBit_of_full (b : Bool) (h : w.wcnt = 7) :
    writeBit b w = { wbuf := w.wbuf ++ [BitVec.ofNat 8 (2 * w.wacc.toNat + b.toNat)], wacc := 0, wcnt := 0 } := if_pos h

theorem writeBit_of_not_full (b : Bool) (h : w.wcnt ≠ 7) :
    writeBit b w = { w with wacc := BitVec.ofNat 8 (2 * w.wacc.toNat + b.toNat), wcnt := w.wcnt + 1 } := if_neg h

/-- One bit more than the pending ones fits a byte (10_state.md R25). -/
theorem shiftIn_lt (b : Bool) (h : WriterOk w) : 2 * w.wacc.toNat + b.toNat < 256 := by
  obtain ⟨hcnt, hacc⟩ := h
  have hpow : 2 ^ w.wcnt ≤ 2 ^ 7 := Nat.pow_le_pow_right Nat.two_pos hcnt
  have hb : b.toNat ≤ 1 := Bool.toNat_le b
  omega

theorem flushWriter_of_pending (h : 0 < w.wcnt) :
    flushWriter w = { wbuf := w.wbuf ++ [BitVec.ofNat 8 (w.wacc.toNat * 2 ^ (8 - w.wcnt))], wacc := 0, wcnt := 0 } := if_pos h

theorem flushWriter_of_aligned (h : w.wcnt = 0) : flushWriter w = w := if_neg (Nat.not_lt.2 (Nat.le_of_eq h))

/-- The pending bits padded on the low end fit a byte (10_state.md R25, 40_bitstream.md R124). -/
theorem padded_lt (h : WriterOk w) : w.wacc.toNat * 2 ^ (8 - w.wcnt) < 256 := by
  obtain ⟨hcnt, hacc⟩ := h
  calc w.wacc.toNat * 2 ^ (8 - w.wcnt)
      < 2 ^ w.wcnt * 2 ^ (8 - w.wcnt) := Nat.mul_lt_mul_of_pos_right hacc (Nat.two_pow_pos _)
    _ = 2 ^ 8 := by rw [← Nat.pow_add, Nat.add_sub_cancel' (by omega)]

theorem writeBits_wbuf_prefix (b : Bits) (w : Writer) : w.wbuf <+: (writeBits b w).wbuf := by
  induction b generalizing w with
  | nil => exact List.prefix_rfl
  | cons x b ih => exact (writeBit_wbuf_prefix x w).trans (ih (writeBit x w))

/-- The bits written to an aligned writer are those of the bytes it appended, then those pending (40_bitstream.md R122). -/
theorem writeBits_aligned (b : Bits) (h : WriterOk w) (h0 : w.wcnt = 0) :
    ∃ B, (writeBits b w).wbuf = w.wbuf ++ B ∧ B.length = b.length / 8 ∧
      b = streamBits B ++ lowBits (b.length % 8) (writeBits b w).wacc := by
  obtain ⟨-, hbits, hcnt⟩ := writeBits_spec b h
  obtain ⟨B, hB⟩ := writeBits_wbuf_prefix b w
  have hsplit : b = streamBits B ++ lowBits (b.length % 8) (writeBits b w).wacc := by
    simpa [writtenBits, ← hB, hcnt, h0] using hbits.symm
  have hlen := congrArg List.length hsplit
  rw [List.length_append, streamBits_length, lowBits_length] at hlen
  exact ⟨B, hB.symm, by omega, hsplit⟩

/-- The writer law (40_bitstream.md R122). -/
theorem writeBits_law (b : Bits) (h : WriterOk w) (h0 : w.wcnt = 0) :
    (writeBits b w).wbuf.length = w.wbuf.length + b.length / 8 ∧ w.wbuf <+: (writeBits b w).wbuf ∧
      (∀ j < b.length / 8,
        ((writeBits b w).wbuf[w.wbuf.length + j]?).map BitVec.toNat = some (bitsValue ((b.drop (8 * j)).take 8))) ∧
      (writeBits b w).wcnt = b.length % 8 ∧ (writeBits b w).wacc.toNat = bitsValue (b.drop (8 * (b.length / 8))) := by
  obtain ⟨⟨-, hacc⟩, -, hcnt⟩ := writeBits_spec b h
  obtain ⟨B, hbuf, hlen, hsplit⟩ := writeBits_aligned b h h0
  rw [h0, Nat.zero_add] at hcnt
  rw [hcnt] at hacc
  refine ⟨by rw [hbuf, List.length_append, hlen], writeBits_wbuf_prefix b w, fun j hj => ?_, hcnt, ?_⟩
  · have hoct : (b.drop (8 * j)).take 8 = ((streamBits B).drop (8 * j)).take 8 := by
      conv_lhs => rw [hsplit]
      rw [List.drop_append_of_le_length (by rw [streamBits_length]; omega),
        List.take_append_of_le_length (by rw [List.length_drop, streamBits_length]; omega)]
    rw [hbuf, List.getElem?_append_right (Nat.le_add_right ..), Nat.add_sub_cancel_left,
      getElem?_toNat_eq_bitsValue (hlen ▸ hj), hoct]
  · have hrest : b.drop (8 * (b.length / 8)) = lowBits (b.length % 8) (writeBits b w).wacc := by
      conv_lhs => rw [← hlen, ← streamBits_length, hsplit]
      exact List.drop_left
    rw [hrest, bitsValue_lowBits, Nat.mod_eq_of_lt hacc]

end

/-! ### The reader -/

section

variable {r : Reader}

theorem readBit_of_rcnt_pos (h : 0 < r.rcnt) :
    readBit r = (.bit (r.rcur.getLsbD (r.rcnt - 1)), { r with rcnt := r.rcnt - 1 }) := if_neg (Nat.pos_iff_ne_zero.1 h)

theorem readBit_of_next_byte {c : Byte} (h0 : r.rcnt = 0) (hc : r.rdata[r.rpos]? = some c) :
    readBit r = (.bit (c.getLsbD 7), { r with rcur := c, rpos := r.rpos + 1, rcnt := 7 }) := by
  simp only [readBit, h0, if_true, hc]
  rfl

theorem readBit_of_end (h0 : r.rcnt = 0) (hend : r.rdata.length ≤ r.rpos) : readBit r = (.eos, r) :=
  readBit_of_nil (by rw [remainingBits_aligned h0, List.drop_eq_nil_of_le hend, streamBits_nil])

/-- A new reader asked for as many bytes as stand before a suffix gives them, and the suffix remains. -/
theorem readBytes_loadReader_append (M B : List Byte) :
    (readBytes M.length (loadReader (M ++ B))).1 = M ∧
      remainingBits (readBytes M.length (loadReader (M ++ B))).2 = streamBits B := by
  rw [readBytes_of_le (by simp [loadReader])]
  simp [remainingBits, loadReader]

/-- What RES_BIT shows of the bit that was to come, if one was. -/
def shownBit (b : Option Bool) : ResBit := b.elim .eos .bit

theorem readBit_shows (r : Reader) : (readBit r).1 = shownBit (remainingBits r).head? := by
  rcases readBit_spec r with ⟨hnil, he⟩ | ⟨b, r', he, hcons, -⟩
  · rw [he, hnil]; rfl
  · rw [he, hcons]; rfl

theorem remainingBits_readBit (r : Reader) : remainingBits (readBit r).2 = (remainingBits r).tail := by
  rcases readBit_spec r with ⟨hnil, he⟩ | ⟨b, r', he, hcons, -⟩
  · rw [he, hnil]; rfl
  · rw [he, hcons]; rfl

end

/-- Bit i of `PackBits(b)` is bit i of b, or the padding's zero (40_bitstream.md R129, R131). -/
theorem streamBits_packBits_getElem? {b : Bits} {i : Nat} (h : i < 8 * ((b.length + 7) / 8)) :
    (streamBits (packBits b))[i]? = some (b.getD i false) := by
  rw [streamBits_packBits]
  by_cases hi : i < b.length
  · rw [List.getElem?_append_left hi, List.getD_eq_getElem _ _ hi, List.getElem?_eq_getElem hi]
  · rw [List.getElem?_append_right (by omega), List.getD_eq_default _ _ (by omega),
      List.getElem?_replicate_of_lt (by simp only [padCount]; omega)]

/-! ### Runs of bit commands -/

section

variable {s : State}

/-- BW_WBIT of a bit sequence writes it, first bit first, and touches no other unit (30_encoding.md R111). -/
theorem execAll_bwWbit (h : s.status ≠ .failed) (b : Bits) :
    ∃ t, execAll (b.map Instr.bwWbit) s = .next t ∧ t.status ≠ .failed ∧ HostSideKept s t ∧ t.bw = writeBits b s.bw ∧
      t.br = s.br ∧ t.ft = s.ft ∧ t.tb = s.tb ∧ t.ct = s.ct ∧ t.orch = s.orch := by
  induction b generalizing s with
  | nil => exact ⟨s, rfl, h, ⟨rfl, rfl, rfl, rfl⟩, rfl, rfl, rfl, rfl, rfl, rfl⟩
  | cons x b ih =>
    rw [List.map_cons, execAll_cons_next (exec_bwWbit h x)]
    exact ih (s := finish { s with bw := writeBit x s.bw } id) (by simp)

/-- BW_WBIT of a bit sequence, BW_FLUSH and BW_GET present the flushed bytes. -/
theorem execAll_bwWbit_flush_get (h : s.status ≠ .failed) (b : Bits) :
    ∃ t, execAll (b.map Instr.bwWbit ++ [.bwFlush, .bwGet]) s = .next t ∧ t.status ≠ .failed ∧
      t.res.out = (flushWriter (writeBits b s.bw)).wbuf := by
  obtain ⟨t, hrun, ht, -, hbw, -⟩ := execAll_bwWbit h b
  rw [execAll_append_next hrun, execAll_cons_next (exec_bwFlush ht), execAll_cons_next (exec_bwGet (by simp))]
  exact ⟨_, rfl, by simp, by rw [finish_res, finish_bw, hbw]⟩

theorem execAll_replicate_brRbit (h : s.status ≠ .failed) (n : Nat) :
    ∃ v, execAll (List.replicate n .brRbit) s = .next v ∧ v.status ≠ .failed ∧
      remainingBits v.br = (remainingBits s.br).drop n := by
  induction n generalizing s with
  | zero => exact ⟨s, rfl, h, rfl⟩
  | succ n ih =>
    rw [List.replicate_succ, execAll_cons_next (exec_brRbit h), ← List.drop_tail, ← remainingBits_readBit]
    exact ih (by simp)

/-- BR_RBIT number n presents the n-th of the bits that remained, counted from 0, and EOS past their end. -/
theorem execAll_replicate_succ_brRbit (h : s.status ≠ .failed) (n : Nat) :
    ∃ v, execAll (List.replicate (n + 1) .brRbit) s = .next v ∧ v.res.bit = shownBit (remainingBits s.br)[n]? := by
  obtain ⟨v, hrun, hv, hbits⟩ := execAll_replicate_brRbit h n
  rw [List.replicate_succ', execAll_append_next hrun, execAll_cons_next (exec_brRbit hv)]
  exact ⟨_, rfl, by rw [← List.head?_drop, ← hbits, ← readBit_shows]; rfl⟩

/-- BR_LOAD and BR_RBYTES of as many bytes as stand before a suffix present them and leave the reader at the suffix. -/
theorem execAll_brLoad_brRbytes (h : s.status ≠ .failed) {M B : List Byte} (hin : s.argIn = M ++ B)
    (hlen : s.argLen.toNat = M.length) :
    ∃ u, execAll [.brLoad, .brRbytes] s = .next u ∧ u.status ≠ .failed ∧ u.res.out = M ∧ remainingBits u.br = streamBits B := by
  have hread := readBytes_loadReader_append M B
  rw [← hin, ← hlen] at hread
  rw [execAll_cons_next (exec_brLoad h), execAll_cons_next (exec_brRbytes (by simp))]
  exact ⟨_, rfl, by simp, hread⟩

end

/-! ### The writer's commands -/

/-- Settles O12: the two branches of the write, in range by the writer's invariant. -/
theorem writeBitAccumulatesOrAppends : Obligations.WriteBitAccumulatesOrAppends := by
  unfold Obligations.WriteBitAccumulatesOrAppends
  intro s b h hw
  have hlt := shiftIn_lt b hw
  refine ⟨_, exec_bwWbit h b, finish_endedOk _ ⟨rfl, rfl, rfl, rfl⟩, fun h7 => ?_, fun h7 => ?_, rfl, rfl, rfl, rfl, rfl⟩
  · rw [finish_bw, writeBit_of_full b h7]
    exact ⟨rfl, hlt, rfl, rfl⟩
  · rw [finish_bw, writeBit_of_not_full b h7]
    exact ⟨rfl, Nat.mod_eq_of_lt hlt, rfl⟩

/-- Settles O13: the commands write the sequence bit by bit, and the writer law holds of it. -/
theorem writerLawForBitSequences : Obligations.WriterLawForBitSequences := by
  unfold Obligations.WriterLawForBitSequences
  intro s b h hw h0
  obtain ⟨t, hrun, -, -, hbw, -⟩ := execAll_bwWbit h b
  exact ⟨t, hrun, hbw ▸ writeBits_law b hw h0⟩

/-- Settles O14: the bytes go past the accumulator. -/
theorem writeBytesBypassesTheAccumulator : Obligations.WriteBytesBypassesTheAccumulator := by
  unfold Obligations.WriteBytesBypassesTheAccumulator
  intro s h
  exact ⟨_, exec_bwWbytes h, finish_endedOk _ ⟨rfl, rfl, rfl, rfl⟩, rfl, rfl, rfl, rfl, rfl, rfl, rfl, rfl⟩

/-- Settles O15: with bits pending or none, and the second flush by idempotence. -/
theorem flushPadsAndIsIdempotent : Obligations.FlushPadsAndIsIdempotent := by
  unfold Obligations.FlushPadsAndIsIdempotent
  intro s h hw
  refine ⟨_, exec_bwFlush h, finish_endedOk _ ⟨rfl, rfl, rfl, rfl⟩, fun hpend => ?_, fun h0 => flushWriter_of_aligned h0,
    ⟨_, exec_bwFlush (by simp), flushWriter_idem s.bw⟩, rfl, rfl, rfl, rfl, rfl⟩
  rw [finish_bw, flushWriter_of_pending hpend]
  exact ⟨rfl, padded_lt hw, rfl, rfl⟩

/-- Settles O16: WBUF is presented and no unit written. -/
theorem getPresentsTheWholeBytes : Obligations.GetPresentsTheWholeBytes := by
  unfold Obligations.GetPresentsTheWholeBytes
  intro s h
  exact ⟨_, exec_bwGet h, finish_endedOk _ ⟨rfl, rfl, rfl, rfl⟩, rfl, rfl, rfl, rfl, rfl, rfl, rfl⟩

/-- Settles O17: an empty writer flushed holds PackBits of what it was given. -/
theorem writtenBitsReadOutAsPackBits : Obligations.WrittenBitsReadOutAsPackBits := by
  unfold Obligations.WrittenBitsReadOutAsPackBits
  intro s b h hw
  obtain ⟨t, hrun, -, hout⟩ := execAll_bwWbit_flush_get h b
  refine ⟨t, hrun, ?_⟩
  rw [hout, hw, flush_writeBits_wbuf b writerOk_empty rfl, Writer.empty_wbuf, List.nil_append]

/-! ### The reader's commands -/

/-- Settles O18: the new reader stands at the first byte of ARG_IN. -/
theorem loadMakesANewReader : Obligations.LoadMakesANewReader := by
  unfold Obligations.LoadMakesANewReader
  intro s h
  exact ⟨_, exec_brLoad h, finish_endedOk _ ⟨rfl, rfl, rfl, rfl⟩, rfl, rfl, rfl, rfl, rfl, rfl, rfl, rfl, rfl⟩

/-- Settles O19: a bit of RCUR is left, or a byte of RDATA, or neither. -/
theorem readBitServesLoadsOrEnds : Obligations.ReadBitServesLoadsOrEnds := by
  unfold Obligations.ReadBitServesLoadsOrEnds
  intro s h
  refine ⟨_, exec_brRbit h, finish_endedOk _ ⟨rfl, rfl, rfl, rfl⟩, fun hpos => ?_, fun c h0 hc => ?_, fun h0 hend => ?_,
    readBit_rdata s.br, rfl, rfl, rfl, rfl, rfl⟩
  · simp only [finish_res, finish_br, readBit_of_rcnt_pos hpos, and_self]
  · simp only [finish_res, finish_br, readBit_of_next_byte h0 hc, and_self]
  · simp only [finish_res, finish_br, readBit_of_end h0 hend, and_self]

/-- Settles O20: the bytes read are the operand's number or what remains, and only RPOS moves. -/
theorem readBytesTakesWhatRemains : Obligations.ReadBytesTakesWhatRemains := by
  unfold Obligations.ReadBytesTakesWhatRemains
  intro s h _
  obtain ⟨hout, hlen, hreader⟩ := readBytes_spec s.argLen.toNat s.br
  exact ⟨_, exec_brRbytes h, finish_endedOk _ ⟨rfl, rfl, rfl, rfl⟩, hout, hlen, congrArg Reader.rpos hreader, rfl, rfl, rfl,
    rfl, rfl, rfl, rfl, rfl⟩

/-- Settles O21: the writer presents M and PackBits of b, so the reader, past M, has left the bits of b and the padding's zeros. -/
theorem bitOrderIsSymmetric : Obligations.BitOrderIsSymmetric := by
  unfold Obligations.BitOrderIsSymmetric
  rintro s M b h hw rfl hlt
  obtain ⟨t, hrun, ht, hout⟩ := execAll_bwWbit_flush_get (s := finish { s with bw := writeBytes s.argIn s.bw } id) (by simp) b
  have hblob : t.res.out = s.argIn ++ packBits b := by
    rw [hout, finish_bw, hw, flush_writeBits_wbuf b (writeBytes_ok _ writerOk_empty) rfl]
    rfl
  obtain ⟨u, hload, hu, hM, hbits⟩ := execAll_brLoad_brRbytes
    (s := { t with argIn := t.res.out, argLen := BitVec.ofNat 64 s.argIn.length }) ht hblob (Nat.mod_eq_of_lt hlt)
  refine ⟨t, ?_, u, hload, hM, fun i hi => ?_, ?_⟩
  · rw [List.append_assoc, List.singleton_append, execAll_cons_next (exec_bwWbytes h), hrun]
  · obtain ⟨v, hv, hbit⟩ := execAll_replicate_succ_brRbit hu i
    exact ⟨v, hv, by rw [hbit, hbits, streamBits_packBits_getElem? hi]; rfl⟩
  · obtain ⟨v, hv, hbit⟩ := execAll_replicate_succ_brRbit hu (8 * ((b.length + 7) / 8))
    have hend : (streamBits (packBits b))[8 * ((b.length + 7) / 8)]? = none := by simp
    exact ⟨v, hv, by rw [hbit, hbits, hend]; rfl⟩

end Sys2Proof.Machine
end

section
/-! PROOFS. The frequency table codec of 41_freqtable.md: what FT_BUILD counts, where the fields of packed metadata stand, and what
FT_UNPACK makes of the bytes available. -/

namespace Sys2Proof.Machine

open Sys2Proof

/-! ### Keys and counts of a table -/

/-- A canonical table has as many keys as there are distinct symbols present. -/
theorem distinct_eq_length {T : FreqTable} (hw : symWf T) {K : List Byte} (hK : K.Nodup)
    (h : ∀ b, ftPresent T b = true ↔ b ∈ K) : distinct T = K.length := by
  have hperm : List.Perm (T.map Prod.fst) K :=
    (List.perm_ext_iff_of_nodup (symWf_keys_nodup hw) hK).2 fun b => (ftPresent_iff T b).symm.trans (h b)
  exact (List.length_map _).symm.trans hperm.length_eq

theorem symFind_of_present {T : FreqTable} {b : Byte} (h : ftPresent T b = true) : symFind T b = some (ftCount T b) := by
  obtain ⟨c, hc⟩ := Option.isSome_iff_exists.1 h
  rw [ftCount, hc]
  rfl

theorem symFind_of_absent {T : FreqTable} {b : Byte} (h : ¬ ftPresent T b = true) : symFind T b = none :=
  Option.not_isSome_iff_eq_none.1 h

/-- Two canonical tables with the same keys and the same counts are equal. -/
theorem freqTable_ext {T U : FreqTable} (hT : symWf T) (hU : symWf U) (hkeys : ∀ b, ftPresent T b = true ↔ ftPresent U b = true)
    (hcounts : ∀ b, ftPresent T b = true → ftCount T b = ftCount U b) : T = U := by
  refine symTable_ext hT hU fun b => ?_
  by_cases hb : ftPresent T b = true
  · rw [symFind_of_present hb, symFind_of_present ((hkeys b).1 hb), hcounts b hb]
  · rw [symFind_of_absent hb, symFind_of_absent (mt (hkeys b).2 hb)]

/-! ### FT_BUILD -/

/-- A built table has no more keys than bytes were counted (41_freqtable.md R152). -/
theorem distinct_buildTable_le (data : List Byte) : distinct (buildTable data) ≤ data.length := by
  have hsub : (buildTable data).map Prod.fst ⊆ data := fun b hb => (ftPresent_buildTable data b).1 ((ftPresent_iff _ b).2 hb)
  calc distinct (buildTable data)
      _ = ((buildTable data).map Prod.fst).length := (List.length_map _).symm
      _ ≤ data.length := ((symWf_keys_nodup (symWf_buildTable data)).subperm hsub).length_le

theorem distinct_buildTable_eq_zero_iff (data : List Byte) : distinct (buildTable data) = 0 ↔ data = [] := by
  refine ⟨fun h0 => ?_, fun h => h ▸ rfl⟩
  by_contra hne
  have := distinct_buildTable_pos hne
  omega

/-- Settles O22: the table built of ARG_IN, by what counting does to keys, counts and total. -/
theorem buildCountsEverySymbol : Obligations.BuildCountsEverySymbol := by
  unfold Obligations.BuildCountsEverySymbol
  intro s h hlen
  have hle : distinct (buildTable s.argIn) ≤ min s.argIn.length 256 :=
    Nat.le_min.2 ⟨distinct_buildTable_le s.argIn, symWf_length (symWf_buildTable s.argIn)⟩
  exact ⟨_, exec_ftBuild h hlen, finish_endedOk _ ⟨rfl, rfl, rfl, rfl⟩, ftCount_buildTable s.argIn, ftPresent_buildTable s.argIn,
    total_buildTable s.argIn, distinct_buildTable_eq_zero_iff s.argIn, hle, symWf_buildTable s.argIn, rfl, rfl, rfl, rfl, rfl⟩

theorem exec_ftBuild_overlong {s : State} (h : s.status ≠ .failed) (hlen : s.params.maxInputLen < s.argIn.length) :
    exec .ftBuild s = .refused .inputTooLong := by
  show primitive s _ = _
  rw [primitive_of_not_failed h]
  exact if_pos hlen

/-- Settles O23: each of the two commands compares the length before it does anything else. -/
theorem overlongInputIsRefused : Obligations.OverlongInputIsRefused := by
  unfold Obligations.OverlongInputIsRefused
  intro s hlen
  exact ⟨execOrCompress_overlong hlen, fun h => exec_ftBuild_overlong h hlen⟩

/-! ### The fields of packed metadata -/

/-- Entry i of the metadata region starts at 9 · i (30_encoding.md R92). -/
theorem drop_entries (E : List (Byte × Nat)) (i : Nat) :
    (E.flatMap fun e => entryBytes e.1 e.2).drop (9 * i) = (E.drop i).flatMap fun e => entryBytes e.1 e.2 := by
  induction E generalizing i with
  | nil => simp
  | cons e E ih =>
    cases i with
    | zero => rfl
    | succ i =>
      rw [List.flatMap_cons, Nat.mul_succ, Nat.add_comm, ← List.drop_drop, List.drop_left' (entryBytes_length e.1 e.2), ih,
        List.drop_succ_cons]

/-- What stands in the metadata from entry i on. -/
theorem drop_metadata (T : FreqTable) (i : Nat) :
    (metadata T).drop (2 + 9 * i) = (T.drop i).flatMap fun e => entryBytes e.1 e.2 := by
  rw [metadata, ← List.drop_drop, List.drop_left' (countBytes_length _), drop_entries]

theorem take_two_metadata (T : FreqTable) : (metadata T).take 2 = countBytes (distinct T) :=
  List.take_left' (countBytes_length _)

/-- The count field holds `|T|` (30_encoding.md R91). -/
theorem beValue_countField_metadata {T : FreqTable} (h : distinct T < 65536) : beValue ((metadata T).take 2) = distinct T := by
  rw [take_two_metadata]
  exact countField_countBytes h

/-- The first byte of entry i is its symbol (30_encoding.md R92). -/
theorem metadata_symbol (T : FreqTable) (i : Nat) : (metadata T)[2 + 9 * i]? = (T.map Prod.fst)[i]? := by
  rw [List.getElem?_map, ← List.head?_drop, drop_metadata, ← List.head?_drop]
  cases T.drop i <;> rfl

/-- The other eight bytes of entry i are its count (30_encoding.md R92). -/
theorem metadata_count {T : FreqTable} {i : Nat} {e : Byte × Nat} (h : T[i]? = some e) :
    ((metadata T).drop (3 + 9 * i)).take 8 = beBytes 8 e.2 := by
  obtain ⟨hi, rfl⟩ := List.getElem?_eq_some_iff.1 h
  rw [show 3 + 9 * i = 2 + 9 * i + 1 by omega, ← List.drop_drop, drop_metadata, List.drop_eq_getElem_cons hi, List.flatMap_cons]
  exact List.take_left' (beBytes_length 8 _)

/-! ### FT_PACK -/

theorem exec_ftPack_metadata {s : State} (h : s.status ≠ .failed) (hw : symWf s.ft) :
    exec .ftPack s = .next (finish s fun r => { r with out := metadata s.ft }) := exec_ftPack_ok h (packTable_metadata hw)

/-- Settles O24: the metadata is presented, and its fields are read at their places. -/
theorem packWritesCountAndEntries : Obligations.PackWritesCountAndEntries := by
  unfold Obligations.PackWritesCountAndEntries
  intro s h hT
  have hle : distinct s.ft ≤ 256 := symWf_length hT.1
  refine ⟨_, exec_ftPack_metadata h hT.1, finish_endedOk _ ⟨rfl, rfl, rfl, rfl⟩, metadata_length s.ft, hle,
    beValue_countField_metadata (by omega), fun i e he => ⟨?_, ?_⟩, rfl, rfl, rfl, rfl, rfl, rfl⟩
  · exact (metadata_symbol s.ft i).trans (by rw [List.getElem?_map, he]; rfl)
  · exact (congrArg beValue (metadata_count he)).trans (freqField_beBytes (hT.2 e (List.mem_of_getElem? he)))

/-! ### FT_UNPACK -/

/-- The table read from bytes that hold a count field and all its entries (41_freqtable.md R155, R157): in range, its keys the entries'
symbols, each with the count of its last entry. -/
structure TableRead (D : List Byte) (T : FreqTable) : Prop where
  freqOk : FreqOk T
  keys : ∀ b, ftPresent T b = true ↔ ∃ i < beValue (D.take 2), D[2 + 9 * i]? = some b
  counts : ∀ i < beValue (D.take 2), ∀ b, D[2 + 9 * i]? = some b →
    (∀ j < beValue (D.take 2), i < j → D[2 + 9 * j]? ≠ some b) → ftCount T b = beValue ((D.drop (3 + 9 * i)).take 8)

theorem tableRead_putEntries {D : List Byte} (h : 2 + 9 * beValue (D.take 2) ≤ D.length) :
    TableRead D (putEntries (beValue (D.take 2)) (D.drop 2) []) := by
  have hD : 9 * beValue (D.take 2) ≤ (D.drop 2).length := by rw [List.length_drop]; omega
  refine ⟨freqOk_putEntries freqOk_nil hD, fun b => ?_, fun i hi b hb hlast => ?_⟩
  · simp only [ftPresent_putEntries [] hD b, ftPresent_nil, Bool.false_eq_true, false_or, List.getElem?_drop]
  · have hcount := ftCount_putEntries_last [] hD hi (by rwa [List.getElem?_drop])
      fun j hj hij => by rw [List.getElem?_drop]; exact hlast j hj hij
    rw [hcount, List.drop_drop, show 2 + (9 * i + 1) = 3 + 9 * i by omega]

section

variable {r : Reader}

theorem unpackTable_of_short (h : (r.rdata.drop r.rpos).length < 2) : unpackTable r = .error .headerShort := by
  rw [unpackTable_spec]
  exact if_pos h

theorem unpackTable_of_truncated (h2 : 2 ≤ (r.rdata.drop r.rpos).length)
    (h : (r.rdata.drop r.rpos).length < 2 + 9 * beValue ((r.rdata.drop r.rpos).take 2)) :
    unpackTable r = .error (.entryTruncated (((r.rdata.drop r.rpos).length - 2) / 9)) := by
  rw [unpackTable_spec]
  exact (if_neg (Nat.not_lt.2 h2)).trans (if_pos h)

theorem unpackTable_of_whole (h : 2 + 9 * beValue ((r.rdata.drop r.rpos).take 2) ≤ (r.rdata.drop r.rpos).length) :
    ∃ T, TableRead (r.rdata.drop r.rpos) T ∧
      unpackTable r = .ok (T, 2 + 9 * beValue ((r.rdata.drop r.rpos).take 2),
        { r with rpos := r.rpos + (2 + 9 * beValue ((r.rdata.drop r.rpos).take 2)) }) := by
  refine ⟨_, tableRead_putEntries h, ?_⟩
  rw [unpackTable_spec]
  exact (if_neg (by omega)).trans (if_neg (Nat.not_lt.2 h))

end

/-- RES_CONSUMED is wide enough for the longest metadata (10_state.md R22). -/
theorem consumed_toNat {n : Nat} (h : n < 65536) : (BitVec.ofNat 20 (2 + 9 * n)).toNat = 2 + 9 * n :=
  Nat.mod_eq_of_lt (by omega)

/-- Settles O25: the three outcomes of unpacking, split on the bytes available. -/
theorem unpackReadsTheWholeTableOrFails : Obligations.UnpackReadsTheWholeTableOrFails := by
  unfold Obligations.UnpackReadsTheWholeTableOrFails
  intro s h _
  dsimp only
  by_cases h2 : (s.br.rdata.drop s.br.rpos).length < 2
  · exact ⟨_, exec_ftUnpack_error h (unpackTable_of_short h2),
      fun _ => raiseError_endedInError _ _ ⟨rfl, rfl, rfl, rfl⟩, fun h2' => by omega, fun h2' => by omega⟩
  have h2 := Nat.le_of_not_lt h2
  by_cases hN : (s.br.rdata.drop s.br.rpos).length < 2 + 9 * beValue ((s.br.rdata.drop s.br.rpos).take 2)
  · exact ⟨_, exec_ftUnpack_error h (unpackTable_of_truncated h2 hN), fun h2' => by omega,
      fun _ _ => raiseError_endedInError _ _ ⟨rfl, rfl, rfl, rfl⟩, fun _ hN' => by omega⟩
  · obtain ⟨T, hT, hu⟩ := unpackTable_of_whole (Nat.le_of_not_lt hN)
    have hlt : beValue ((s.br.rdata.drop s.br.rpos).take 2) < 65536 := countField_lt (List.length_take_of_le h2)
    exact ⟨_, exec_ftUnpack_ok h hu, fun h2' => by omega, fun _ hN' => by omega, fun _ _ =>
      ⟨finish_endedOk _ ⟨rfl, rfl, rfl, rfl⟩, consumed_toNat hlt, hT.freqOk, hT.keys, hT.counts, rfl, rfl, rfl, rfl, rfl⟩⟩

/-! ### Packed and unpacked again -/

/-- Settles O26: the reader loaded with the metadata unpacks to the table and stands at its end. -/
theorem unpackOfPackIsTheTable : Obligations.UnpackOfPackIsTheTable := by
  unfold Obligations.UnpackOfPackIsTheTable
  intro s h hT
  have hle : distinct s.ft ≤ 256 := symWf_length hT.1
  have hu := unpackTable_metadata hT []
  rw [List.append_nil] at hu
  refine ⟨_, exec_ftPack_metadata h hT.1, fun h0 => by rw [finish_res, h0]; rfl, ?_⟩
  rw [execAll_cons_next (exec_brLoad (by simp)), execAll_cons_next (exec_ftUnpack_ok (by simp) hu)]
  refine ⟨_, rfl, rfl, rfl, ?_, rfl⟩
  show (BitVec.ofNat 20 (metadata s.ft).length).toNat = (metadata s.ft).length
  rw [metadata_length]
  exact consumed_toNat (by omega)

/-- The entries of metadata with pairwise distinct symbols, in whatever order, are read as a table with their symbols as keys, each with
its count as far as eight bytes hold it. -/
theorem unpackTable_of_distinct_entries {E : List (Byte × Nat)} (hlen : E.length < 65536) (hn : (E.map Prod.fst).Nodup) :
    ∃ T n r, unpackTable (loadReader (metadata E)) = .ok (T, n, r) ∧ symWf T ∧
      (∀ b, ftPresent T b = true ↔ b ∈ E.map Prod.fst) ∧ ∀ e ∈ E, ftCount T e.1 = freqField (beBytes 8 e.2) := by
  have hN : beValue ((metadata E).take 2) = E.length := beValue_countField_metadata hlen
  have hwhole : 2 + 9 * beValue ((metadata E).take 2) ≤ (metadata E).length := by rw [hN, metadata_length]; rfl
  obtain ⟨T, hT, hu⟩ := unpackTable_of_whole (r := loadReader (metadata E)) hwhole
  obtain ⟨hok, hkeys, hcounts⟩ : TableRead (metadata E) T := hT
  simp only [hN, metadata_symbol] at hkeys hcounts
  refine ⟨T, _, _, hu, hok.1, fun b => ?_, fun e he => ?_⟩
  · rw [hkeys, List.mem_iff_getElem?]
    refine ⟨fun ⟨i, _, hi⟩ => ⟨i, hi⟩, fun ⟨i, hi⟩ => ⟨i, ?_, hi⟩⟩
    simpa using (List.getElem?_eq_some_iff.1 hi).1
  · obtain ⟨i, hi⟩ := List.mem_iff_getElem?.1 he
    have hilt : i < E.length := (List.getElem?_eq_some_iff.1 hi).1
    have hsym : (E.map Prod.fst)[i]? = some e.1 := by rw [List.getElem?_map, hi]; rfl
    have hlast : ∀ j < E.length, i < j → (E.map Prod.fst)[j]? ≠ some e.1 := fun j _ hij hj =>
      Nat.ne_of_lt hij ((List.getElem?_inj (by simpa using hilt) hn).1 (hsym.trans hj.symm))
    exact (hcounts i hilt e.1 hsym hlast).trans (congrArg beValue (metadata_count hi))

/-- Settles O27: both metadata are read as a table with the entries' symbols as keys and the entries' counts. -/
theorem entryOrderDoesNotMatter : Obligations.EntryOrderDoesNotMatter := by
  unfold Obligations.EntryOrderDoesNotMatter
  intro s u E F hs hu hlen hn hperm hsbr hubr
  have hnF : (F.map Prod.fst).Nodup := (hperm.map Prod.fst).nodup_iff.1 hn
  obtain ⟨T, n, r, hT, hTw, hTkeys, hTcounts⟩ := unpackTable_of_distinct_entries hlen hn
  obtain ⟨U, m, q, hU, hUw, hUkeys, hUcounts⟩ := unpackTable_of_distinct_entries (hperm.length_eq ▸ hlen) hnF
  have hTU : T = U := by
    refine freqTable_ext hTw hUw (fun b => ?_) fun b hb => ?_
    · rw [hTkeys, hUkeys]
      exact (hperm.map Prod.fst).mem_iff
    · obtain ⟨e, he, rfl⟩ := List.mem_map.1 ((hTkeys b).1 hb)
      rw [hTcounts e he, hUcounts e (hperm.mem_iff.1 he)]
  refine ⟨_, _, exec_ftUnpack_ok hs (hsbr ▸ hT), exec_ftUnpack_ok hu (hubr ▸ hU), rfl, rfl, hTU, ?_⟩
  exact (distinct_eq_length hTw hn hTkeys).trans (List.length_map _)

end Sys2Proof.Machine
end

section
/-! PROOFS. That the greedy merge is optimal (42_treebuilder.md R181). A full binary tree is measured by the depths at which it places
its leaves; exchanging two leaves so that the lighter stands deeper does not raise the cost, so the two lightest can be made siblings at
the greatest depth, and merging them leaves the same question about one tree fewer. -/

namespace Sys2Proof.Machine

open Sys2Proof

/-! ### The depths of a full binary tree -/

/-- The depths K are those of the leaves of a full binary tree: with N at least every depth, their Kraft sum in units of 2^(−N) is 1. -/
abbrev FullDepths (N : Nat) (K : Multiset Nat) : Prop := (∀ d ∈ K, d ≤ N) ∧ (K.map fun d => 2 ^ (N - d)).sum = 2 ^ N

/-- One level more in hand doubles the Kraft sum. -/
theorem kraftSum_succ {N : Nat} {K : Multiset Nat} (h : ∀ d ∈ K, d ≤ N) :
    (K.map fun d => 2 ^ (N + 1 - d)).sum = 2 * (K.map fun d => 2 ^ (N - d)).sum := by
  rw [← Multiset.sum_map_mul_left]
  refine congrArg Multiset.sum (Multiset.map_congr rfl fun d hd => ?_)
  rw [Nat.succ_sub (h d hd), Nat.pow_succ']

/-- The greatest depth of a full binary tree of at least two leaves is taken at least twice: the Kraft sum is even there. -/
theorem FullDepths.deepest_twice {N : Nat} {K : Multiset Nat} (h : FullDepths N K) (h2 : 2 ≤ K.card) :
    ∃ n K', K = (n + 1) ::ₘ (n + 1) ::ₘ K' ∧ FullDepths (n + 1) K := by
  induction N with
  | zero =>
    have hone : (K.map fun d => 2 ^ (0 - d)).sum = K.card := by simp
    have := h.2
    omega
  | succ N ih =>
    have hlt : ∀ {L : Multiset Nat}, (∀ d ∈ L, d ≤ N + 1) → N + 1 ∉ L → ∀ d ∈ L, d ≤ N := fun hL hne d hd =>
      Nat.le_of_lt_succ (Nat.lt_of_le_of_ne (hL d hd) (ne_of_mem_of_not_mem hd hne))
    obtain ⟨hle, hsum⟩ := h
    by_cases hmem : N + 1 ∈ K
    · obtain ⟨L, rfl⟩ := Multiset.exists_cons_of_mem hmem
      by_cases hmem' : N + 1 ∈ L
      · obtain ⟨K', rfl⟩ := Multiset.exists_cons_of_mem hmem'
        exact ⟨N, K', rfl, hle, hsum⟩
      · rw [Multiset.map_cons, Multiset.sum_cons, Nat.sub_self, kraftSum_succ (hlt (fun d hd => hle d (Multiset.mem_cons_of_mem hd)) hmem'),
          Nat.pow_succ] at hsum
        omega
    · rw [kraftSum_succ (hlt hle hmem), Nat.pow_succ'] at hsum
      exact ih ⟨hlt hle hmem, Nat.eq_of_mul_eq_mul_left Nat.two_pos hsum⟩

/-- Two siblings at the greatest depth give way to their parent. -/
theorem FullDepths.siblings_merged {n : Nat} {K : Multiset Nat} (h : FullDepths (n + 1) ((n + 1) ::ₘ (n + 1) ::ₘ K)) :
    FullDepths (n + 1) (n ::ₘ K) := by
  simp only [FullDepths, Multiset.forall_mem_cons, Multiset.map_cons, Multiset.sum_cons, Nat.sub_self, Nat.add_sub_cancel_left] at h ⊢
  exact ⟨⟨Nat.le_succ n, h.1.2.2⟩, by omega⟩

/-! ### Weights placed at depths -/

/-- The cost of weights placed at depths: the sum of weight · depth. -/
def placedCost (D : Multiset (Nat × Nat)) : Nat := (D.map fun e => e.1 * e.2).sum

theorem placedCost_cons (e : Nat × Nat) (D : Multiset (Nat × Nat)) : placedCost (e ::ₘ D) = e.1 * e.2 + placedCost D := by
  rw [placedCost, Multiset.map_cons, Multiset.sum_cons, placedCost]

theorem exists_cons_of_map_eq_cons {α β : Type} [DecidableEq α] {f : α → β} {D : Multiset α} {b : β} {R : Multiset β}
    (h : D.map f = b ::ₘ R) : ∃ e D', D = e ::ₘ D' ∧ f e = b ∧ D'.map f = R := by
  obtain ⟨e, he, hb, hR⟩ := (Multiset.map_eq_cons f D R b).2 h
  exact ⟨e, D.erase e, (Multiset.cons_erase he).symm, hb, hR⟩

/-- The exchange: the lightest weight takes the place at the greatest depth, and what stood there takes its place, at no higher cost. -/
theorem exists_lightest_at_depth {x n a : Nat} {D : Multiset (Nat × Nat)} {R : Multiset Nat}
    (hw : x ::ₘ D.map Prod.fst = a ::ₘ R) (ha : ∀ w ∈ R, a ≤ w) (hn : ∀ d ∈ D.map Prod.snd, d ≤ n) :
    ∃ D', D'.map Prod.fst = R ∧ D'.map Prod.snd = D.map Prod.snd ∧ placedCost ((a, n) ::ₘ D') ≤ placedCost ((x, n) ::ₘ D) := by
  rcases Multiset.cons_eq_cons.1 hw with ⟨rfl, rfl⟩ | ⟨-, Q, hD, rfl⟩
  · exact ⟨D, rfl, rfl, Nat.le_refl _⟩
  · obtain ⟨⟨_, d⟩, E, rfl, rfl, rfl⟩ := exists_cons_of_map_eq_cons hD
    refine ⟨(x, d) ::ₘ E, by simp, by simp, ?_⟩
    have hax := ha x (Multiset.mem_cons_self _ _)
    have hdn := hn d (by simp)
    simp only [placedCost_cons]
    nlinarith [Nat.mul_le_mul_right (n - d) hax, Nat.sub_add_cancel hdn]

/-- The two lightest weights of a full binary tree can be merged into one: what is left of the cost is at most the tree's less their sum. -/
theorem exists_lightest_merged {N a b : Nat} {D : Multiset (Nat × Nat)} {R : Multiset Nat} (hfull : FullDepths N (D.map Prod.snd))
    (hw : D.map Prod.fst = a ::ₘ b ::ₘ R) (ha : ∀ w ∈ b ::ₘ R, a ≤ w) (hb : ∀ w ∈ R, b ≤ w) :
    ∃ n D', FullDepths n (D'.map Prod.snd) ∧ D'.map Prod.fst = (a + b) ::ₘ R ∧ placedCost D' + (a + b) ≤ placedCost D := by
  have hcard : 2 ≤ (D.map Prod.snd).card := by
    have := congrArg Multiset.card hw
    simp only [Multiset.card_map, Multiset.card_cons] at this ⊢
    omega
  obtain ⟨n, K, hK, hfull'⟩ := hfull.deepest_twice hcard
  rw [hK] at hfull'
  have hle : ∀ d ∈ (n + 1) ::ₘ K, d ≤ n + 1 := fun d hd => hfull'.1 d (Multiset.mem_cons_of_mem hd)
  obtain ⟨⟨x, _⟩, D₁, rfl, rfl, hD₁⟩ := exists_cons_of_map_eq_cons hK
  obtain ⟨E₁, hE₁w, hE₁d, hE₁c⟩ := exists_lightest_at_depth (by simpa using hw) ha (hD₁ ▸ hle)
  obtain ⟨⟨y, _⟩, D₂, rfl, rfl, hD₂⟩ := exists_cons_of_map_eq_cons (hE₁d.trans hD₁)
  obtain ⟨E₂, hE₂w, hE₂d, hE₂c⟩ := exists_lightest_at_depth (by simpa using hE₁w) hb
    (hD₂ ▸ fun d hd => hle d (Multiset.mem_cons_of_mem hd))
  refine ⟨n + 1, (a + b, n) ::ₘ E₂, ?_, by simp [hE₂w], ?_⟩
  · simpa [hE₂d, hD₂] using hfull'.siblings_merged
  · simp only [placedCost_cons] at hE₁c hE₂c ⊢
    linarith [hE₁c, hE₂c]

/-! ### The queued trees -/

/-- The trees F can be completed to one full binary tree at a cost of at most c: their weights placed at the depths of a full binary
tree, each tree's own cost added. -/
abbrev CompletesWithin (T : FreqTable) (F : Multiset SymTree) (c : Nat) : Prop :=
  ∃ (N : Nat) (D : Multiset (Nat × Nat)), FullDepths N (D.map Prod.snd) ∧ D.map Prod.fst = F.map (SymTree.weight T) ∧
    placedCost D + (F.map (SymTree.cost T 0)).sum ≤ c

/-- The leaves alone can be completed within the cost of any full binary tree of the keys. -/
theorem completesWithin_leaves {T : FreqTable} {u : SymTree} (hu : List.Perm u.leaves (T.map Prod.fst)) :
    CompletesWithin T (T.map fun e => SymTree.leaf e.1) (u.cost T 0) := by
  refine ⟨u.height, u.paths.map fun e => (ftCount T e.1, e.2.length), ⟨?_, ?_⟩, ?_, ?_⟩
  · simpa using fun d x p hp hd => hd ▸ SymTree.path_length_le_height hp
  · simpa [Function.comp_def] using u.kraft_sum u.height (Nat.le_refl _)
  · have := hu.map (ftCount T)
    rw [← SymTree.paths_map_fst] at this
    simpa [Function.comp_def, SymTree.weight] using this
  · simp [placedCost, SymTree.cost_eq_sum, SymTree.paths, Function.comp_def]

/-- Merging the two lightest trees keeps the bound (42_treebuilder.md R178). -/
theorem CompletesWithin.merged {T : FreqTable} {l r : SymTree} {F : Multiset SymTree} {c : Nat}
    (h : CompletesWithin T (l ::ₘ r ::ₘ F) c) (hl : ∀ v ∈ r ::ₘ F, l.weight T ≤ v.weight T)
    (hr : ∀ v ∈ F, r.weight T ≤ v.weight T) : CompletesWithin T (.node l r ::ₘ F) c := by
  obtain ⟨N, D, hfull, hw, hc⟩ := h
  simp only [Multiset.map_cons, Multiset.sum_cons] at hw hc
  obtain ⟨n, D', hfull', hw', hc'⟩ := exists_lightest_merged hfull hw (by simpa using hl) (by simpa using hr)
  refine ⟨n, D', hfull', by simpa [SymTree.weight] using hw', ?_⟩
  simp only [Multiset.map_cons, Multiset.sum_cons, SymTree.cost, SymTree.cost_succ]
  omega

/-- The trees planted are the leaves of the keys (42_treebuilder.md R172). -/
theorem plantLeaves_trees (T : FreqTable) :
    (plantLeaves T).pq.map (treeAt (plantLeaves T).nodes) = T.map fun e => SymTree.leaf e.1 := by
  refine List.ext_getElem (by simp [plantLeaves]) fun i h1 h2 => ?_
  have hi : i < T.length := by simpa using h2
  have hl := (MergeInv.planted T).leaf_at (List.getElem?_eq_getElem hi)
  have hpq : (plantLeaves T).pq[i]'(by simpa using h1) = i := List.getElem_range _
  rw [List.getElem_map, List.getElem_map, hpq, treeAt_leaf (by rw [hl]; rfl), hl]
  rfl

/-- One turn of the merge loop keeps the bound: the two nodes popped are the lightest queued (42_treebuilder.md R177 (b), R178). -/
theorem CompletesWithin.mergeStep {lt : TieOrder} (hr : RefinesWeight lt) {T : FreqTable} (hT : symWf T) {t : TreeUnit} {a b : Nat}
    {pq1 pq2 : List Nat} {c : Nat} (h : CompletesWithin T (t.pq.map (treeAt t.nodes)) c) (hi : MergeInv T t)
    (ha : popLeast lt t.nodes t.pq = some (a, pq1)) (hb : popLeast lt t.nodes pq1 = some (b, pq2)) :
    CompletesWithin T ((mergeStep t a b pq2).pq.map (treeAt (mergeStep t a b pq2).nodes)) c := by
  have hp1 : List.Perm (a :: pq1) t.pq := popLeast_perm ha
  have hp2 : List.Perm (b :: pq2) pq1 := popLeast_perm hb
  have hperm : List.Perm (a :: b :: pq2) t.pq := (hp2.cons a).trans hp1
  have hmem : ∀ {j}, j ∈ b :: pq2 → j ∈ t.pq := fun hj => hperm.mem_iff.1 (List.mem_cons_of_mem _ hj)
  have hweight : ∀ {i}, i ∈ t.pq → (nodeAt t.nodes i).weight = (treeAt t.nodes i).weight T := fun hm =>
    hi.weight_treeAt hT _ (hi.queue_lt hm)
  have hla : ∀ j ∈ b :: pq2, (treeAt t.nodes a).weight T ≤ (treeAt t.nodes j).weight T := fun j hj => by
    rw [← hweight (hperm.mem_iff.1 (by simp)), ← hweight (hmem hj)]
    exact popLeast_weight hr ha j (hmem hj)
  have hlb : ∀ j ∈ pq2, (treeAt t.nodes b).weight T ≤ (treeAt t.nodes j).weight T := fun j hj => by
    rw [← hweight (hmem (by simp)), ← hweight (hmem (List.mem_cons_of_mem _ hj))]
    exact popLeast_weight hr hb j (hp2.mem_iff.1 (List.mem_cons_of_mem _ hj))
  have hF : (t.pq.map (treeAt t.nodes) : Multiset SymTree) =
      treeAt t.nodes a ::ₘ treeAt t.nodes b ::ₘ (pq2.map (treeAt t.nodes) : Multiset SymTree) :=
    Multiset.coe_eq_coe.2 (hperm.map _).symm
  have hF' : (pq2.map (treeAt t.nodes) ++ [.node (treeAt t.nodes a) (treeAt t.nodes b)] : List SymTree) =
      SymTree.node (treeAt t.nodes a) (treeAt t.nodes b) ::ₘ (pq2.map (treeAt t.nodes) : Multiset SymTree) :=
    Multiset.coe_eq_coe.2 List.perm_append_comm
  rw [treeAt_merged hi ha hb, hF']
  rw [hF] at h
  exact h.merged (by simpa using hla) (by simpa using hlb)

/-- The built tree costs no more than any full binary tree of the keys, whichever way the order breaks ties (42_treebuilder.md R181). -/
theorem buildTree_cost_le {lt : TieOrder} (hr : RefinesWeight lt) {T : FreqTable} (hT : symWf T) (h0 : 0 < distinct T) {u : SymTree}
    (hu : List.Perm u.leaves (T.map Prod.fst)) : (treeAt (buildTree lt T).nodes (buildTree lt T).root).cost T 0 ≤ u.cost T 0 := by
  obtain ⟨t, r, hi, ⟨N, D, -, -, hc⟩, hq, he⟩ := buildTree_induct (lt := lt) (T := T)
    (P := fun t => CompletesWithin T (t.pq.map (treeAt t.nodes)) (u.cost T 0)) h0
    (by rw [plantLeaves_trees]; exact completesWithin_leaves hu)
    (fun t a b pq1 pq2 hi hP ha hb => hP.mergeStep hr hT hi ha hb)
  rw [he]
  rw [hq] at hc
  simpa using Nat.le_trans (Nat.le_add_left _ _) hc

/-- Settles O34: the codes' cost is that of the tree under the root, which no full binary tree of the keys undercuts. -/
theorem builtTreeHasLeastCost : Obligations.BuiltTreeHasLeastCost := by
  unfold Obligations.BuiltTreeHasLeastCost
  intro lt T hr hT h2
  obtain ⟨u, hu, hleaves, -, hcodes, -, -⟩ := deriveCodes_buildTree lt hT h2
  have hcost : codedBits T (deriveCodes (buildTree lt T)) = u.cost T 0 := by rw [hcodes, codedBits_recordCodes hT.1 hleaves]
  refine ⟨buildTree_ok lt hT, ?_, ⟨u, hleaves, hcost.symm⟩, fun v hv => ?_⟩
  · obtain ⟨t, r, hi, -, he, -⟩ := buildTree_shape lt (T := T) (by omega)
    rw [he]
    exact hi.leavesOf_nodes
  · rw [hcost, ← hu]
    exact buildTree_cost_le hr hT.1 (by omega) hv

end Sys2Proof.Machine
end

section
/-! PROOFS. The tree builder of 42_treebuilder.md: what TB_BUILD leaves, the order PopLeast and the children follow, and the values of
TIE_ORDER against the admissible orders. -/

namespace Sys2Proof.Machine

open Sys2Proof

/-! ### PopLeast and the children -/

theorem popLeast_eq_none_iff {lt : TieOrder} {nodes : List Node} {pq : List Nat} : popLeast lt nodes pq = none ↔ pq = [] := by
  refine ⟨fun h => ?_, fun h => by rw [h, popLeast_nil]⟩
  by_contra hne
  obtain ⟨a, rest, hs⟩ := popLeast_isSome (lt := lt) (nodes := nodes) hne
  rw [h] at hs
  cases hs

/-- Every TIE_ORDER of a machine puts no index left in the queue before the one popped (42_treebuilder.md R176, R177). -/
theorem popLeast_tieOrderFor {c : Config.TieRanks} {T : FreqTable} {nodes : List Node} {pq : List Nat} {a : Nat} {rest : List Nat}
    (h : popLeast (tieOrderFor c T) nodes pq = some (a, rest)) :
    ∀ j ∈ rest, tieOrderFor c T (nodeAt nodes j) (nodeAt nodes a) = false := by
  obtain ⟨ranks, hranks⟩ := tieOrderFor_cases c T
  rw [hranks] at h ⊢
  exact fun j hj => popLeast_ranked h j ((popLeast_perm h).mem_iff.1 (List.mem_cons_of_mem _ hj))

theorem defaultOrder_false (x y : Node) :
    defaultOrder x y = false ↔ y.weight < x.weight ∨ (y.weight = x.weight ∧ y.oid ≤ x.oid) := by
  rw [← Bool.not_eq_true, defaultOrder_true]
  omega

/-- Settles O29: the three parts are what PopLeast is known to answer, and the default order written out. -/
theorem popLeastReturnsTheLeast : Obligations.PopLeastReturnsTheLeast := by
  unfold Obligations.PopLeastReturnsTheLeast
  intro c T nodes pq
  refine ⟨popLeast_eq_none_iff, fun a rest h => ⟨popLeast_perm h, popLeast_tieOrderFor h, ?_⟩⟩
  rintro rfl j hj
  exact (defaultOrder_false _ _).1 (popLeast_tieOrderFor h j hj)

/-- Two nodes of different oid are always ordered by a TIE_ORDER of a machine. -/
theorem tieOrderFor_total (c : Config.TieRanks) (T : FreqTable) {x y : Node} (h : x.oid ≠ y.oid) :
    tieOrderFor c T x y = true ∨ tieOrderFor c T y x = true := by
  obtain ⟨ranks, hranks⟩ := tieOrderFor_cases c T
  rw [hranks]
  exact rankedOrder_total ranks h

/-- No index is queued twice. -/
theorem MergeInv.queue_nodup {T : FreqTable} {t : TreeUnit} (h : MergeInv T t) : t.pq.Nodup :=
  (List.nodup_append.1 (h.owned.nodup_iff.2 List.nodup_range)).1

/-- The left child of every internal node of the arena goes before the right one. -/
abbrev ChildrenOrdered (lt : TieOrder) (nodes : List Node) : Prop :=
  ∀ n ∈ nodes, n.leaf = false → lt (nodeAt nodes n.left) (nodeAt nodes n.right) = true

theorem childrenOrdered_planted (lt : TieOrder) (T : FreqTable) : ChildrenOrdered lt (plantLeaves T).nodes := by
  intro n hn hl
  obtain ⟨e, -, rfl⟩ := List.mem_map.1 hn
  cases hl

/-- One turn of the merge loop keeps the children in order: the first popped goes before the second (42_treebuilder.md R178). -/
theorem ChildrenOrdered.mergeStep {c : Config.TieRanks} {T : FreqTable} (hT : symWf T) {t : TreeUnit} {a b : Nat} {pq1 pq2 : List Nat}
    (h : ChildrenOrdered (tieOrderFor c T) t.nodes) (hi : MergeInv T t)
    (ha : popLeast (tieOrderFor c T) t.nodes t.pq = some (a, pq1)) (hb : popLeast (tieOrderFor c T) t.nodes pq1 = some (b, pq2)) :
    ChildrenOrdered (tieOrderFor c T) (mergeStep t a b pq2).nodes := by
  have hpa := popLeast_perm ha
  have hb1 : b ∈ pq1 := (popLeast_perm hb).mem_iff.1 (by simp)
  have hab : a ≠ b := fun he => (List.nodup_cons.1 (hpa.nodup_iff.2 hi.queue_nodup)).1 (he ▸ hb1)
  have halt : a < t.nodes.length := hi.queue_lt (hpa.mem_iff.1 (by simp))
  have hblt : b < t.nodes.length := hi.queue_lt (hpa.mem_iff.1 (List.mem_cons_of_mem _ hb1))
  intro n hn hl
  show tieOrderFor c T (nodeAt (t.nodes ++ _) _) (nodeAt (t.nodes ++ _) _) = true
  rcases List.mem_append.1 hn with hn | hn
  · obtain ⟨i, hilt, rfl⟩ := List.mem_iff_getElem.1 hn
    rw [← nodeAt_of_lt hilt] at hn hl ⊢
    obtain ⟨hleft, hright, -⟩ := hi.internal i hilt hl
    rw [nodeAt_append_left _ (by omega), nodeAt_append_left _ (by omega)]
    exact h _ hn hl
  · obtain rfl := List.mem_singleton.1 hn
    show tieOrderFor c T (nodeAt (t.nodes ++ _) a) (nodeAt (t.nodes ++ _) b) = true
    rw [nodeAt_append_left _ halt, nodeAt_append_left _ hblt]
    exact (tieOrderFor_total c T fun ho => hab (hi.oid_injective hT halt hblt ho)).resolve_right
      (by simp [popLeast_tieOrderFor ha b hb1])

theorem childrenOrdered_buildTree (c : Config.TieRanks) {T : FreqTable} (hT : symWf T) :
    ChildrenOrdered (tieOrderFor c T) (buildTree (tieOrderFor c T) T).nodes := by
  rcases Nat.eq_zero_or_pos (distinct T) with h0 | h0
  · obtain rfl : T = [] := List.eq_nil_of_length_eq_zero h0
    exact fun n hn => (List.not_mem_nil hn).elim
  · obtain ⟨t, r, -, hP, -, he⟩ := buildTree_induct (P := fun t => ChildrenOrdered (tieOrderFor c T) t.nodes) h0
      (childrenOrdered_planted _ T) fun t a b pq1 pq2 hi hP ha hb => hP.mergeStep hT hi ha hb
    rw [he]
    exact hP

/-- An order that refines weight puts no heavier node first. -/
theorem weight_le_of_lt {lt : TieOrder} (hr : RefinesWeight lt) {x y : Node} (h : lt x y = true) : x.weight ≤ y.weight := by
  by_contra hlt
  rw [(hr y x (Nat.lt_of_not_le hlt)).2] at h
  cases h

/-- Settles O30: the children of every merge are in the order they were popped in. -/
theorem leftChildIsTheLesser : Obligations.LeftChildIsTheLesser := by
  unfold Obligations.LeftChildIsTheLesser
  intro c T hT t i hi hl
  have hlt := childrenOrdered_buildTree c hT.1 (nodeAt t.nodes i) (nodeAt_mem hi) hl
  refine ⟨hlt, weight_le_of_lt (tieOrderFor_refinesWeight c T) hlt, ?_⟩
  rintro rfl
  exact (defaultOrder_true _ _).1 hlt

/-! ### TB_BUILD -/

/-- Settles O28: TB_BUILD leaves the tree of the table, and every built tree has the shape its merges give it. -/
theorem treeBuildGivesAFullBinaryTree : Obligations.TreeBuildGivesAFullBinaryTree := by
  unfold Obligations.TreeBuildGivesAFullBinaryTree
  intro s hs hT
  refine ⟨_, exec_tbBuild hs, finish_endedOk _ ⟨rfl, rfl, rfl, rfl⟩, rfl, rfl, treeOf_ok s.params hT, buildTree_present _ s.ft,
    fun h0 => ?_, rfl, rfl, rfl, rfl, rfl⟩
  rw [finish_tb]
  obtain ⟨t, r, hi, hq, he, hm, hl, hr⟩ := buildTree_shape (tieOrderFor s.params.tieRanks s.ft) h0
  rw [treeOf, he]
  refine ⟨hl, hr, hm, fun i e hie => hi.leaf_at hie, fun k hk => ?_, ?_⟩
  · obtain ⟨hleaf, -, hoid⟩ := hi.internal_at (hm ▸ hk)
    exact ⟨hleaf, hoid⟩
  · have hw := hi.queue_weight
    rw [hq] at hw
    simpa using hw

/-! ### Two keys -/

theorem popLeast_two (lt : TieOrder) (nodes : List Node) (i j : Nat) :
    popLeast lt nodes [i, j] = some (if lt (nodeAt nodes j) (nodeAt nodes i) then (j, [i]) else (i, [j])) := by
  simp only [popLeast]
  split <;> rfl

/-- The tree of two keys has one merge, its children in the order the two leaves are popped. -/
theorem buildTree_two_keys (lt : TieOrder) (e f : Byte × Nat) :
    buildTree lt [e, f] =
      { nodes := [leafNode e, leafNode f,
          if lt (leafNode f) (leafNode e) then mergeNode [leafNode e, leafNode f] 1 0 0 else mergeNode [leafNode e, leafNode f] 0 1 0],
        present := true, root := 2, merges := 1, pq := [] } := by
  have hpop : popLeast lt (plantLeaves [e, f]).nodes (plantLeaves [e, f]).pq =
      some (if lt (leafNode f) (leafNode e) then (1, [0]) else (0, [1])) := popLeast_two lt [leafNode e, leafNode f] 0 1
  rw [buildTree, if_neg (by simp)]
  simp only [distinct_cons, distinct_nil, mergeLoop, hpop]
  cases lt (leafNode f) (leafNode e) <;> rfl

/-- The codes of two keys: the leaf the order puts first gets 0, the other 1 (43_codetable_stats.md R191). -/
theorem deriveCodes_two_keys (lt : TieOrder) (e f : Byte × Nat) :
    deriveCodes (buildTree lt [e, f]) =
      recordCodes (if lt (leafNode f) (leafNode e) then [(f.1, [false]), (e.1, [true])] else [(e.1, [false]), (f.1, [true])]) := by
  rw [buildTree_two_keys]
  cases lt (leafNode f) (leafNode e) <;> rfl

theorem ctBits_recordCodes_pair {a b : Byte} (h : a ≠ b) :
    ctBits (recordCodes [(a, [false]), (b, [true])]) a = [false] ∧ ctBits (recordCodes [(a, [false]), (b, [true])]) b = [true] := by
  have hn : ([(a, [false]), (b, [true])].map (Prod.fst : Byte × Bits → Byte)).Nodup := by simpa using h
  exact ⟨ctBits_recordCodes hn (e := (a, [false])) (by simp), ctBits_recordCodes hn (e := (b, [true])) (by simp)⟩

/-- Settles O31: the codes follow the order of the two leaves, which their weights decide, or under the default order their symbols. -/
theorem twoKeysGetCodesByCount : Obligations.TwoKeysGetCodesByCount := by
  unfold Obligations.TwoKeysGetCodesByCount
  intro s s1 s2 c1 c2 hs hlt hft
  have hne : s1 ≠ s2 := fun he => Nat.ne_of_lt hlt (congrArg BitVec.toNat he)
  have hr := tieOrderFor_refinesWeight s.params.tieRanks s.ft
  rw [execAll_cons_next (exec_tbBuild hs), execAll_cons_next (exec_ctDerive (by simp))]
  refine ⟨_, rfl, ?_⟩
  rw [finish_ct, finish_tb, treeOf]
  rw [hft] at hr ⊢
  rw [deriveCodes_two_keys]
  refine ⟨fun h => ?_, fun h => ?_⟩
  · have hfirst : tieOrderFor s.params.tieRanks [(s1, c1), (s2, c2)] (leafNode (s2, c2)) (leafNode (s1, c1)) = false := by
      rcases h with h | ⟨rfl, hc⟩
      · exact (hr (leafNode (s1, c1)) (leafNode (s2, c2)) h).2
      · rw [hc]
        exact (defaultOrder_false _ _).2 (.inr ⟨rfl, Nat.le_of_lt hlt⟩)
    rw [hfirst]
    exact ctBits_recordCodes_pair hne
  · rw [(hr (leafNode (s2, c2)) (leafNode (s1, c1)) h).1]
    exact (ctBits_recordCodes_pair hne.symm).symm

/-! ### The values of TIE_ORDER -/

/-- Settles O56: a ranked order is strict, and total on the nodes of a build by their distinct oids. -/
theorem everyTieOrderIsAdmissible : Obligations.EveryTieOrderIsAdmissible := by
  unfold Obligations.EveryTieOrderIsAdmissible
  refine ⟨fun c T hT => ⟨tieOrderFor_refinesWeight c T, ?_, ?_, fun i hi j hj hij => ?_⟩, fun T x y => defaultOrder_true x y⟩
  · obtain ⟨ranks, hranks⟩ := tieOrderFor_cases c T
    rw [hranks]
    exact fun x _ => rankedOrder_irrefl ranks x
  · obtain ⟨ranks, hranks⟩ := tieOrderFor_cases c T
    rw [hranks]
    exact fun x _ y _ z _ => rankedOrder_trans
  · exact tieOrderFor_total c T fun ho => hij (buildTree_oid_injective _ hT.1 hi hj ho)

/-- A node's rank in a build: how many nodes the order puts before it. -/
def rankIn (lt : TieOrder) (nodes : List Node) (x : Node) : Nat := nodes.countP fun y => lt y x

/-- The ranks of a build by oid, the form in which the parameter gives an order (log 12). -/
def ranksOf (lt : TieOrder) (nodes : List Node) : List Nat :=
  (List.range 511).map fun o => (nodes.find? fun x => x.oid == o).elim 0 (rankIn lt nodes)

theorem countP_lt_countP {α : Type} {l : List α} {p q : α → Bool} (hpq : ∀ y ∈ l, p y = true → q y = true) {x : α} (hx : x ∈ l)
    (hp : p x = false) (hq : q x = true) : l.countP p < l.countP q := by
  obtain ⟨l₁, l₂, rfl⟩ := List.append_of_mem hx
  have h1 : l₁.countP p ≤ l₁.countP q := List.countP_mono_left fun y hy => hpq y (by simp [hy])
  have h2 : l₂.countP p ≤ l₂.countP q := List.countP_mono_left fun y hy => hpq y (by simp [hy])
  simp only [List.countP_append, List.countP_cons, hp, hq, if_true, Bool.false_eq_true, if_false]
  omega

section
variable {lt : TieOrder} {nodes : List Node} {x y : Node}

/-- Under a strict total order the rank grows from a node to the ones after it. -/
theorem rankIn_lt (h : StrictTotalOn lt nodes) (hx : x ∈ nodes) (hy : y ∈ nodes) (hxy : lt x y = true) :
    rankIn lt nodes x < rankIn lt nodes y := by
  obtain ⟨hirrefl, htrans, -⟩ := h
  exact countP_lt_countP (fun z hz hzx => htrans z hz x hx y hy hzx hxy) hx (hirrefl x hx) hxy

theorem StrictTotalOn.total (h : StrictTotalOn lt nodes) (hx : x ∈ nodes) (hy : y ∈ nodes) (hne : x ≠ y) :
    lt x y = true ∨ lt y x = true := by
  obtain ⟨i, hi, rfl⟩ := List.mem_iff_getElem.1 hx
  obtain ⟨j, hj, rfl⟩ := List.mem_iff_getElem.1 hy
  rw [← nodeAt_of_lt hi, ← nodeAt_of_lt hj] at hne ⊢
  exact h.2.2 i hi j hj fun hij => hne (by rw [hij])

variable (hoid : ∀ x ∈ nodes, ∀ y ∈ nodes, x.oid = y.oid → x = y) (hrange : ∀ x ∈ nodes, x.oid ≤ 510)
include hoid hrange

/-- With distinct oids in range the list of ranks gives each node its own. -/
theorem getD_ranksOf (hx : x ∈ nodes) : (ranksOf lt nodes).getD x.oid 0 = rankIn lt nodes x := by
  obtain ⟨z, hz⟩ := Option.isSome_iff_exists.1 (List.find?_isSome.2 ⟨x, hx, beq_self_eq_true x.oid⟩ :
    (nodes.find? fun z => z.oid == x.oid).isSome = true)
  have hzx : z = x := hoid z (List.mem_of_find?_eq_some hz) x hx (by simpa using List.find?_some hz)
  have hlt : x.oid < 511 := Nat.lt_succ_of_le (hrange x hx)
  simp [ranksOf, List.getD_eq_getElem?_getD, hlt, hz, hzx]

/-- The ranks of a build make the order again, on its nodes. -/
theorem rankedOrder_ranksOf (hr : RefinesWeight lt) (h : StrictTotalOn lt nodes) (hx : x ∈ nodes) (hy : y ∈ nodes) :
    rankedOrder (ranksOf lt nodes) x y = lt x y := by
  have hfirst : ∀ x ∈ nodes, ∀ y ∈ nodes, lt x y = true → rankedOrder (ranksOf lt nodes) x y = true := fun x hx y hy hxy => by
    rw [rankedOrder_true, getD_ranksOf hoid hrange hx, getD_ranksOf hoid hrange hy]
    have := rankIn_lt h hx hy hxy
    have := weight_le_of_lt hr hxy
    omega
  cases hxy : lt x y with
  | true => exact hfirst x hx y hy hxy
  | false =>
    by_cases hne : x = y
    · rw [hne, rankedOrder_irrefl]
    · have hyx := hfirst y hy x hx ((h.total hx hy hne).resolve_left (by simp [hxy]))
      rw [← Bool.not_eq_true]
      intro hcon
      simpa [rankedOrder_irrefl] using rankedOrder_trans hcon hyx

end

/-- An admissible order and the ranks of its build make the same tree. -/
theorem buildTree_ranksOf {lt : TieOrder} {T : FreqTable} (hT : FreqOk T) (h : Admissible lt T) :
    buildTree (rankedOrder (ranksOf lt (buildTree lt T).nodes)) T = buildTree lt T := by
  obtain ⟨hr, htotal⟩ := h
  obtain ⟨-, -, ⟨-, hfields⟩, -⟩ := buildTree_ok lt hT
  have hoid : ∀ x ∈ (buildTree lt T).nodes, ∀ y ∈ (buildTree lt T).nodes, x.oid = y.oid → x = y := by
    intro x hx y hy ho
    obtain ⟨i, hi, rfl⟩ := List.mem_iff_getElem.1 hx
    obtain ⟨j, hj, rfl⟩ := List.mem_iff_getElem.1 hy
    rw [← nodeAt_of_lt hi, ← nodeAt_of_lt hj] at ho ⊢
    rw [buildTree_oid_injective lt hT.1 hi hj ho]
  exact (buildTree_congr fun x hx y hy =>
    (rankedOrder_ranksOf hoid (fun x hx => (hfields x hx).2.2.2) hr htotal hx hy).symm).symm

/-- Ranks given by a function of the table serve every table listed. -/
theorem tieOrderFor_map {ranks : FreqTable → List Nat} {Ts : List FreqTable} {T : FreqTable} (h : T ∈ Ts) :
    tieOrderFor (Ts.map fun U => (U, ranks U)) T = rankedOrder (ranks T) := by
  induction Ts with
  | nil => cases h
  | cons U Ts ih =>
    rw [List.map_cons, tieOrderFor_cons]
    by_cases hU : U = T
    · rw [if_pos hU, hU]
    · rw [if_neg hU]
      exact ih ((List.mem_cons.1 h).resolve_left (Ne.symm hU))

/-- Settles O57: the parameter lists, for each table, the ranks of the nodes in the build under its order. -/
theorem everyAdmissibleOrderIsATieOrder : Obligations.EveryAdmissibleOrderIsATieOrder := by
  unfold Obligations.EveryAdmissibleOrderIsATieOrder
  intro lt Ts h
  refine ⟨Ts.map fun T => (T, ranksOf (lt T) (buildTree (lt T) T).nodes), fun T hT p hp => ?_⟩
  obtain ⟨hok, hadm⟩ := h T hT
  rw [treeOf, hp, tieOrderFor_map hT, buildTree_ranksOf hok hadm]

end Sys2Proof.Machine
end

section
/-! PROOFS. The codes and the statistics of 43_codetable_stats.md: the derived codes are the paths of one full binary tree, and the
exact values the three statistics present. -/

namespace Sys2Proof.Machine

open Sys2Proof

/-! ### The codes of a built tree -/

/-- With each symbol listed once, recording only sorts the list. -/
theorem recordCodes_perm {L : List (Byte × Bits)} (hn : (L.map Prod.fst).Nodup) : List.Perm (recordCodes L) L :=
  (List.perm_ext_iff_of_nodup (List.Nodup.of_map _ (symWf_keys_nodup (symWf_recordCodes L))) (List.Nodup.of_map _ hn)).2
    (mem_recordCodes hn)

/-- No two paths of a tree begin the same infinite sequence (43_codetable_stats.md R193). -/
theorem SymTree.path_unique {u : SymTree} {f : Nat → Bool} {e e' : Byte × Bits} (he : e ∈ u.paths) (he' : e' ∈ u.paths)
    (hb : BeginsWith f e.2) (hb' : BeginsWith f e'.2) : e' = e := by
  by_contra hne
  rcases Nat.le_total e'.2.length e.2.length with hle | hle
  · exact not_prefix_of_ne he' he hne (prefix_of_beginsWith hb' hb hle)
  · exact not_prefix_of_ne he he' (Ne.symm hne) (prefix_of_beginsWith hb hb' hle)

/-- A single key is never merged: its leaf is the root, with the code 0 (43_codetable_stats.md R192). -/
theorem deriveCodes_one_key (lt : TieOrder) (e : Byte × Nat) : deriveCodes (buildTree lt [e]) = [(e.1, [false])] := rfl

/-- Settles O33: the codes are the paths of the tree under the root, whose leaves are the keys. -/
theorem treeCodesAreACompletePrefixCode : Obligations.TreeCodesAreACompletePrefixCode := by
  unfold Obligations.TreeCodesAreACompletePrefixCode
  intro lt T hT
  refine ⟨fun h2 => ?_, ?_⟩
  · obtain ⟨hwf, hlen, hprefix⟩ := codesOk_deriveCodes (buildTree_ok lt hT)
    obtain ⟨u, -, hleaves, -, hcodes, hn, hheight⟩ := deriveCodes_buildTree lt hT h2
    rw [hcodes] at hwf hlen hprefix ⊢
    have hperm := recordCodes_perm hn
    have hsize : distinct T ≤ 256 := symWf_length hT.1
    refine ⟨keys_eq_of_mem_iff hwf hT.1 fun b => ?_, fun e he => ⟨(hlen e he).1, ?_⟩, hprefix, fun f => ?_, ?_⟩
    · rw [recordCodes_keys, SymTree.paths_map_fst]
      exact hleaves.mem_iff
    · exact (SymTree.path_length_le_height (hperm.mem_iff.1 he)).trans hheight
    · obtain ⟨e, he, hb⟩ := u.paths_complete f
      exact ⟨e, hperm.mem_iff.2 he, hb, fun e' he' hb' => SymTree.path_unique he (hperm.mem_iff.1 he') hb hb'⟩
    · rw [(hperm.map _).sum_eq]
      exact u.kraft_sum 255 (by omega)
  · rintro e rfl
    refine ⟨deriveCodes_one_key lt e, fun f hf hb => ?_⟩
    have h0 := hb 0 Nat.one_pos
    simp [hf] at h0

/-- Settles O32: absent, a single leaf, or an internal root, under which the recorded paths are those of the arena's tree. -/
theorem derivedCodesAreTheLeafPaths : Obligations.DerivedCodesAreTheLeafPaths := by
  unfold Obligations.DerivedCodesAreTheLeafPaths
  intro s hs ht
  refine ⟨_, exec_ctDerive hs, finish_endedOk _ ⟨rfl, rfl, rfl, rfl⟩, codesOk_deriveCodes ht, deriveCodes_absent, deriveCodes_single,
    fun hp hl => ?_, rfl, rfl, rfl, rfl, rfl⟩
  have hheight := height_of_treeOk ht hp
  obtain ⟨-, -, -, -, hpresent⟩ := ht
  obtain ⟨hfull, -⟩ := hpresent hp
  have hc := childrenBefore_of_internal hfull.2.2
  have hcodes : deriveCodes s.tb = recordCodes (treeAt s.tb.nodes s.tb.root).paths :=
    deriveCodes_eq hp hc hfull.1 hl hheight
  rw [finish_ct, hcodes]
  refine ⟨fun b => ?_, fun e he => ?_⟩
  · rw [← leaves_of_fullTree hfull b, ← SymTree.paths_map_fst, ← recordCodes_keys]
    simp
  · obtain ⟨-, hleaf, hsym, hway⟩ := followPath_of_path hc s.tb.root hfull.1 (mem_of_mem_recordCodes he)
    exact ⟨hleaf, hsym, hway⟩

/-! ### The values of the statistics -/

section
variable {T : FreqTable} {C : CodeTable}

/-- Skipping the counts of 0 leaves the total (43_codetable_stats.md R195). -/
theorem sum_positiveCounts (T : FreqTable) : (positiveCounts T).sum = total T := by
  induction T with
  | nil => rfl
  | cons e T ih =>
    rw [total_cons, ← ih]
    by_cases h : 0 < e.2
    · simp [positiveCounts, h]
    · simp [positiveCounts, Nat.eq_zero_of_not_pos h]

theorem tableEntropy_of_total_zero (h : total T = 0) : tableEntropy T = zeroNum := if_pos h

theorem tableEntropy_of_total_ne_zero (h : total T ≠ 0) : tableEntropy T = .entropy (positiveCounts T) := if_neg h

theorem averageLength_of_total_zero (h : total T = 0) : averageLength T C = zeroNum := if_pos h

/-- The average length as one quotient: at total 0 the division by 0 is the zero the rule asks for (43_codetable_stats.md R197). -/
theorem averageLength_toReal (T : FreqTable) (C : CodeTable) : (averageLength T C).toReal = (codedBits T C : ℝ) / (total T : ℝ) := by
  unfold averageLength
  split
  · next h => simp [h]
  · rfl

/-- The efficiency is the rule's zero where L is 0 (43_codetable_stats.md R199). -/
theorem efficiencyOf_of_averageLength_zero (h : (averageLength T C).toReal = 0) : efficiencyOf T C = zeroNum := by
  rw [averageLength_toReal, div_eq_zero_iff, Nat.cast_eq_zero, Nat.cast_eq_zero] at h
  unfold efficiencyOf
  rcases h with hbits | htotal
  · rw [if_pos hbits, ite_self]
  · rw [if_pos htotal]

theorem efficiencyOf_toReal (h : (averageLength T C).toReal ≠ 0) :
    (efficiencyOf T C).toReal = 100 * (tableEntropy T).toReal / (averageLength T C).toReal := by
  rw [averageLength_toReal] at h ⊢
  have hbits : codedBits T C ≠ 0 := fun h0 => h (by simp [h0])
  have htotal : total T ≠ 0 := fun h0 => h (by simp [h0])
  rw [efficiencyOf, if_neg htotal, if_neg hbits, tableEntropy_of_total_ne_zero htotal]
  rfl

end

/-- Settles O35: the counts skipped add nothing to the total, so p is taken over the same divisor. -/
theorem entropyIsTheSumOverPositiveCounts : Obligations.EntropyIsTheSumOverPositiveCounts := by
  unfold Obligations.EntropyIsTheSumOverPositiveCounts
  intro s hs
  refine ⟨_, exec_stEntropy hs, finish_endedOk _ ⟨rfl, rfl, rfl, rfl⟩, fun h0 => ?_, fun hpos => ?_, rfl, rfl, rfl, rfl, rfl, rfl⟩
  · rw [finish_res, tableEntropy_of_total_zero h0]
    exact ⟨rfl, toReal_zeroNum⟩
  · rw [finish_res, tableEntropy_of_total_ne_zero (Nat.ne_of_gt hpos)]
    simp only [ExactNum.toReal, entropyReal, sum_positiveCounts]
    rw [positiveCounts, List.filter_map, List.map_map]
    rfl

/-- A key without a code adds nothing to the coded bits (43_codetable_stats.md R197). -/
theorem codedBits_eq_sum_filter (T : FreqTable) (C : CodeTable) :
    codedBits T C = ((T.filter fun e => decide (0 < ctLen C e.1)).map fun e => e.2 * ctLen C e.1).sum := by
  induction T with
  | nil => rfl
  | cons e T ih =>
    have hcons : codedBits (e :: T) C = e.2 * ctLen C e.1 + codedBits T C := by simp [codedBits]
    rw [hcons, ih]
    by_cases h : 0 < ctLen C e.1
    · simp [h]
    · simp [Nat.eq_zero_of_not_pos h]

/-- Settles O36: the keys without a code drop out of the sum, and the divisor is the whole table's total. -/
theorem averageLengthIsWeightedByCounts : Obligations.AverageLengthIsWeightedByCounts := by
  unfold Obligations.AverageLengthIsWeightedByCounts
  intro s hs
  refine ⟨_, exec_stAvglen hs, finish_endedOk _ ⟨rfl, rfl, rfl, rfl⟩, fun h0 => ?_, fun _ => ?_, rfl, rfl, rfl, rfl, rfl, rfl⟩
  · rw [finish_res, averageLength_of_total_zero h0]
    exact ⟨rfl, toReal_zeroNum⟩
  · rw [finish_res, averageLength_toReal, codedBits_eq_sum_filter]

/-- Settles O37: split on whether the average length of the same tables is 0. -/
theorem efficiencyIsEntropyOverAverageLength : Obligations.EfficiencyIsEntropyOverAverageLength := by
  unfold Obligations.EfficiencyIsEntropyOverAverageLength
  intro s hs
  refine ⟨_, _, _, exec_stEntropy hs, exec_stAvglen hs, exec_stEff hs, finish_endedOk _ ⟨rfl, rfl, rfl, rfl⟩, fun h0 => ?_,
    efficiencyOf_toReal, rfl, rfl, rfl, rfl, rfl, rfl⟩
  rw [finish_res, efficiencyOf_of_averageLength_zero h0]
  exact ⟨rfl, toReal_zeroNum⟩

/-! ### The entropy against the average length -/

/-- Two weights under one node: x · log2 x at the sum exceeds the two values by no more than the sum, by convexity at the midpoint. -/
theorem mul_logb_add_le {a b : ℝ} (ha : 0 ≤ a) (hb : 0 ≤ b) :
    (a + b) * Real.logb 2 (a + b) ≤ a * Real.logb 2 a + b * Real.logb 2 b + (a + b) := by
  rcases (add_nonneg ha hb).eq_or_lt with h0 | hpos
  · obtain ⟨rfl, rfl⟩ := (add_eq_zero_iff_of_nonneg ha hb).1 h0.symm
    simp
  · have hlog2 : 0 < Real.log 2 := Real.log_pos one_lt_two
    have hmid := Real.convexOn_mul_log.2 (Set.mem_Ici.2 ha) (Set.mem_Ici.2 hb) (half_pos one_pos).le (half_pos one_pos).le (add_halves 1)
    have hhalf : Real.log (1 / 2 * a + 1 / 2 * b) = Real.log (a + b) - Real.log 2 := by
      rw [← Real.log_div hpos.ne' two_ne_zero]
      congr 1
      ring
    simp only [smul_eq_mul, hhalf] at hmid
    simp only [Real.logb]
    field_simp
    linarith

/-- The entropy bound multiplied out by the weight, for every full binary tree: by induction on the tree, where each merge pays one bit
for each count under it (43_codetable_stats.md R198). -/
theorem SymTree.weight_mul_logb_le (T : FreqTable) (u : SymTree) :
    (u.weight T : ℝ) * Real.logb 2 (u.weight T) ≤
      ((u.leaves.map (ftCount T)).map fun c : Nat => (c : ℝ) * Real.logb 2 c).sum + (u.cost T 0 : ℝ) := by
  induction u with
  | leaf s => simp [weight, leaves]
  | node l r hl hr =>
    have hmerge := mul_logb_add_le (Nat.cast_nonneg (α := ℝ) (l.weight T)) (Nat.cast_nonneg (α := ℝ) (r.weight T))
    simp only [weight, leaves, cost, cost_succ, List.map_append, List.sum_append, Nat.cast_add]
    linarith

/-- The entropy by the counts themselves, p and its divisor multiplied out. -/
theorem sum_mul_entropyReal {counts : List Nat} (h : counts.sum ≠ 0) :
    (counts.sum : ℝ) * entropyReal counts + (counts.map fun c : Nat => (c : ℝ) * Real.logb 2 c).sum =
      (counts.sum : ℝ) * Real.logb 2 counts.sum := by
  have hN : (counts.sum : ℝ) ≠ 0 := Nat.cast_ne_zero.2 h
  have hterm : ∀ c : Nat, (counts.sum : ℝ) * (-((c : ℝ) / counts.sum) * Real.logb 2 ((c : ℝ) / counts.sum)) +
      (c : ℝ) * Real.logb 2 c = (c : ℝ) * Real.logb 2 counts.sum := by
    intro c
    rcases Nat.eq_zero_or_pos c with rfl | hc
    · simp
    · rw [Real.logb_div (by positivity) hN]
      field_simp
      ring
  rw [entropyReal, ← List.sum_map_mul_left, ← List.sum_map_add, List.map_congr_left fun c _ => hterm c, List.sum_map_mul_right,
    Nat.cast_list_sum]

theorem positiveCounts_of_pos {T : FreqTable} (h : ∀ e ∈ T, 0 < e.2) : positiveCounts T = T.map Prod.snd := by
  refine List.filter_eq_self.2 fun c hc => ?_
  obtain ⟨e, he, rfl⟩ := List.mem_map.1 hc
  exact decide_eq_true (h e he)

/-- The counts of the leaves of a tree of the keys are the table's. -/
theorem leaf_counts_perm {T : FreqTable} (hw : symWf T) {u : SymTree} (hu : List.Perm u.leaves (T.map Prod.fst)) :
    List.Perm (u.leaves.map (ftCount T)) (T.map Prod.snd) := by
  have hkeys : (T.map Prod.fst).map (ftCount T) = T.map Prod.snd := by
    rw [List.map_map]
    exact List.map_congr_left fun e he => ftCount_of_mem hw he
  exact hkeys ▸ hu.map (ftCount T)

/-- The entropy of a table is at most its average length under the codes of any full binary tree of its keys. -/
theorem tableEntropy_le_averageLength {T : FreqTable} (hw : symWf T) (hpos : ∀ e ∈ T, 0 < e.2) {u : SymTree}
    (hu : List.Perm u.leaves (T.map Prod.fst)) : (tableEntropy T).toReal ≤ (averageLength T (recordCodes u.paths)).toReal := by
  by_cases h0 : total T = 0
  · rw [tableEntropy_of_total_zero h0, toReal_zeroNum]
    exact toReal_nonneg _
  · have hcounts := leaf_counts_perm hw hu
    have hweight : u.weight T = total T := (u.weight_eq_sum T).trans hcounts.sum_eq
    have hcost := u.weight_mul_logb_le T
    rw [hweight, (hcounts.map _).sum_eq] at hcost
    have hentropy : (total T : ℝ) * entropyReal (T.map Prod.snd) +
        ((T.map Prod.snd).map fun c : Nat => (c : ℝ) * Real.logb 2 c).sum = (total T : ℝ) * Real.logb 2 (total T) :=
      sum_mul_entropyReal h0
    rw [averageLength_toReal, codedBits_recordCodes hw hu, tableEntropy_of_total_ne_zero h0, positiveCounts_of_pos hpos,
      ExactNum.toReal, le_div_iff₀' (Nat.cast_pos.2 (Nat.pos_of_ne_zero h0))]
    linarith

/-- Settles O38: the table's own codes are the paths of a full binary tree of its keys. -/
theorem entropyIsAtMostAverageLength : Obligations.EntropyIsAtMostAverageLength := by
  unfold Obligations.EntropyIsAtMostAverageLength
  intro lt s hs hT h2 hpos hct
  obtain ⟨u, -, hleaves, -, hcodes, -, -⟩ := deriveCodes_buildTree lt hT h2
  refine ⟨_, _, exec_stEntropy hs, exec_stAvglen hs, ?_⟩
  rw [finish_res, finish_res, hct, hcodes]
  exact tableEntropy_le_averageLength hT.1 hpos hleaves

/-! ### The port -/

/-- A statistic of value 0 is shown as a zero of the format, whichever (43_codetable_stats.md R196, 93_implementation_defined.md U9). -/
theorem isZero_of_resNumShows {F : Type} {N : Config.NumFormat F} {s : State} (h : s.res.num.toReal = 0) {x : F}
    (hx : resNumShows N s x) : N.isZero x := by
  rcases hx with rfl | ⟨-, -, hx⟩
  · rw [presentNum, h]
    exact N.num_zero
  · exact hx

/-- Settles O58: at total 0 all three statistics are the rule's zero, at L = 0 the efficiency is, and the rest holds of every exact
value. -/
theorem portShowsNumOfTheStatistic : Obligations.PortShowsNumOfTheStatistic := by
  unfold Obligations.PortShowsNumOfTheStatistic
  intro F N
  refine ⟨resNumShows_zeroNum rfl, fun s hs => ⟨_, _, _, exec_stEntropy hs, exec_stAvglen hs, exec_stEff hs, fun h0 => ?_, fun h0 => ?_,
    fun u _ => ⟨toReal_nonneg _, .inl rfl, fun hpos x => (resNumShows_of_ne_zero hpos.ne' x).1, fun h0 x => isZero_of_resNumShows h0,
      fun v _ => N.num_mono _ _ (toReal_nonneg _)⟩⟩⟩
  · have hl : averageLength s.ft s.ct = zeroNum := averageLength_of_total_zero h0
    simp only [List.forall_mem_cons]
    exact ⟨resNumShows_zeroNum (tableEntropy_of_total_zero h0), resNumShows_zeroNum hl,
      resNumShows_zeroNum (efficiencyOf_of_averageLength_zero (by rw [hl, toReal_zeroNum])), by simp⟩
  · exact resNumShows_zeroNum (efficiencyOf_of_averageLength_zero h0)

end Sys2Proof.Machine
end

section
/-! PROOFS. OR_COMPRESS (44_orchestrator.md R211 to R216): its blob on data of one symbol and of several, and the commands a host would
issue for the same blob (R230). -/

namespace Sys2Proof.Machine

open Sys2Proof

/-! ### The blob of one symbol -/

theorem buildTable_replicate (n : Nat) (b : Byte) : buildTable (List.replicate (n + 1) b) = [(b, n + 1)] := by
  refine freqTable_ext (symWf_buildTable _) (by simp [symWf]) (fun k => ?_) fun k hk => ?_
  · rw [ftPresent_buildTable, ftPresent_iff]
    simp
  · have hkb : k = b := List.eq_of_mem_replicate ((ftPresent_buildTable _ k).1 hk)
    rw [hkb, ftCount_buildTable, List.count_replicate_self]
    simp [ftCount, symFind_cons]

/-- The metadata of one key (30_encoding.md R95). -/
theorem metadata_singleton (b : Byte) (c : Nat) : metadata [(b, c)] = [0, 1, b] ++ beBytes 8 c := by
  simp [metadata, countBytes, entryBytes, beBytes]

/-- Settles O40: the table of the data is the one key, and its metadata is the whole blob. -/
theorem compressOfOneSymbol : Obligations.CompressOfOneSymbol := by
  unfold Obligations.CompressOfOneSymbol
  intro s b n hin hmax hn
  have hT : buildTable s.argIn = [(b, n + 1)] := by rw [hin, buildTable_replicate]
  have hlen : s.argIn.length ≤ s.params.maxInputLen := by rwa [hin, List.length_replicate]
  obtain ⟨t, he, hok, -, hout, hcount, hsingle, hbw, hbr, hft, htb, hct, horch⟩ :=
    execOrCompress_single hlen (by rw [hT]; rfl)
  rw [hT, metadata_singleton] at hout hbw
  rw [hT] at hft
  refine ⟨t, he, hok, ?_, ?_, ?_, hcount, hsingle, hft, htb, hct, hbr, by rw [hbw, hout], by rw [horch]; rfl, by rw [horch]; rfl⟩
  · simp [hout]
  · rw [hout]; rfl
  · rw [hout]; exact freqField_beBytes hn

/-! ### The blob of several symbols -/

/-- Every key of a canonical table has a code of at least one bit, however large its counts: the path to its leaf under an internal
root. -/
theorem ctLen_pos_of_wf (p : Config.Params) {T : FreqTable} (hw : symWf T) (h2 : 2 ≤ distinct T) {b : Byte}
    (hb : ftPresent T b = true) : 1 ≤ ctLen (deriveCodes (treeOf p T)) b := by
  have hpos : 0 < distinct T := by omega
  have hleaves := buildTree_leaves (tieOrderFor p.tieRanks T) hpos
  have hpres := (buildTree_present (tieOrderFor p.tieRanks T) T).2 hpos
  obtain ⟨t, r, hi, -, he, -, hlen, hr⟩ := buildTree_shape (tieOrderFor p.tieRanks T) hpos
  rw [treeOf]
  rw [he] at hleaves hpres ⊢
  have hroot : r < t.nodes.length := by omega
  have hinternal : (nodeAt t.nodes r).leaf = false := by
    have : ¬ r < distinct T := by omega
    rwa [← hi.leaf_iff hroot, Bool.not_eq_true] at this
  have hheight : (treeAt t.nodes r).height ≤ 255 := by
    have hlt := (treeAt t.nodes r).height_lt_leaves
    have hsize := symWf_length hw
    rw [hleaves.length_eq, List.length_map] at hlt
    omega
  have hnodup : ((treeAt t.nodes r).paths.map Prod.fst).Nodup := by
    rw [SymTree.paths_map_fst]
    exact hleaves.nodup_iff.2 (symWf_keys_nodup hw)
  have hkey : b ∈ (treeAt t.nodes r).paths.map Prod.fst := by
    rw [SymTree.paths_map_fst]
    exact hleaves.mem_iff.2 ((ftPresent_iff T b).1 hb)
  obtain ⟨e, hpath, rfl⟩ := List.mem_map.1 hkey
  rw [ctLen, deriveCodes_eq hpres hi.childrenBefore hroot hinternal hheight, ctBits_recordCodes hnodup hpath]
  rw [treeAt_node hi.childrenBefore hroot hinternal] at hpath
  exact SymTree.path_length_pos hpath

/-- Settles O41: the phases leave table, tree and codes, the writer holds the metadata and the packed payload, and every byte of the data
is a key. -/
theorem compressOfSeveralSymbols : Obligations.CompressOfSeveralSymbols := by
  unfold Obligations.CompressOfSeveralSymbols
  intro s h2 hlen
  have hw := symWf_buildTable s.argIn
  have hsize : distinct (buildTable s.argIn) ≤ 256 := symWf_length hw
  obtain ⟨t, he, hok, -, hout, hcount, hsingle, hbw, hbr, hft, htb, hct, horch⟩ := execOrCompress_several hlen h2
  rw [flush_writePayload] at hout hbw
  rw [← htb] at hout hbw hct
  rw [← hct] at hout hbw
  rw [← hft] at htb hw hsize hcount hout hbw
  refine ⟨t, metadata t.ft, he, hok, hft, htb, hct, packTable_metadata hw, hout, ?_, hsingle, fun b hb => ?_,
    by rw [hbw, hout], hbr, by rw [horch]; rfl, by rw [horch]; rfl⟩
  · rw [hcount, BitVec.toNat_ofNat, Nat.mod_eq_of_lt (by omega)]
  · rw [hct, htb]
    exact ctLen_pos_of_wf s.params hw (hft ▸ h2) (hft ▸ (ftPresent_buildTable s.argIn b).2 hb)

/-! ### The host-issued sequence -/

/-- The machine runs the commands the host issues, from the first to the last (10_state.md R22; log 1). -/
def issue (cs : List HostCommand) (s : State) : Answer := runSteps cs.length { s with pending := cs }

theorem issue_nil (s : State) : issue [] s = .next { s with pending := [] } := rfl

/-- The command at the head is latched and run, and the others are issued from the state it leaves. -/
theorem issue_cons {s u : State} {i : Instr} {arg : List Byte} {rest : List HostCommand} (hlen : arg.length ≤ maxArgIn)
    (he : exec i (latchCommand (hostCommand i arg) rest s) = .next u) : issue (hostCommand i arg :: rest) s = issue rest u := by
  have hstep : step { s with pending := hostCommand i arg :: rest } = .next u :=
    (step_of_decode (c := hostCommand i arg) rfl hlen (decode_encode i)).trans he
  obtain ⟨-, hpending, -⟩ := (exec_ends he).hostSideKept
  rw [latchCommand_pending] at hpending
  rw [issue, List.length_cons, runSteps_succ_next hstep, issue, ← hpending]

/-- BW_WBIT of a bit sequence, one command a bit, writes it (30_encoding.md R111). -/
theorem issue_bwWbit {s : State} (h : s.status ≠ .failed) (b : Bits) (rest : List HostCommand) :
    ∃ u, issue ((b.map fun x => hostCommand (.bwWbit x) []) ++ rest) s = issue rest u ∧ u.status ≠ .failed ∧
      u.bw = writeBits b s.bw := by
  induction b generalizing s with
  | nil => exact ⟨s, rfl, h, rfl⟩
  | cons x b ih =>
    rw [List.map_cons, List.cons_append, issue_cons (Nat.zero_le _) (exec_bwWbit (by exact h) x)]
    exact ih (by simp)

/-- BW_WBYTES appends its operand. -/
theorem issue_bwWbytes {s : State} (h : s.status ≠ .failed) {M : List Byte} (hM : M.length ≤ maxArgIn) (rest : List HostCommand) :
    ∃ u, issue ([hostCommand .bwWbytes M] ++ rest) s = issue rest u ∧ u.status ≠ .failed ∧ u.bw = writeBytes M s.bw := by
  rw [List.singleton_append, issue_cons hM (exec_bwWbytes (by exact h))]
  exact ⟨_, rfl, by simp, rfl⟩

/-- From an empty writer BW_WBYTES, the bits, BW_FLUSH and BW_GET present the bytes and PackBits of the bits. -/
theorem issue_writeBlob {s : State} (h : s.status ≠ .failed) (hw : s.bw = Writer.empty) {M : List Byte} (hM : M.length ≤ maxArgIn)
    (b : Bits) :
    ∃ u, issue ([hostCommand .bwWbytes M] ++ (b.map fun x => hostCommand (.bwWbit x) []) ++
        [hostCommand .bwFlush [], hostCommand .bwGet []]) s = .next u ∧
      u.status = .done ∧ u.res.out = M ++ packBits b := by
  obtain ⟨t, hbytes, ht, hbw⟩ := issue_bwWbytes h hM
    ((b.map fun x => hostCommand (.bwWbit x) []) ++ [hostCommand .bwFlush [], hostCommand .bwGet []])
  obtain ⟨u, hbits, hu, hbw'⟩ := issue_bwWbit ht b [hostCommand .bwFlush [], hostCommand .bwGet []]
  have hwbuf : (flushWriter u.bw).wbuf = M ++ packBits b := by
    rw [hbw', hbw, hw]
    exact flush_writeBits_wbuf b (writeBytes_ok M writerOk_empty) rfl
  rw [List.append_assoc, hbytes, hbits, issue_cons (Nat.zero_le _) (exec_bwFlush (by exact hu)),
    issue_cons (Nat.zero_le _) (exec_bwGet (by simp))]
  exact ⟨_, rfl, rfl, hwbuf⟩

/-- TB_BUILD and CT_DERIVE, if issued, leave the codes of the table's tree. -/
theorem issue_deriveCodes {s : State} (h : s.status ≠ .failed) (several : Bool) (rest : List HostCommand) :
    ∃ u, issue ((if several then [hostCommand .tbBuild [], hostCommand .ctDerive []] else []) ++ rest) s = issue rest u ∧
      u.status ≠ .failed ∧ u.bw = s.bw ∧ u.ft = s.ft ∧ u.ct = if several then deriveCodes (treeOf s.params s.ft) else s.ct := by
  cases several with
  | false => exact ⟨s, rfl, h, rfl, rfl, rfl⟩
  | true =>
    rw [if_pos rfl, List.cons_append, issue_cons (Nat.zero_le _) (exec_tbBuild (by exact h)), List.singleton_append,
      issue_cons (Nat.zero_le _) (exec_ctDerive (by simp))]
    exact ⟨_, rfl, by simp, rfl, rfl, rfl⟩

/-- RESET and FT_BUILD leave the table of the data, the writer and the codes at their reset values. -/
theorem issue_buildTable (s : State) {data : List Byte} (hmax : data.length ≤ s.params.maxInputLen) (hport : data.length ≤ maxArgIn)
    (rest : List HostCommand) :
    ∃ u, issue ([hostCommand .reset [], hostCommand .ftBuild data] ++ rest) s = issue rest u ∧ u.status ≠ .failed ∧
      u.params = s.params ∧ u.bw = Writer.empty ∧ u.ft = buildTable data ∧ u.ct = [] := by
  rw [List.cons_append, issue_cons (Nat.zero_le _) (exec_reset _), List.singleton_append,
    issue_cons hport (exec_ftBuild (by simp) (by exact hmax))]
  exact ⟨_, rfl, by simp, rfl, rfl, rfl, rfl⟩

/-- The commands of R230 up to FT_PACK present the metadata and leave the codes, if derived, and an empty writer. -/
theorem issue_packCommands (s : State) {data : List Byte} (hmax : data.length ≤ s.params.maxInputLen)
    (hport : data.length ≤ maxArgIn) (several : Bool) :
    ∃ t, issue ([hostCommand .reset [], hostCommand .ftBuild data] ++
        (if several then [hostCommand .tbBuild [], hostCommand .ctDerive []] else []) ++ [hostCommand .ftPack []]) s = .next t ∧
      t.status = .done ∧ t.bw = Writer.empty ∧ t.res.out = metadata (buildTable data) ∧
      t.ct = if several then deriveCodes (treeOf s.params (buildTable data)) else [] := by
  obtain ⟨u, hbuild, hu, hparams, hbw, hft, hct⟩ := issue_buildTable s hmax hport
    ((if several then [hostCommand .tbBuild [], hostCommand .ctDerive []] else []) ++ [hostCommand .ftPack []])
  obtain ⟨v, hderive, hv, hbw', hft', hct'⟩ := issue_deriveCodes hu several [hostCommand .ftPack []]
  rw [hparams, hft, hct] at hct'
  have hpack : packTable v.ft = .ok (metadata (buildTable data)) := by
    rw [hft', hft]
    exact packTable_metadata (symWf_buildTable data)
  rw [List.append_assoc, hbuild, hderive, issue_cons (Nat.zero_le _) (exec_ftPack_ok (by exact hv) (by exact hpack))]
  exact ⟨_, rfl, rfl, hbw'.trans hbw, rfl, hct'⟩

/-- The blob OR_COMPRESS makes: the metadata, and with two or more keys PackBits of the payload bits. -/
theorem execOrCompress_blob {s : State} (hne : s.argIn ≠ []) (hmax : s.argIn.length ≤ s.params.maxInputLen) :
    ∃ v, execOrCompress s = .next v ∧ v.status = .done ∧
      v.res.out = metadata (buildTable s.argIn) ++
        packBits (if 2 ≤ distinct (buildTable s.argIn) then
          payloadBits (deriveCodes (treeOf s.params (buildTable s.argIn))) s.argIn else []) := by
  have hpos := distinct_buildTable_pos hne
  by_cases h2 : 2 ≤ distinct (buildTable s.argIn)
  · obtain ⟨v, he, hok, -, hout, -⟩ := execOrCompress_several hmax h2
    rw [flush_writePayload] at hout
    exact ⟨v, he, hok.1, by rw [hout, if_pos h2]⟩
  · obtain ⟨v, he, hok, -, hout, -⟩ := execOrCompress_single hmax (by omega)
    exact ⟨v, he, hok.1, by rw [hout, if_neg h2]; exact (List.append_nil _).symm⟩

/-- Settles O42: both ways write the metadata and, with two or more keys, the payload bits under the same codes, to an empty writer. -/
theorem compressEqualsTheCommandSequence : Obligations.CompressEqualsTheCommandSequence := by
  unfold Obligations.CompressEqualsTheCommandSequence
  intro s data hne hmax hport several head
  have hsize : distinct (buildTable data) ≤ 256 := symWf_length (symWf_buildTable data)
  obtain ⟨t, hhead, hdone, hbw, hout, hct⟩ := issue_packCommands s hmax hport several
  have hM : t.res.out.length ≤ maxArgIn := by rw [hout, metadata_length, maxArgIn]; omega
  obtain ⟨v, hv, hvdone, hvout⟩ := execOrCompress_blob (s := { s with argIn := data }) hne hmax
  refine ⟨t, hhead, ?_⟩
  intro tail
  have htail : tail = [hostCommand .bwWbytes t.res.out] ++
      ((if several then payloadBits t.ct data else []).map fun x => hostCommand (.bwWbit x) []) ++
      [hostCommand .bwFlush [], hostCommand .bwGet []] := by
    rw [apply_ite (List.map _)]
    rfl
  obtain ⟨u, hrun, hudone, huout⟩ := issue_writeBlob (by simp [hdone]) hbw hM (if several then payloadBits t.ct data else [])
  refine ⟨u, v, by rw [htail]; exact hrun, hv, hvdone, hudone, ?_⟩
  rw [hvout, huout, hout, hct]
  by_cases h2 : 2 ≤ distinct (buildTable data)
  · simp [several, h2]
  · simp [several, h2]

end Sys2Proof.Machine
end

section
/-! PROOFS. OR_DECOMPRESS (44_orchestrator.md R221 to R229): its output on a table of no key, of one key and of several, under OUT_LIMIT,
and the round trip with OR_COMPRESS (R231). -/

namespace Sys2Proof.Machine

open Sys2Proof

/-! ### The limit -/

theorem overLimit_eq_true_iff {limit : Option Nat} {len : Nat} : overLimit limit len = true ↔ ∃ m, limit = some m ∧ m < len := by
  cases limit <;> simp [overLimit]

theorem overLimit_eq_false_iff {limit : Option Nat} {len : Nat} : overLimit limit len = false ↔ ∀ m, limit = some m → len ≤ m := by
  cases limit <;> simp [overLimit]

/-! ### No key and one key -/

/-- Settles O44: the reader stands behind the metadata, and the output is the key repeated unless it is longer than the limit. -/
theorem decompressOfOneKeyRepeatsIt : Obligations.DecompressOfOneKeyRepeatsIt := by
  unfold Obligations.DecompressOfOneKeyRepeatsIt
  intro s b c n r hne hu
  refine ⟨fun hle => ?_, fun m hm hlt => execOrDecompress_single_over hne hu (overLimit_eq_true_iff.2 ⟨m, hm, hlt⟩)⟩
  obtain ⟨-, -, hr⟩ := unpackTable_blob hu
  obtain ⟨t, he, hok, -, hout, hbw, hbr, hft, htb, hct, horch⟩ := execOrDecompress_single hne hu (overLimit_eq_false_iff.2 hle)
  exact ⟨t, he, hok, hout, by rw [horch, hout], by rw [horch]; rfl, hbr, by rw [hr], by rw [hr], by rw [hr], hft, htb, hct, hbw⟩

/-- Two zero bytes are the metadata of the empty table. -/
theorem unpackTable_noEntries {blob : List Byte} (h : blob.take 2 = [0, 0]) :
    ∃ n r, unpackTable (loadReader blob) = .ok ([], n, r) := by
  rw [← List.take_append_drop 2 blob, h]
  exact ⟨_, _, unpackTable_metadata freqOk_nil (blob.drop 2)⟩

/-- Settles O45: with no key nothing is expected, so the walk reads nothing and emits nothing. -/
theorem decompressOfNoEntriesIsEmpty : Obligations.DecompressOfNoEntriesIsEmpty := by
  unfold Obligations.DecompressOfNoEntriesIsEmpty
  intro s h
  have hne : s.argIn ≠ [] := fun hnil => by simp [hnil] at h
  obtain ⟨n, r, hu⟩ := unpackTable_noEntries h
  have hwalk := walkOf_nil s.params r s.free
  obtain ⟨t, he, hok, -, hout, hbw, -, hft, htb, hct, horch⟩ := execOrDecompress_tree hne hu Nat.zero_ne_one
    (overLimit_eq_false_iff.2 fun m _ => by rw [hwalk]; exact Nat.zero_le m)
  rw [hwalk] at hout horch
  exact ⟨t, he, hok, hout, hft, htb, hct, hbw, by rw [horch], by rw [horch]; rfl, by rw [horch]; rfl, by rw [horch]; rfl⟩

/-! ### Several keys -/

/-- Settles O46: the walk decodes the payload's bits along the tree of the unpacked table, and emits at most a symbol for each bit. -/
theorem decompressDecodesThePayload : Obligations.DecompressDecodesThePayload := by
  unfold Obligations.DecompressDecodesThePayload
  intro s T n r hne hu h2 hlimit payload C
  obtain ⟨hT, hn, hr⟩ := unpackTable_blob hu
  obtain ⟨htotal, hkeys, hprefix, hshort, hfull, hrdata, -, horch'⟩ := walkOf_spec s.params hT h2 r s.free
  have hpayload : remainingBits r = payload := by rw [hr]; exact remainingBits_aligned rfl
  have hbits : payload.length = 8 * (s.argIn.length - n) := by rw [streamBits_length, List.length_drop]
  obtain ⟨hlow, hhigh, hcnt⟩ := walkOf_position (n := n) s.params T r s.free (by rw [hr]; exact ⟨Nat.le_refl n, hn, Nat.zero_le _⟩)
  rw [hpayload] at hprefix hshort hfull
  replace hrdata : (walkOf s.params T r s.free).1.rdata = s.argIn := by rw [hrdata, hr]
  rw [hrdata] at hhigh
  have hlen : (walkOf s.params T r s.free).2.dout.length ≤ 8 * (s.argIn.length - n) :=
    calc (walkOf s.params T r s.free).2.dout.length
        _ ≤ (payloadBits C (walkOf s.params T r s.free).2.dout).length :=
          length_le_payloadBits C _ fun b hb => ctLen_pos s.params hT h2 (hkeys b hb)
        _ ≤ payload.length := hprefix.length_le
        _ = 8 * (s.argIn.length - n) := hbits
  have hover : overLimit s.params.outLimit (walkOf s.params T r s.free).2.dout.length = false :=
    overLimit_eq_false_iff.2 fun m hm => (hlimit m hm).elim htotal.trans hlen.trans
  obtain ⟨t, he, hok, -, hout, hbw, hbr, hft, htb, hct, horch⟩ := execOrDecompress_tree hne hu (by omega) hover
  refine ⟨t, he, hok, ?_⟩
  rw [horch, hbr, hout, horch']
  refine ⟨hprefix, hkeys, htotal, hlen, fun hlt => (hshort hlt).2, fun heq => ?_, rfl, rfl, rfl, rfl, ?_, hft, htb, hct, hbw⟩
  · have hread := congrArg List.length (hfull heq)
    rw [List.length_append, remainingBits_length, bitsLeft, hrdata, hbits] at hread
    show 8 * ((walkOf s.params T r s.free).1.rpos - n) - (walkOf s.params T r s.free).1.rcnt =
      (payloadBits (deriveCodes (treeOf s.params T)) (walkOf s.params T r s.free).2.dout).length
    omega
  · exact hrdata

/-! ### Reading codes back -/

/-- Of two keys' codes neither begins the other (43_codetable_stats.md R193). -/
theorem eq_of_ctBits_prefix (p : Config.Params) {T : FreqTable} (hT : FreqOk T) (h2 : 2 ≤ distinct T) {a b : Byte}
    (ha : ftPresent T a = true) (hb : ftPresent T b = true)
    (h : ctBits (deriveCodes (treeOf p T)) a <+: ctBits (deriveCodes (treeOf p T)) b) : a = b := by
  obtain ⟨l, r, -, hleaves, -, -, -, hcodes, hn⟩ := treeOf_spec p hT h2
  rw [ftPresent_iff, ← hleaves.mem_iff, ← SymTree.paths_map_fst] at ha hb
  obtain ⟨e, he, rfl⟩ := List.mem_map.1 ha
  obtain ⟨f, hf, rfl⟩ := List.mem_map.1 hb
  rw [hcodes, ctBits_recordCodes hn he, ctBits_recordCodes hn hf] at h
  by_contra hne
  exact SymTree.not_prefix_of_ne he hf (fun hef => hne (congrArg Prod.fst hef)) h

theorem payloadBits_cons (C : CodeTable) (b : Byte) (data : List Byte) :
    payloadBits C (b :: data) = ctBits C b ++ payloadBits C data := List.flatMap_cons

theorem payloadBits_append (C : CodeTable) (x y : List Byte) : payloadBits C (x ++ y) = payloadBits C x ++ payloadBits C y :=
  List.flatMap_append

/-- Of two sequences of keys whose codes begin the same bits the shorter begins the longer (44_orchestrator.md R228). -/
theorem prefix_of_payloadBits_prefix (p : Config.Params) {T : FreqTable} (hT : FreqOk T) (h2 : 2 ≤ distinct T) {x y : List Byte}
    {bits : Bits} (hx : ∀ b ∈ x, ftPresent T b = true) (hy : ∀ b ∈ y, ftPresent T b = true)
    (hxb : payloadBits (deriveCodes (treeOf p T)) x <+: bits) (hyb : payloadBits (deriveCodes (treeOf p T)) y <+: bits)
    (hle : x.length ≤ y.length) : x <+: y := by
  induction x generalizing y bits with
  | nil => exact List.nil_prefix
  | cons a x ih =>
    cases y with
    | nil => simp at hle
    | cons b y =>
      rw [payloadBits_cons] at hxb hyb
      have hab : a = b := by
        rcases List.prefix_or_prefix_of_prefix ((List.prefix_append _ _).trans hxb) ((List.prefix_append _ _).trans hyb) with h | h
        · exact eq_of_ctBits_prefix p hT h2 (hx a (by simp)) (hy b (by simp)) h
        · exact (eq_of_ctBits_prefix p hT h2 (hy b (by simp)) (hx a (by simp)) h).symm
      subst hab
      obtain ⟨rest, rfl⟩ := (List.prefix_append _ _).trans hxb
      exact List.cons_prefix_cons.2 ⟨rfl, ih (fun c hc => hx c (by simp [hc])) (fun c hc => hy c (by simp [hc]))
        ((List.prefix_append_right_inj _).1 hxb) ((List.prefix_append_right_inj _).1 hyb) (by simpa using hle)⟩

theorem streamBits_prefix {A B : List Byte} (h : A <+: B) : streamBits A <+: streamBits B := by
  obtain ⟨rest, rfl⟩ := h
  rw [streamBits_append]
  exact List.prefix_append _ _

theorem prefix_streamBits_packBits (b : Bits) : b <+: streamBits (packBits b) := by
  rw [streamBits_packBits]
  exact List.prefix_append _ _

/-- What OR_DECOMPRESS makes of a table and a payload that agrees with the codes of total(T) keys: those keys when the payload holds
all their codes, and a beginning of them when it is cut short (44_orchestrator.md R226, R228). -/
theorem orDecompress_payload {u : State} {T : FreqTable} {data rest : List Byte} (hT : FreqOk T) (h2 : 2 ≤ distinct T)
    (hin : u.argIn = metadata T ++ rest) (hlimit : ∀ m, u.params.outLimit = some m → total T ≤ m)
    (hkeys : ∀ b ∈ data, ftPresent T b = true) (htotal : data.length = total T) :
    let code := payloadBits (deriveCodes (treeOf u.params T)) data
    ∃ v, exec .orDecompress u = .next v ∧ v.status = .done ∧ (code <+: streamBits rest → v.res.out = data) ∧
      ∀ bits, streamBits rest <+: bits → code <+: bits → v.res.out <+: data := by
  intro code
  have hne : u.argIn ≠ [] := fun hnil => by
    have := congrArg List.length (hin.symm.trans hnil)
    rw [List.length_append, metadata_length, List.length_nil] at this
    omega
  have hu := unpackTable_metadata hT rest
  rw [← hin] at hu
  obtain ⟨v, he, ⟨hdone, -⟩, hprefix, hout, hle, -, hshort, -⟩ :=
    decompressDecodesThePayload u T _ _ hne hu h2 fun m hm => .inl (hlimit m hm)
  rw [hin, List.drop_left] at hprefix hshort
  have hbegins : ∀ bits, streamBits rest <+: bits → code <+: bits → v.res.out <+: data := fun bits hrest hcode =>
    prefix_of_payloadBits_prefix u.params hT h2 hout hkeys (hprefix.trans hrest) hcode (htotal ▸ hle)
  refine ⟨v, he, hdone, fun hcode => ?_, hbegins⟩
  obtain ⟨more, hmore⟩ := hbegins _ (List.prefix_refl _) hcode
  cases more with
  | nil => rwa [List.append_nil] at hmore
  | cons b more =>
    have hlt : v.res.out.length < total T := by
      rw [← htotal, ← hmore, List.length_append, List.length_cons]
      omega
    refine absurd ?_ (hshort hlt b (hkeys b (by simp [← hmore])))
    refine List.IsPrefix.trans ?_ hcode
    have hcode_eq : code = payloadBits (deriveCodes (treeOf u.params T)) (v.res.out ++ [b]) ++
        payloadBits (deriveCodes (treeOf u.params T)) more := by
      rw [← payloadBits_append, ← List.append_cons, hmore]
    rw [hcode_eq]
    exact List.prefix_append _ _

/-! ### The round trip -/

theorem treeOf_congr {p q : Config.Params} (h : p.tieRanks = q.tieRanks) (T : FreqTable) : treeOf p T = treeOf q T := by
  rw [treeOf, treeOf, h]

/-- Settles O49: the bytes after the blob leave the payload's beginning as it was, and a cut leaves a beginning of the payload. -/
theorem extraBytesIgnoredMissingBytesTruncate : Obligations.ExtraBytesIgnoredMissingBytesTruncate := by
  unfold Obligations.ExtraBytesIgnoredMissingBytesTruncate
  intro s h2 hmax hport
  have hT := freqOk_buildTable hport
  have hkeys : ∀ b ∈ s.argIn, ftPresent (buildTable s.argIn) b = true := fun b => (ftPresent_buildTable s.argIn b).2
  have htotal := total_buildTable s.argIn
  have hpacked := prefix_streamBits_packBits (payloadBits (deriveCodes (treeOf s.params (buildTable s.argIn))) s.argIn)
  obtain ⟨t, he, ⟨hdone, -⟩, -, hout, -, -, -, -, hft, -⟩ := execOrCompress_several hmax h2
  rw [flush_writePayload] at hout
  refine ⟨t, he, hdone, fun u extra hin hranks hlimit => ?_, fun u k hin hk hranks hlimit => ?_⟩
  · rw [hout, List.append_assoc] at hin
    obtain ⟨v, hv, hvdone, hall, -⟩ := orDecompress_payload hT h2 hin (htotal ▸ hlimit) hkeys htotal.symm
    rw [treeOf_congr hranks] at hall
    refine ⟨v, hv, hvdone, hall (hpacked.trans ?_)⟩
    exact streamBits_prefix (List.prefix_append _ _)
  · rw [hft, ← metadata_length] at hk
    rw [hout, List.take_append, List.take_of_length_le hk] at hin
    obtain ⟨v, hv, hvdone, -, hcut⟩ := orDecompress_payload hT h2 hin (htotal ▸ hlimit) hkeys htotal.symm
    rw [treeOf_congr hranks] at hcut
    exact ⟨v, hv, hvdone, hcut _ (streamBits_prefix (List.take_prefix _ _)) hpacked⟩

/-- Data whose table has one key is that key repeated (44_orchestrator.md R213). -/
theorem eq_replicate_of_buildTable {data : List Byte} {b : Byte} {c : Nat} (h : buildTable data = [(b, c)]) :
    data = List.replicate c b := by
  have hlen := total_buildTable data
  refine List.eq_replicate_iff.2 ⟨by rw [← hlen, h]; simp, fun a ha => ?_⟩
  have := (ftPresent_buildTable data a).2 ha
  rw [h, ftPresent_iff] at this
  simpa using this

/-- Settles O48: with one key the count and the key come back, with several the payload holds the codes of all the data. -/
theorem decompressOfCompressIsTheData : Obligations.DecompressOfCompressIsTheData := by
  unfold Obligations.DecompressOfCompressIsTheData
  intro s hne hmax hport
  have hT := freqOk_buildTable hport
  obtain ⟨t, he, hdone, hout⟩ := execOrCompress_blob hne hmax
  refine ⟨t, he, hdone, fun u hin hranks hlimit => ?_⟩
  rw [hout] at hin
  by_cases h2 : 2 ≤ distinct (buildTable s.argIn)
  · rw [if_pos h2, ← treeOf_congr hranks] at hin
    obtain ⟨v, hv, hvdone, hall, -⟩ := orDecompress_payload hT h2 hin (by rwa [total_buildTable])
      (fun b => (ftPresent_buildTable s.argIn b).2) (total_buildTable s.argIn).symm
    exact ⟨v, hv, hvdone, hall (prefix_streamBits_packBits _)⟩
  · have h1 : distinct (buildTable s.argIn) = 1 := by have := distinct_buildTable_pos hne; omega
    obtain ⟨⟨b, c⟩, hT1⟩ := List.length_eq_one_iff.1 h1
    have hdata := eq_replicate_of_buildTable hT1
    have hu := unpackTable_metadata hT (packBits [])
    rw [if_neg h2] at hin
    rw [← hin, hT1] at hu
    obtain ⟨hrepeat, -⟩ := decompressOfOneKeyRepeatsIt u b c _ _ (by rw [hin]; simp [metadata, countBytes, beBytes]) hu
    obtain ⟨v, hv, ⟨hvdone, -⟩, hvout, -⟩ := hrepeat (by rwa [hdata, List.length_replicate] at hlimit)
    exact ⟨v, hv, hvdone, hvout.trans hdata.symm⟩

/-! ### Outputs longer than the limit -/

/-- The output of OR_DECOMPRESS on an unpacked table before it is compared with the limit (44_orchestrator.md R221, R223). -/
def decompressed (p : Config.Params) (T : FreqTable) (r : Reader) (free : Nat) : List Byte :=
  match T with
  | [(b, c)] => List.replicate c b
  | T => (walkOf p T r free).2.dout

theorem decompressed_of_not_one (p : Config.Params) {T : FreqTable} (h1 : distinct T ≠ 1) (r : Reader) (free : Nat) :
    decompressed p T r free = (walkOf p T r free).2.dout := by
  match T, h1 with
  | [], _ => rfl
  | _ :: _ :: _, _ => rfl
  | [_], h1 => exact absurd rfl h1

section

variable {s : State} {T : FreqTable} {n : Nat} {r : Reader}

/-- An output within the limit is presented. -/
theorem execOrDecompress_within (hne : s.argIn ≠ []) (hu : unpackTable (loadReader s.argIn) = .ok (T, n, r))
    (hl : overLimit s.params.outLimit (decompressed s.params T r s.free).length = false) :
    ∃ t, execOrDecompress s = .next t ∧ t.status = .done ∧ t.res.out = decompressed s.params T r s.free := by
  by_cases h1 : distinct T = 1
  · obtain ⟨⟨b, c⟩, rfl⟩ := List.length_eq_one_iff.1 h1
    rw [decompressed, List.length_replicate] at hl
    obtain ⟨t, he, ⟨hdone, -⟩, -, hout, -⟩ := execOrDecompress_single hne hu hl
    exact ⟨t, he, hdone, hout⟩
  · rw [decompressed_of_not_one _ h1] at hl ⊢
    obtain ⟨t, he, ⟨hdone, -⟩, -, hout, -⟩ := execOrDecompress_tree hne hu h1 hl
    exact ⟨t, he, hdone, hout⟩

/-- An output longer than the limit is refused (93_implementation_defined.md U7). -/
theorem execOrDecompress_beyond (hne : s.argIn ≠ []) (hu : unpackTable (loadReader s.argIn) = .ok (T, n, r))
    (hl : overLimit s.params.outLimit (decompressed s.params T r s.free).length = true) :
    execOrDecompress s = .refused .outputTooLong := by
  by_cases h1 : distinct T = 1
  · obtain ⟨⟨b, c⟩, rfl⟩ := List.length_eq_one_iff.1 h1
    rw [decompressed, List.length_replicate] at hl
    exact execOrDecompress_single_over hne hu hl
  · rw [decompressed_of_not_one _ h1] at hl
    exact execOrDecompress_tree_over hne hu h1 hl

/-- OR_DECOMPRESS ends `Ok` only on a blob whose metadata can be unpacked. -/
theorem unpackTable_of_done {t : State} (he : execOrDecompress s = .next t) (hdone : t.status = .done) :
    s.argIn ≠ [] ∧ ∃ T n r, unpackTable (loadReader s.argIn) = .ok (T, n, r) := by
  have hne : s.argIn ≠ [] := by
    intro hnil
    rw [execOrDecompress_empty hnil] at he
    cases he
    cases hdone
  refine ⟨hne, ?_⟩
  cases hu : unpackTable (loadReader s.argIn) with
  | error e =>
    rw [execOrDecompress_malformed hne hu] at he
    cases he
    cases hdone
  | ok z => exact ⟨z.1, z.2.1, z.2.2, rfl⟩

end

/-- Settles O47: the limit is compared with the output's length, and nothing before that depends on it. -/
theorem outputLimitRefusesLongerOutputs : Obligations.OutputLimitRefusesLongerOutputs := by
  unfold Obligations.OutputLimitRefusesLongerOutputs
  intro s t m hm he hdone
  obtain ⟨hne, T, n, r, hu⟩ := unpackTable_of_done he hdone
  obtain ⟨t', he', -, hout⟩ := execOrDecompress_within hne hu rfl
  cases he.symm.trans he'
  replace hout : t.res.out = decompressed s.params T r s.free := hout
  rw [hout]
  refine ⟨fun hlt => execOrDecompress_beyond hne hu (overLimit_eq_true_iff.2 ⟨m, hm, hlt⟩), fun hle => ?_⟩
  refine execOrDecompress_within hne hu (overLimit_eq_false_iff.2 fun k hk => ?_)
  cases hm.symm.trans hk
  exact hle

end Sys2Proof.Machine
end

section
/-! PROOFS. An orchestrator command starts from the reset values (44_orchestrator.md R210): two states with the same data and parameters
end it alike. They may differ in the count of free values, which only the loop cursors show (log 8, log 9). -/

namespace Sys2Proof.Machine

open Sys2Proof

/-! ### The walk and its cursors -/

/-- The walk neither reads nor writes ECUR. -/
theorem walkLoop_ecur (turns : Nat) (t : TreeUnit) (r : Reader) (o : Orch) (e : BitVec 17) :
    walkLoop turns t r { o with ecur := e } =
      ((walkLoop turns t r o).1, { (walkLoop turns t r o).2 with ecur := e }) := by
  induction turns generalizing r o with
  | zero => rfl
  | succ turns ih =>
    simp only [walkLoop]
    split
    · cases readBit r with
      | mk bit r' =>
        cases bit with
        | eos => rfl
        | bit b =>
          simp only
          generalize (if b = true then (nodeAt t.nodes o.walk).right else (nodeAt t.nodes o.walk).left) = i
          split
          · exact ih r' { o with dout := memAppend o.dout [(nodeAt t.nodes i).sym], emitted := o.emitted + 1, walk := t.root }
          · exact ih r' { o with walk := i }
    · rfl

/-- The orchestrator's registers but for the loop cursors, which hold no value the spec states (10_state.md R37, log 8). -/
def withoutCursors (o : Orch) : Orch := { o with icur := 0, bcur := 0, ecur := 0 }

theorem withoutCursors_eq_iff {o o' : Orch} :
    withoutCursors o = withoutCursors o' ↔
      o.phase = o'.phase ∧ o.walk = o'.walk ∧ o.expected = o'.expected ∧ o.emitted = o'.emitted ∧ o.dout = o'.dout := by
  simp [withoutCursors]

/-- The count of free values shows in the walk's ECUR only. -/
theorem walkOf_free (p : Config.Params) (T : FreqTable) (r : Reader) (f g : Nat) :
    walkOf p T r f = ((walkOf p T r g).1, { (walkOf p T r g).2 with ecur := (Config.freeCursors f).ecur }) :=
  walkLoop_ecur (bitsLeft r + 1) (treeOf p T) r (walkStart p T g) (Config.freeCursors f).ecur

/-! ### Commands that end alike -/

/-- What an orchestrator command presents at RES_OUT and the units it leaves, the loop cursors apart. -/
structure UnitsLeft where
  out : List Byte
  bw : Writer
  br : Reader
  ft : FreqTable
  tb : TreeUnit
  ct : CodeTable
  orch : Orch

def unitsLeft (t : State) : UnitsLeft :=
  { out := t.res.out, bw := t.bw, br := t.br, ft := t.ft, tb := t.tb, ct := t.ct, orch := withoutCursors t.orch }

/-- Two states that show the same statistics record. -/
abbrev SameRecord (t v : State) : Prop := v.res.statSymbolCount = t.res.statSymbolCount ∧ v.res.statSingle = t.res.statSingle

/-- Two answers of an orchestrator command that differ in what the spec leaves open only. -/
inductive EndAlike (i : Instr) : Answer → Answer → Prop
  | refused (r : Refusal) : EndAlike i (.refused r) (.refused r)
  | raised (e : Err) (t v : State) : EndAlike i (.next (raiseError e true t)) (.next (raiseError e true v))
  | done {s u t v : State} (ht : EndedOk s t) (hv : EndedOk u v) (h : unitsLeft v = unitsLeft t) (hstat : i = .orCompress → SameRecord t v) :
      EndAlike i (.next t) (.next v)

section

variable {s u : State}

theorem orCompress_endAlike (harg : u.argIn = s.argIn) (hpar : u.params = s.params) :
    EndAlike .orCompress (execOrCompress s) (execOrCompress u) := by
  by_cases hlen : s.argIn.length ≤ s.params.maxInputLen
  case neg =>
    rw [execOrCompress_overlong (Nat.lt_of_not_le hlen), execOrCompress_overlong (by rw [harg, hpar]; omega)]
    exact .refused _
  by_cases hnil : s.argIn = []
  case pos =>
    rw [execOrCompress_empty hnil, execOrCompress_empty (harg.trans hnil)]
    exact .raised _ _ _
  have hlen' : u.argIn.length ≤ u.params.maxInputLen := by rwa [harg, hpar]
  have hpos := distinct_buildTable_pos hnil
  by_cases h1 : distinct (buildTable s.argIn) = 1
  · obtain ⟨t, he, hok, -, hout, hcount, hsingle, hbw, hbr, hft, htb, hct, horch⟩ := execOrCompress_single hlen h1
    obtain ⟨v, he', hok', -, hout', hcount', hsingle', hbw', hbr', hft', htb', hct', horch'⟩ :=
      execOrCompress_single hlen' (by rwa [harg])
    rw [he, he']
    refine .done hok hok' ?_ fun _ => ⟨by rw [hcount, hcount'], hsingle'.trans hsingle.symm⟩
    simp only [unitsLeft, hout, hbw, hbr, hft, htb, hct, horch, hout', hbw', hbr', hft', htb', hct', horch', harg]
    rfl
  · obtain ⟨t, he, hok, -, hout, hcount, hsingle, hbw, hbr, hft, htb, hct, horch⟩ := execOrCompress_several hlen (by omega)
    obtain ⟨v, he', hok', -, hout', hcount', hsingle', hbw', hbr', hft', htb', hct', horch'⟩ :=
      execOrCompress_several hlen' (by rw [harg]; omega)
    rw [he, he']
    refine .done hok hok' ?_ fun _ => ⟨by rw [hcount, hcount', harg], hsingle'.trans hsingle.symm⟩
    simp only [unitsLeft, hout, hbw, hbr, hft, htb, hct, horch, hout', hbw', hbr', hft', htb', hct', horch', harg, hpar]
    rfl

theorem orDecompress_endAlike (harg : u.argIn = s.argIn) (hpar : u.params = s.params) :
    EndAlike .orDecompress (execOrDecompress s) (execOrDecompress u) := by
  by_cases hnil : s.argIn = []
  case pos =>
    rw [execOrDecompress_empty hnil, execOrDecompress_empty (harg.trans hnil)]
    exact .raised _ _ _
  have hnil' : u.argIn ≠ [] := by rwa [harg]
  cases hu : unpackTable (loadReader s.argIn) with
  | error e =>
    rw [execOrDecompress_malformed hnil hu, execOrDecompress_malformed hnil' (by rwa [harg])]
    exact .raised _ _ _
  | ok z =>
    obtain ⟨T, n, r⟩ := z
    have hu' : unpackTable (loadReader u.argIn) = .ok (T, n, r) := by rwa [harg]
    by_cases h1 : distinct T = 1
    · obtain ⟨⟨b, c⟩, rfl⟩ := List.length_eq_one_iff.1 h1
      cases hl : overLimit s.params.outLimit c with
      | true =>
        rw [execOrDecompress_single_over hnil hu hl, execOrDecompress_single_over hnil' hu' (by rwa [hpar])]
        exact .refused _
      | false =>
        obtain ⟨t, he, hok, -, hout, hbw, hbr, hft, htb, hct, horch⟩ := execOrDecompress_single hnil hu hl
        obtain ⟨v, he', hok', -, hout', hbw', hbr', hft', htb', hct', horch'⟩ :=
          execOrDecompress_single hnil' hu' (by rwa [hpar])
        rw [he, he']
        refine .done hok hok' ?_ Instr.noConfusion
        simp only [unitsLeft, hout, hbw, hbr, hft, htb, hct, horch, hout', hbw', hbr', hft', htb', hct', horch']
        rfl
    · have hwalk := walkOf_free s.params T r u.free s.free
      have hdout : (walkOf s.params T r u.free).2.dout = (walkOf s.params T r s.free).2.dout := by rw [hwalk]
      cases hl : overLimit s.params.outLimit (walkOf s.params T r s.free).2.dout.length with
      | true =>
        rw [execOrDecompress_tree_over hnil hu h1 hl, execOrDecompress_tree_over hnil' hu' h1 (by rwa [hpar, hdout])]
        exact .refused _
      | false =>
        obtain ⟨t, he, hok, -, hout, hbw, hbr, hft, htb, hct, horch⟩ := execOrDecompress_tree hnil hu h1 hl
        obtain ⟨v, he', hok', -, hout', hbw', hbr', hft', htb', hct', horch'⟩ :=
          execOrDecompress_tree hnil' hu' h1 (by rwa [hpar, hdout])
        rw [he, he']
        refine .done hok hok' ?_ Instr.noConfusion
        simp only [unitsLeft, hout, hbw, hbr, hft, htb, hct, horch, hout', hbw', hbr', hft', htb', hct', horch', hpar, hwalk]
        rfl

end

/-- Settles O50: the two runs are refused, raise the same error, or end with the same units. -/
theorem orchestratorStartsFromAFreshInstance : Obligations.OrchestratorStartsFromAFreshInstance := by
  unfold Obligations.OrchestratorStartsFromAFreshInstance
  intro i s u hi harg hpar
  have halike : EndAlike i (exec i s) (exec i u) := by
    rcases hi with rfl | rfl
    · exact orCompress_endAlike harg hpar
    · exact orDecompress_endAlike harg hpar
  generalize exec i s = a at halike ⊢
  generalize exec i u = b at halike ⊢
  cases halike with
  | refused r => exact ⟨fun r' h => h, fun t h => nomatch h⟩
  | raised e t v =>
    refine ⟨fun r h => (nomatch h), fun t' h => ?_⟩
    cases h
    exact ⟨_, rfl, rfl, rfl, rfl, fun hdone => nomatch hdone⟩
  | @done _ _ t v ht hv hleft hrecord =>
    refine ⟨fun r h => (nomatch h), fun t' h => ?_⟩
    cases h
    obtain ⟨hst, herr, hinfo, -⟩ := ht
    obtain ⟨hst', herr', hinfo', -⟩ := hv
    exact ⟨_, rfl, hst'.trans hst.symm, herr'.trans herr.symm, hinfo'.trans hinfo.symm, fun _ =>
      ⟨congrArg UnitsLeft.out hleft, hrecord, congrArg UnitsLeft.bw hleft, congrArg UnitsLeft.br hleft, congrArg UnitsLeft.ft hleft,
        congrArg UnitsLeft.tb hleft, congrArg UnitsLeft.ct hleft, withoutCursors_eq_iff.1 (congrArg UnitsLeft.orch hleft)⟩⟩

end Sys2Proof.Machine
end

section
/-! PROOFS. How commands end in a refusal or an error (60_exceptions.md R241 to R250): FAILED refuses every primitive command and every
illegal one, each error of the orchestrator leaves P_FAILED, and no command stops but for the reasons of U4, U5 and U7. -/

namespace Sys2Proof.Machine

open Sys2Proof

variable {s : State}

/-! ### Illegal commands -/

/-- A command outside the opcode map is rejected on its latched operands. -/
theorem step_of_reject {c : HostCommand} {rest : List HostCommand} {e : DecodeReject} (hp : s.pending = c :: rest)
    (hc : c.argIn.length ≤ maxArgIn) (hd : decode [c.cmd] = .error e) :
    step s = rejectCommand c.cmd (latchCommand c rest s) := by
  simp only [step, stepCommand, hp, (hostCommand_wf_iff c).2 hc, if_true, runCommand, hd]

/-- Settles O7: the latched command is rejected, and the fault record is all that a rejection writes. -/
theorem illegalCommandChangesOnlyTheFaultRecord : Obligations.IllegalCommandChangesOnlyTheFaultRecord := by
  unfold Obligations.IllegalCommandChangesOnlyTheFaultRecord
  intro s c rest hp hc hs hd
  calc step s
      _ = rejectCommand c.cmd (latchCommand c rest s) := step_of_reject hp hc hd
      _ = .next (raiseIllegal c.cmd (latchCommand c rest s)) := primitive_of_not_failed hs _

/-! ### The failed status -/

/-- While FAILED the commands that do not begin with a fresh instance are refused (60_exceptions.md R248). -/
theorem exec_of_failed {i : Instr} (h : s.status = .failed) (hreset : i ≠ .reset) (hcompress : i ≠ .orCompress)
    (hdecompress : i ≠ .orDecompress) : exec i s = .refused .failedStatus := by
  cases i with
  | reset => exact absurd rfl hreset
  | orCompress => exact absurd rfl hcompress
  | orDecompress => exact absurd rfl hdecompress
  | _ => exact primitive_of_failed h _

/-- Settles O8: a command that decodes is another operation than those three because its code is, and a rejected one is refused alike. -/
theorem failedStatusRefusesCommands : Obligations.FailedStatusRefusesCommands := by
  unfold Obligations.FailedStatusRefusesCommands
  intro s h
  refine ⟨fun i => exec_of_failed h, fun c rest hp hc hreset hcompress hdecompress => ?_⟩
  cases hd : decode [c.cmd] with
  | error e => exact (step_of_reject hp hc hd).trans (primitive_of_failed h _)
  | ok z =>
    obtain ⟨i, more⟩ := z
    have hcode : c.cmd = encodeByte i := decodeByte_eq_ok_iff.1 (decode_cons_eq_ok_iff.1 hd).1
    rw [hcode] at hreset hcompress hdecompress
    rw [step_of_decode hp hc hd]
    exact exec_of_failed h (fun hi => hreset (congrArg encodeByte hi)) (fun hi => hcompress (congrArg encodeByte hi))
      fun hi => hdecompress (congrArg encodeByte hi)

/-! ### Errors of the orchestrator -/

/-- An error raised in a phase that has written no unit yet: the host's side is kept and PHASE is P_FAILED (60_exceptions.md R248). -/
theorem raiseError_freshInstance (e : Err) (p : Phase) (s : State) :
    EndedInError s (raiseError e true (enterPhase p (freshInstance s))) (errCode e).toNat (errInfoOf e) ∧
      (raiseError e true (enterPhase p (freshInstance s))).orch.phase = .failed :=
  ⟨raiseError_endedInError e true (freshInstance_hostSideKept s), rfl⟩

/-- Settles O39: each command checks for empty data in its first phase. -/
theorem emptyInputFails : Obligations.EmptyInputFails := by
  unfold Obligations.EmptyInputFails
  intro s h
  exact ⟨⟨_, execOrCompress_empty h, raiseError_freshInstance .emptyInput .c1Check s⟩,
    ⟨_, execOrDecompress_empty h, raiseError_freshInstance .emptyInput .d1Check s⟩⟩

/-- Settles O43: unpacking the blob fails on the count field or on the first entry not whole, and D2_UNPACK raises its error. -/
theorem unreadableMetadataFails : Obligations.UnreadableMetadataFails := by
  unfold Obligations.UnreadableMetadataFails
  intro s hne N
  refine ⟨fun hshort => ?_, fun h2 hN => ?_⟩
  · have hu := unpackTable_of_short (r := loadReader s.argIn) hshort
    exact ⟨_, execOrDecompress_malformed hne hu, raiseError_freshInstance .headerShort .d2Unpack s⟩
  · have hu := unpackTable_of_truncated (r := loadReader s.argIn) h2 hN
    exact ⟨_, execOrDecompress_malformed hne hu, raiseError_freshInstance (.entryTruncated _) .d2Unpack s⟩

/-! ### Every command -/

/-- A primitive command out of a status other than FAILED stops only when FT_BUILD's data is too long (41_freqtable.md R151). -/
theorem exec_primitive_answers {i : Instr} (h : s.status ≠ .failed) (hcompress : i ≠ .orCompress) (hdecompress : i ≠ .orDecompress) :
    (∃ t, exec i s = .next t) ∨
      (exec i s = .refused .inputTooLong ∧ s.params.maxInputLen < s.argIn.length ∧ i = .ftBuild) := by
  cases i with
  | orCompress => exact absurd rfl hcompress
  | orDecompress => exact absurd rfl hdecompress
  | ftBuild =>
    rcases Nat.lt_or_ge s.params.maxInputLen s.argIn.length with hlen | hlen
    · exact .inr ⟨exec_ftBuild_overlong h hlen, hlen, rfl⟩
    · exact .inl ⟨_, exec_ftBuild h hlen⟩
  | ftPack =>
    rcases packTable_cases s.ft with ⟨-, hp⟩ | ⟨-, hp⟩
    · exact .inl ⟨_, exec_ftPack_ok h hp⟩
    · exact .inl ⟨_, exec_ftPack_error h hp⟩
  | ftUnpack =>
    cases hu : unpackTable s.br with
    | ok z => exact .inl ⟨_, exec_ftUnpack_ok h hu⟩
    | error e => exact .inl ⟨_, exec_ftUnpack_error h hu⟩
  | reset => exact .inl ⟨_, exec_reset s⟩
  | _ => exact .inl ⟨_, primitive_of_not_failed h _⟩

/-- OR_COMPRESS stops only on data longer than MAX_INPUT_LEN (44_orchestrator.md R216). -/
theorem execOrCompress_answers (s : State) :
    (∃ t, execOrCompress s = .next t) ∨
      (execOrCompress s = .refused .inputTooLong ∧ s.params.maxInputLen < s.argIn.length) := by
  rcases Nat.lt_or_ge s.params.maxInputLen s.argIn.length with hlen | hlen
  · exact .inr ⟨execOrCompress_overlong hlen, hlen⟩
  by_cases hnil : s.argIn = []
  · exact .inl ⟨_, execOrCompress_empty hnil⟩
  have hpos := distinct_buildTable_pos hnil
  by_cases h1 : distinct (buildTable s.argIn) = 1
  · obtain ⟨t, he, -⟩ := execOrCompress_single hlen h1
    exact .inl ⟨t, he⟩
  · obtain ⟨t, he, -⟩ := execOrCompress_several hlen (by omega)
    exact .inl ⟨t, he⟩

/-- OR_DECOMPRESS stops only on an output longer than OUT_LIMIT, which it presents without the limit (44_orchestrator.md R223). -/
theorem execOrDecompress_answers (s : State) :
    (∃ t, execOrDecompress s = .next t) ∨
      (execOrDecompress s = .refused .outputTooLong ∧
        ∃ m t, s.params.outLimit = some m ∧ execOrDecompress { s with params := { s.params with outLimit := none } } = .next t ∧
          t.status = .done ∧ m < t.res.out.length) := by
  by_cases hnil : s.argIn = []
  · exact .inl ⟨_, execOrDecompress_empty hnil⟩
  cases hu : unpackTable (loadReader s.argIn) with
  | error e => exact .inl ⟨_, execOrDecompress_malformed hnil hu⟩
  | ok z =>
    obtain ⟨T, n, r⟩ := z
    cases hl : overLimit s.params.outLimit (decompressed s.params T r s.free).length with
    | false =>
      obtain ⟨t, he, -⟩ := execOrDecompress_within hnil hu hl
      exact .inl ⟨t, he⟩
    | true =>
      obtain ⟨m, hm, hlt⟩ := overLimit_eq_true_iff.1 hl
      obtain ⟨t, he, hdone, hout⟩ :=
        execOrDecompress_within (s := { s with params := { s.params with outLimit := none } }) hnil hu rfl
      have hout : t.res.out = decompressed s.params T r s.free := hout
      exact .inr ⟨execOrDecompress_beyond hnil hu hl, m, t, hm, he, hdone, by rwa [hout]⟩

/-- Settles O9: the two orchestrator commands have one reason each to stop, a primitive command has FAILED and, for FT_BUILD, the length
of its data. -/
theorem operationsEndExceptForThreeReasons : Obligations.OperationsEndExceptForThreeReasons := by
  unfold Obligations.OperationsEndExceptForThreeReasons
  intro i s
  by_cases hcompress : i = .orCompress
  · subst hcompress
    rcases execOrCompress_answers s with hnext | ⟨he, hlen⟩
    · exact .inl hnext
    · exact .inr (.inr (.inl ⟨he, hlen, .inr rfl⟩))
  by_cases hdecompress : i = .orDecompress
  · subst hdecompress
    rcases execOrDecompress_answers s with hnext | ⟨he, hover⟩
    · exact .inl hnext
    · exact .inr (.inr (.inr ⟨he, rfl, hover⟩))
  by_cases hreset : i = .reset
  · exact .inl ⟨_, hreset ▸ exec_reset s⟩
  by_cases hs : s.status = .failed
  · exact .inr (.inl ⟨exec_of_failed hs hreset hcompress hdecompress, hs, hreset, hcompress, hdecompress⟩)
  rcases exec_primitive_answers hs hcompress hdecompress with hnext | ⟨he, hlen, hbuild⟩
  · exact .inl hnext
  · exact .inr (.inr (.inl ⟨he, hlen, .inl hbuild⟩))

end Sys2Proof.Machine
end

section
/-! PROOFS. Waiting, the port's limit and reset (70_reset_and_hazards.md R270 to R272; 10_state.md R22): the two steps that run no
command, and the reset table read off the fresh instance. -/

namespace Sys2Proof.Machine

open Sys2Proof

variable {s : State}

/-! ### Steps that run no command -/

/-- The block waits for a command (70_reset_and_hazards.md R272). -/
theorem step_of_pending_nil (hp : s.pending = []) : step s = .next s := by
  simp only [step, stepCommand, hp]

/-- The fetch checks the operand's length before anything is latched (log 2). -/
theorem step_of_overlong {c : HostCommand} {rest : List HostCommand} (hp : s.pending = c :: rest)
    (hc : maxArgIn < c.argIn.length) : step s = .fault .operandTooLong := by
  have hwf : ¬ c.wf = true := fun hw => Nat.not_le_of_lt hc ((hostCommand_wf_iff c).1 hw)
  simp only [step, stepCommand, hp, if_neg hwf]

/-- Settles O5: with no command the block waits, and with one longer than the port the fetch faults. -/
theorem stepWaitsForACommand : Obligations.StepWaitsForACommand := by
  unfold Obligations.StepWaitsForACommand
  exact ⟨fun _ => step_of_pending_nil, fun _ _ _ => step_of_overlong⟩

/-! ### Reset -/

@[simp] theorem nodeAt_nil (i : Nat) : nodeAt [] i = zeroNode := rfl

@[simp] theorem ncount_empty : ncount TreeUnit.empty = 0 := rfl

@[simp] theorem ctBits_nil (b : Byte) : ctBits [] b = [] := rfl

@[simp] theorem ctLen_nil (b : Byte) : ctLen [] b = 0 := rfl

/-- The power-on state is a fresh instance (70_reset_and_hazards.md R270). -/
theorem freshInstance_reset : freshInstance State.reset = State.reset := rfl

/-- A fresh instance holds the reset table: its two tables and its arena are empty, and an empty one reads as 0 at every index
(70_reset_and_hazards.md R271). -/
theorem freshInstance_resetValues (s : State) : ResetValues (freshInstance s) := by
  simp [ResetValues, zeroNode, Results.zero, Reader.empty, Orch.idle]

/-- Settles O11: RESET answers the fresh instance in every status, and the power-on state is one too. -/
theorem resetGivesEveryElementItsResetValue : Obligations.ResetGivesEveryElementItsResetValue := by
  unfold Obligations.ResetGivesEveryElementItsResetValue
  exact ⟨freshInstance_reset ▸ freshInstance_resetValues State.reset, fun s =>
    ⟨freshInstance s, exec_reset s, freshInstance_resetValues s, freshInstance_errInfo s, freshInstance_hostSideKept s⟩⟩

end Sys2Proof.Machine
end
